-- ==== Sys2Proof/Word.lean ====
section
/-! DEFINITION. The word types of the ports and registers (00_scope.md R10 to R13). -/

namespace Sys2Proof

/-- A word of the command or response port (R10, R65). -/
abbrev Word := BitVec 32

/-- A channel field, type Chan? of R13: 0 is `none`, a channel id is its own value. -/
abbrev Chan := BitVec 8

/-- One audio sample, signed 16-bit two's complement (R11). -/
abbrev Sample := BitVec 16

end Sys2Proof
end

