-- ==== Sys2Proof/Syntax.lean ====
section
/-! DEFINITION. The commands (30_encoding.md R70): one constructor per row of the opcode table. -/

namespace Sys2Proof

/-- A command with its operands. A channel operand is the raw 8-bit field CH, since a value above `N_CH` is no
illegal encoding but the error BAD_CHANNEL (R73). A frequency operand is `Freq?` (R12, R67). A block is its COUNT
samples in time order (R11, R53). -/
inductive Instr where
  /-- NOP (R155). -/
  | nop
  /-- ANLZ block (R92). -/
  | anlz (block : List Sample)
  /-- BLK block, flags NO and OVF (R151). -/
  | blk (no ovf : Bool) (block : List Sample)
  /-- CLSF f, flag NO (R122). -/
  | clsf (no : Bool) (f : Option Word)
  /-- CALW c, f (R103). -/
  | calw (ch : Chan) (f : Option Word)
  /-- CALT c, f (R104). -/
  | calt (ch : Chan) (f : Option Word)
  /-- CCLR (R108). -/
  | cclr
  /-- CDONE (R107). -/
  | cdone
  /-- DSTEP c, f (R131). -/
  | dstep (ch : Chan) (f : Option Word)
  /-- DCLR (R141). -/
  | dclr
  /-- FRST (R154). -/
  | frst
  /-- RDREG idx (R157). -/
  | rdreg (idx : BitVec 8)
deriving DecidableEq, Repr

end Sys2Proof
end

