-- ==== Sys2Proof/WellFormed.lean ====
section
/-! DEFINITION. Which commands have an encoding. -/

namespace Sys2Proof

/-- A block's length must fit the 16-bit COUNT field (30_encoding.md R66); every other operand is a field of
exactly its type's width. -/
def Instr.wf : Instr → Bool
  | .nop => true
  | .anlz block => decide (block.length ≤ 65535)
  | .blk _ _ block => decide (block.length ≤ 65535)
  | .clsf _ _ => true
  | .calw _ _ => true
  | .calt _ _ => true
  | .cclr => true
  | .cdone => true
  | .dstep _ _ => true
  | .dclr => true
  | .frst => true
  | .rdreg _ => true

end Sys2Proof
end

