-- ==== Sys2Proof/Decode.lean ====
section
/-! DEFINITION. The decoder (30_encoding.md R66 to R74), total on any words and rejecting by name, and the encoder
(R66, R70, R75). -/

namespace Sys2Proof

/-- Why a stream of words holds no command. -/
inductive Reject where
  /-- The words end before the operands the format calls for (70_reset_and_hazards.md R197). -/
  | incomplete
  /-- The opcode is none of the twelve (R72). -/
  | unassignedOpcode
  /-- A reserved bit of an assigned opcode is 1 (R73). -/
  | reservedBit
deriving DecidableEq, Repr

/-- The four formats of R66. -/
inductive Format where
  | z
  | b
  | f
  | r
deriving DecidableEq, Repr

/-- The rows of the opcode map R70. -/
inductive Op where
  | nop
  | anlz
  | blk
  | clsf
  | calw
  | calt
  | cclr
  | cdone
  | dstep
  | dclr
  | frst
  | rdreg
deriving DecidableEq, Repr

/-- Column OP of R70. -/
def opCode : Op → BitVec 8
  | .nop => 0x00#8
  | .anlz => 0x10#8
  | .blk => 0x11#8
  | .clsf => 0x20#8
  | .calw => 0x30#8
  | .calt => 0x31#8
  | .cclr => 0x32#8
  | .cdone => 0x33#8
  | .dstep => 0x40#8
  | .dclr => 0x41#8
  | .frst => 0x50#8
  | .rdreg => 0x60#8

/-- Column format of R70. -/
def opFormat : Op → Format
  | .nop => .z
  | .anlz => .b
  | .blk => .b
  | .clsf => .f
  | .calw => .f
  | .calt => .f
  | .cclr => .z
  | .cdone => .z
  | .dstep => .f
  | .dclr => .z
  | .frst => .z
  | .rdreg => .r

/-- Column mask of R70. -/
def opMask : Op → Word
  | .nop => 0xFFFFFFFF#32
  | .anlz => 0xFFFF0000#32
  | .blk => 0xFFFC0000#32
  | .clsf => 0xFFFFFFFC#32
  | .calw => 0xFF00FFFE#32
  | .calt => 0xFF00FFFE#32
  | .cclr => 0xFFFFFFFF#32
  | .cdone => 0xFFFFFFFF#32
  | .dstep => 0xFF00FFFE#32
  | .dclr => 0xFFFFFFFF#32
  | .frst => 0xFFFFFFFF#32
  | .rdreg => 0xFF00FFFF#32

/-- Column match of R70. -/
def opMatch : Op → Word
  | .nop => 0x00000000#32
  | .anlz => 0x10000000#32
  | .blk => 0x11000000#32
  | .clsf => 0x20000000#32
  | .calw => 0x30000000#32
  | .calt => 0x31000000#32
  | .cclr => 0x32000000#32
  | .cdone => 0x33000000#32
  | .dstep => 0x40000000#32
  | .dclr => 0x41000000#32
  | .frst => 0x50000000#32
  | .rdreg => 0x60000000#32

/-- The rows in the table's order. -/
def opRows : List Op :=
  [.nop, .anlz, .blk, .clsf, .calw, .calt, .cclr, .cdone, .dstep, .dclr, .frst, .rdreg]

/-- The opcode field OP, bits 31:24 (R66). -/
def fieldOp (w : Word) : BitVec 8 := w.extractLsb' 24 8

/-- The field CH of format F and REG of format R, bits 23:16 (R66). -/
def fieldByte (w : Word) : BitVec 8 := w.extractLsb' 16 8

/-- The field COUNT of format B, bits 15:0 (R66). -/
def fieldCount (w : Word) : BitVec 16 := w.extractLsb' 0 16

/-- The row that an opcode selects, if it is assigned (R70, R72). -/
def opOf (w : Word) : Option Op := opRows.find? fun o => opCode o == fieldOp w

/-- The number of operand words that follow a command word: the opcode and COUNT alone fix it (R66, R68); none for
an unassigned opcode (R72); a reserved bit does not change it (R73). -/
def operandCount (w : Word) : Nat :=
  match opOf w with
  | none => 0
  | some o =>
    match opFormat o with
    | .z => 0
    | .b => ((fieldCount w).toNat + 1) / 2
    | .f => 1
    | .r => 0

/-- The samples of the operand words, the earlier one in bits 15:0 (20_memory.md R53). -/
def wordSamples (w : Word) : List Sample := [w.extractLsb' 0 16, w.extractLsb' 16 16]

/-- COUNT samples from the operand words; the padding halfword of an odd block is dropped (R53, R74). -/
def unpackSamples (count : Nat) (ops : List Word) : List Sample :=
  (ops.flatMap wordSamples).take count

/-- The frequency operand: none if FV = 0, whatever the operand word holds (R67, R74). -/
def freqOperand (w : Word) (ops : List Word) : Option Word :=
  if w.getLsbD 0 then some (ops.headD 0#32) else none

/-- The command of a row, from the fields of its command word and its operand words (R67). -/
def buildInstr (o : Op) (w : Word) (ops : List Word) : Instr :=
  match o with
  | .nop => .nop
  | .anlz => .anlz (unpackSamples (fieldCount w).toNat ops)
  | .blk => .blk (w.getLsbD 17) (w.getLsbD 16) (unpackSamples (fieldCount w).toNat ops)
  | .clsf => .clsf (w.getLsbD 1) (freqOperand w ops)
  | .calw => .calw (fieldByte w) (freqOperand w ops)
  | .calt => .calt (fieldByte w) (freqOperand w ops)
  | .cclr => .cclr
  | .cdone => .cdone
  | .dstep => .dstep (fieldByte w) (freqOperand w ops)
  | .dclr => .dclr
  | .frst => .frst
  | .rdreg => .rdreg (fieldByte w)

/-- One command from its command word and exactly its operand words: the opcode is looked up (R72), then the
reserved bits are checked (R73). -/
def decodeCommand (w : Word) (ops : List Word) : Except Reject Instr :=
  match opOf w with
  | none => .error .unassignedOpcode
  | some o => if w &&& opMask o = opMatch o then .ok (buildInstr o w ops) else .error .reservedBit

/-- The first command of a stream of words, and the words after it (R65, R68). -/
def decode : List Word → Except Reject (Instr × List Word)
  | [] => .error .incomplete
  | w :: ws =>
    if ws.length < operandCount w then .error .incomplete
    else
      match decodeCommand w (ws.take (operandCount w)) with
      | .ok i => .ok (i, ws.drop (operandCount w))
      | .error e => .error e

/-- One bit of a word (R10). -/
def bit (b : Bool) : BitVec 1 := BitVec.ofBool b

/-- Samples packed two to a word, the earlier in the low half; the padding of an odd block is 0 (R53; log 14). -/
def packSamples : List Sample → List Word
  | [] => []
  | [a] => [0#16 ++ a]
  | a :: b :: rest => (b ++ a) :: packSamples rest

/-- The operand word of a frequency operand; for none it is 0 (R75). -/
def freqWord (f : Option Word) : Word := f.getD 0#32

/-- The command word of format B (R66). -/
def wordB (op : BitVec 8) (no ovf : Bool) (count : Nat) : Word :=
  op ++ 0#6 ++ bit no ++ bit ovf ++ BitVec.ofNat 16 count

/-- The command word of format F (R66). -/
def wordF (op ch : BitVec 8) (no : Bool) (f : Option Word) : Word :=
  op ++ ch ++ 0#14 ++ bit no ++ bit f.isSome

/-- The words of a command (R70, R75). -/
def encode : Instr → List Word
  | .nop => [0x00000000#32]
  | .anlz block => wordB 0x10#8 false false block.length :: packSamples block
  | .blk no ovf block => wordB 0x11#8 no ovf block.length :: packSamples block
  | .clsf no f => [wordF 0x20#8 0#8 no f, freqWord f]
  | .calw ch f => [wordF 0x30#8 ch false f, freqWord f]
  | .calt ch f => [wordF 0x31#8 ch false f, freqWord f]
  | .cclr => [0x32000000#32]
  | .cdone => [0x33000000#32]
  | .dstep ch f => [wordF 0x40#8 ch false f, freqWord f]
  | .dclr => [0x41000000#32]
  | .frst => [0x50000000#32]
  | .rdreg idx => [0x60#8 ++ idx ++ 0#16]

/-- The words of an instruction given as the opcode table numbers its bits: bit 0 is bit 0 of the command word and
each operand word counts on by 32; the bits above `nbits` are 0, and the words are as many as the command word calls
for (log 9). -/
def tableWords (nbits w : Nat) : List Word :=
  let v := w % 2 ^ nbits
  let cmd : Word := BitVec.ofNat 32 v
  cmd :: (List.range (operandCount cmd)).map fun j => BitVec.ofNat 32 (v >>> (32 * (j + 1)))

/-- The instruction that the decoder reads from bits numbered as the opcode table numbers them. -/
def decodeTableWord (nbits w : Nat) : Option Instr :=
  match decode (tableWords nbits w) with
  | .ok (i, _) => some i
  | .error _ => none

end Sys2Proof
end

