-- ==== Sys2Proof/Config.lean ====
section
/-! DEFINITION. The parameters of a build (00_scope.md R5) and the one value the spec leaves free (40_analyzer.md R90). -/

namespace Sys2Proof

/-- The parameter record `Cfg` of R5. All parameters are fixed at build time; no command writes one. -/
structure Cfg where
  /-- `N_CH`, the number of channels. -/
  nCh : Nat
  /-- `FMIN_HZ`, the nominal centre of channel 1. -/
  fminHz : Nat
  /-- `FMAX_HZ`, the nominal centre of channel `N_CH`. -/
  fmaxHz : Nat
  /-- `FS_HZ`, the sample rate. -/
  fsHz : Nat
  /-- `N_S`, samples per block. -/
  nS : Nat
  /-- `NOISE_THR`, the noise floor in sample units. -/
  noiseThr : Nat
  /-- `TOL`, the classifier's tolerance, UQ24.8 Hz. -/
  tol : Nat
  /-- `SANITY_PERMILLE`, the training sanity tolerance. -/
  sanityPermille : Nat
  /-- `T_LONG`, the minimum run length of the long-tone channel. -/
  tLong : Nat
  /-- `T_SHORT`, the minimum run length of every other channel. -/
  tShort : Nat
  /-- `LONG_CH`, the long-tone channel. -/
  longCh : Nat
  /-- `EPS_PEAK`, the numeric slack of the peak search (R90; OPEN). -/
  epsPeak : Rat
deriving DecidableEq, Repr

/-- The constraint column of R5 (92_eei_decisions.md D33). A build outside it is not specified (93 U7). -/
def Cfg.wf (c : Cfg) : Bool :=
  decide
    ((4 ≤ c.nCh ∧ c.nCh ≤ 31) ∧
      (0 < c.fminHz ∧ c.fminHz < c.fmaxHz ∧ c.fmaxHz < 2 ^ 24) ∧
      (1 ≤ c.fsHz ∧ c.fsHz < 2 ^ 24) ∧
      (3 ≤ c.nS ∧ c.nS ≤ 65535) ∧
      (c.noiseThr ≤ 32768 ∧ c.tol < 2 ^ 32 ∧ c.sanityPermille ≤ 1000) ∧
      (1 ≤ c.tLong ∧ c.tLong ≤ 65535) ∧
      (1 ≤ c.tShort ∧ c.tShort ≤ 65535) ∧
      (1 ≤ c.longCh ∧ c.longCh ≤ c.nCh) ∧
      (0 ≤ c.epsPeak ∧ c.epsPeak < 1))

/-- The default build of R5. -/
def Config.default : Cfg where
  nCh := 19
  fminHz := 10000
  fmaxHz := 18000
  fsHz := 44100
  nS := 441
  noiseThr := 164
  tol := 25600
  sanityPermille := 75
  tLong := 70
  tShort := 2
  longCh := 1
  epsPeak := 0

/-- FREE VALUE (log 11): the bin an inexact transform returns for a block, when `EPS_PEAK > 0` (R90, 93 U1).
It has no body, so nothing can be proved of it; `peak` of Machine/Spectrum.lean keeps it inside R90's inequality. -/
opaque Config.peakChoice : Cfg → List Int → Nat

end Sys2Proof
end

