-- ==== Sys2Proof/Machine/Derived.lean ====
section
/-! DEFINITION. The constants derived from the parameters (00_scope.md R8). -/

namespace Sys2Proof.Machine

/-- `K_MAX`, the highest bin searched (00_scope.md R8, 40_analyzer.md R89). -/
def kMax (cfg : Cfg) : Nat := (cfg.nS - 1) / 2

/-- `BINFREQ(k)` in UQ24.8 Hz (40_analyzer.md R91). -/
def binFreq (cfg : Cfg) (k : Nat) : Nat := k * cfg.fsHz * 256 / cfg.nS

/-- `NOM[c]` in UQ24.8 Hz, for c in 1..N_CH (41_calibration.md R101). -/
def nom (cfg : Cfg) (c : Nat) : Nat :=
  (256 * cfg.fminHz * (cfg.nCh - 1) + 256 * (c - 1) * (cfg.fmaxHz - cfg.fminHz)) / (cfg.nCh - 1)

end Sys2Proof.Machine
end

