-- ==== Sys2Proof/Machine/State.lean ====
section
/-! DEFINITION. The state (10_state.md R20), the two ports (30_encoding.md R65), the reasons a step can stop, and
reset (10_state.md R36). -/

namespace Sys2Proof.Machine

/-- One entry of the Calibrated table: `CALV[c]` and `CAL[c]` (10_state.md R34). -/
structure CalEntry where
  valid : Bool
  value : Word
deriving DecidableEq, Repr

/-- The debouncer's registers: history (10_state.md R21) and ToneRun (R22). -/
structure Debouncer where
  /-- `HIST[0]`, the oldest classification. -/
  hist0 : Chan
  /-- `HIST[1]`. -/
  hist1 : Chan
  /-- `HIST[2]`. -/
  hist2 : Chan
  /-- `HIST_FILL`, the number of slots in use. -/
  histFill : BitVec 2
  /-- `RUN_CAND`. -/
  runCand : Chan
  /-- `RUN_LEN`. -/
  runLen : BitVec 16
  /-- `RUN_SUM`. -/
  runSum : BitVec 48
  /-- `RUN_CNT`. -/
  runCnt : BitVec 16
  /-- `RUN_REP`. -/
  runRep : Bool
deriving DecidableEq, Repr

/-- A response: always exactly three words (30_encoding.md R65, R69). -/
structure Response where
  r0 : Word
  r1 : Word
  r2 : Word
deriving DecidableEq, Repr

/-- What the host does at the hardware's inputs, in order: it sends a word on the command port (30_encoding.md R65)
or asserts RST (70_reset_and_hazards.md R190). -/
inductive PortEvent where
  | word (w : Word)
  | rst
deriving DecidableEq, Repr

/-- Reasons for a fault: none. "Nothing in the hardware faults": every command word has a response
(93_implementation_defined.md section 2, 60_exceptions.md R168). -/
inductive Fault
deriving DecidableEq, Repr

/-- Reasons for a refusal. -/
inductive Refusal where
  /-- An instruction without a meaning; raised by `exec` only, and by no arm of this model. Safe. -/
  | notModelled (mnemonic : String)
  /-- Raised by `step` for a build that breaks the constraints of 00_scope.md R5 (93 U7: "`refuse`: the
  configuration record's well-formedness check rejects it"). Safe. -/
  | buildNotWellFormed
deriving DecidableEq, Repr

/-- The machine: the architectural state of R20, the build's parameters, and the two ports. -/
structure State where
  /-- The build's parameters (00_scope.md R5): the model's own field, constant (log 1). -/
  cfg : Cfg
  /-- The Calibrated table, entry `c` at index `c - 1`; it has `N_CH` entries (10_state.md R34). -/
  cal : List CalEntry
  /-- `CAL_DONE` (10_state.md R25). -/
  calDone : Bool
  /-- The debouncer (10_state.md R21, R22). -/
  deb : Debouncer
  /-- `LASTERR` (10_state.md R29). -/
  lastErr : BitVec 8
  /-- `ERRCNT` (10_state.md R29). -/
  errCnt : BitVec 16
  /-- `OVFCNT` (10_state.md R29). -/
  ovfCnt : BitVec 16
  /-- What the host does next at the inputs, earliest first (log 2). -/
  input : List PortEvent
  /-- The response of the last command; none before the first one (log 4). -/
  resp : Option Response
deriving DecidableEq, Repr

/-- The empty Calibrated entry. -/
def CalEntry.empty : CalEntry := ⟨false, 0#32⟩

/-- The empty debouncer (10_state.md R23). -/
def Debouncer.empty : Debouncer := ⟨0#8, 0#8, 0#8, 0#2, 0#8, 0#16, 0#48, 0#16, false⟩

/-- The state after reset of a build (10_state.md R36, 70_reset_and_hazards.md R190); `input` is what the host does
after it. -/
def State.resetOf (cfg : Cfg) (input : List PortEvent) : State where
  cfg := cfg
  cal := List.replicate cfg.nCh CalEntry.empty
  calDone := false
  deb := Debouncer.empty
  lastErr := 0#8
  errCnt := 0#16
  ovfCnt := 0#16
  input := input
  resp := none

/-- The default build right after reset, with nothing sent yet (10_state.md R36, 00_scope.md R5). -/
def State.reset : State := State.resetOf Config.default []

end Sys2Proof.Machine
end

