-- ==== Sys2Proof/Machine/Flags.lean ====
section
/-! DEFINITION. The flags and the functions of them (10_state.md R25, 00_scope.md R15), and the words that RDREG
shows them in (10_state.md R28, R30). -/

namespace Sys2Proof.Machine

/-- Entry `c` of the Calibrated table; there is no entry 0. -/
def calEntry (s : State) : Nat → CalEntry
  | 0 => CalEntry.empty
  | i + 1 => s.cal.getD i CalEntry.empty

/-- `CALCOUNT`, the number of c in 1..N_CH with `CALV[c] = 1` (00_scope.md R15). -/
def calCount (s : State) : Nat := (List.range s.cfg.nCh).countP fun i => (calEntry s (i + 1)).valid

/-- `CALFULL` (00_scope.md R15). -/
def calFull (s : State) : Bool := calCount s == s.cfg.nCh

/-- The register `STATUS` (10_state.md R28). -/
def statusWord (s : State) : Word :=
  0#11 ++ bit s.deb.runRep ++ 0#2 ++ s.deb.histFill ++ 0#3 ++ BitVec.ofNat 5 (calCount s) ++ 0#6 ++
    bit (calFull s) ++ bit s.calDone

/-- The register `CALVMAP`: bit c is `CALV[c]` for c in 1..N_CH, every other bit 0 (10_state.md R30). -/
def calvMap (s : State) : Word :=
  BitVec.ofFnLE fun c : Fin 32 => decide (c.val ≤ s.cfg.nCh) && (calEntry s c.val).valid

/-- A 16-bit counter one higher, saturating at 65535 (10_state.md R22, R29). -/
def satSucc (n : BitVec 16) : BitVec 16 := BitVec.ofNat 16 (min (n.toNat + 1) 65535)

end Sys2Proof.Machine
end

