-- ==== Sys2Proof/Machine/Operands.lean ====
section
/-! DEFINITION. The operand forms: channels (60_exceptions.md R170), samples (00_scope.md R11), and the words a
command takes from the command port (30_encoding.md R65, 70_reset_and_hazards.md R197). -/

namespace Sys2Proof.Machine

/-- CH is in 1..N_CH: the channel operand of CALW and CALT (60_exceptions.md R170). -/
def isChannel (cfg : Cfg) (ch : Chan) : Bool := decide (1 ≤ ch.toNat) && decide (ch.toNat ≤ cfg.nCh)

/-- CH is in 0..N_CH: the Chan? operand of DSTEP (60_exceptions.md R170). -/
def isChanOpt (cfg : Cfg) (ch : Chan) : Bool := decide (ch.toNat ≤ cfg.nCh)

/-- The sample integers of a block (00_scope.md R11). -/
def sampleInts (block : List Sample) : List Int := block.map BitVec.toInt

/-- What the command port gives when `n` operand words are awaited. -/
inductive Taken where
  /-- The words, and what comes after them. -/
  | got (ops : List Word) (rest : List PortEvent)
  /-- Too few words have been sent. -/
  | short
  /-- RST came first; what comes after it. -/
  | reset (rest : List PortEvent)
deriving DecidableEq, Repr

/-- Await `n` operand words. The hardware takes the next words as operands, whatever the host meant them to be
(70_reset_and_hazards.md R197), unless RST is asserted before they are complete (R190). -/
def takeWords : Nat → List PortEvent → Taken
  | 0, inp => .got [] inp
  | _ + 1, [] => .short
  | _ + 1, .rst :: rest => .reset rest
  | n + 1, .word w :: t =>
    match takeWords n t with
    | .got ops rest => .got (w :: ops) rest
    | .short => .short
    | .reset rest => .reset rest

/-- What the hardware finds at its inputs. -/
inductive Fetched where
  /-- No complete command yet: it waits. -/
  | wait
  /-- RST; the words before it are lost. -/
  | reset (rest : List PortEvent)
  /-- A complete illegal command (30_encoding.md R72, R73). -/
  | illegal (rest : List PortEvent)
  /-- A complete command. -/
  | command (i : Instr) (rest : List PortEvent)
deriving DecidableEq, Repr

/-- Take the next command: the first word is a command word, and its format fixes how many operand words follow
(30_encoding.md R65, R66, R68). -/
def fetch : List PortEvent → Fetched
  | [] => .wait
  | .rst :: rest => .reset rest
  | .word w :: t =>
    match takeWords (operandCount w) t with
    | .short => .wait
    | .reset rest => .reset rest
    | .got ops rest =>
      match decodeCommand w ops with
      | .ok i => .command i rest
      | .error _ => .illegal rest

end Sys2Proof.Machine
end

