-- ==== Sys2Proof/Machine/Ops.lean ====
section
/-! DEFINITION. The operations that the meanings share: responses (30_encoding.md R69), raising an error
(60_exceptions.md R166), the tables (41_calibration.md R102), clearing, and the register space (20_memory.md R51). -/

namespace Sys2Proof.Machine

/-- The fields of an OK response; a field that a command does not name is 0 (00_scope.md R14, 30_encoding.md R69). -/
structure Fields where
  cls : Chan := 0#8
  evch : Chan := 0#8
  fsan : Bool := false
  fcls : Bool := false
  acc : Bool := false
  fv : Bool := false
  ev : Bool := false
  r1 : Word := 0#32
  r2 : Word := 0#32
deriving DecidableEq, Repr

/-- The three words of an OK response (30_encoding.md R69). -/
def okResponse (f : Fields) : Response where
  r0 := 0#8 ++ f.cls ++ f.evch ++ 0#3 ++ bit f.fsan ++ bit f.fcls ++ bit f.acc ++ bit f.fv ++ bit f.ev
  r1 := f.r1
  r2 := f.r2

/-- `respond(fields)` (00_scope.md R14). -/
def respond (f : Fields) (s : State) : State := { s with resp := some (okResponse f) }

/-- The errors (60_exceptions.md R165). -/
inductive Err where
  | illegalOp
  | badLength
  | badChannel
  | badFreq
  | badReg
deriving DecidableEq, Repr

/-- Their codes (60_exceptions.md R165). -/
def errCode : Err → BitVec 8
  | .illegalOp => 1#8
  | .badLength => 2#8
  | .badChannel => 3#8
  | .badFreq => 4#8
  | .badReg => 5#8

/-- `R0 = E · 2^24`, `R1 = R2 = 0` (60_exceptions.md R166). -/
def errResponse (e : Err) : Response := ⟨errCode e ++ 0#24, 0#32, 0#32⟩

/-- `raise E`: the hardware's one exception. It records the code, counts the error and sends the error response;
nothing else changes (60_exceptions.md R166, R167). There is no return from it: the next command is next (R173). -/
def raiseErr (e : Err) (s : State) : State :=
  { s with lastErr := errCode e, errCnt := satSucc s.errCnt, resp := some (errResponse e) }

/-- `CAL[c] <- f ; CALV[c] <- 1`, for c in 1..N_CH (41_calibration.md R103). -/
def writeCal (ch : Chan) (f : Word) (s : State) : State :=
  { s with cal := s.cal.set (ch.toNat - 1) ⟨true, f⟩ }

/-- Clear the Calibrated table and the completion flag (41_calibration.md R108). -/
def clearCal (s : State) : State :=
  { s with cal := List.replicate s.cfg.nCh CalEntry.empty, calDone := false }

/-- Empty the debouncer (43_debouncer.md R141). -/
def clearDeb (s : State) : State := { s with deb := Debouncer.empty }

/-- `LOOKUP(no)[c]`: the Nominal table if `no` or the Calibrated one is incomplete, else the Calibrated one
(41_calibration.md R102). -/
def lookup (s : State) (no : Bool) (c : Nat) : Nat :=
  if no || !calFull s then nom s.cfg c else (calEntry s c).value.toNat

/-- `RegRead(idx)`; none for an unassigned index (20_memory.md R51, 10_state.md R26 to R32). -/
def regRead (s : State) (idx : BitVec 8) : Option Word :=
  match idx.toNat with
  | 0x00 => some 0x42504607#32
  | 0x01 => some (BitVec.ofNat 32 s.cfg.nCh)
  | 0x02 => some (BitVec.ofNat 32 s.cfg.fsHz)
  | 0x03 => some (BitVec.ofNat 32 s.cfg.nS)
  | 0x04 => some (BitVec.ofNat 32 s.cfg.noiseThr)
  | 0x05 => some (BitVec.ofNat 32 s.cfg.tol)
  | 0x06 => some (BitVec.ofNat 32 s.cfg.sanityPermille)
  | 0x07 => some (BitVec.ofNat 32 s.cfg.tLong)
  | 0x08 => some (BitVec.ofNat 32 s.cfg.tShort)
  | 0x09 => some (BitVec.ofNat 32 s.cfg.longCh)
  | 0x0A => some (BitVec.ofNat 32 s.cfg.fminHz)
  | 0x0B => some (BitVec.ofNat 32 s.cfg.fmaxHz)
  | 0x0C => some (BitVec.ofNat 32 (kMax s.cfg))
  | 0x10 => some (statusWord s)
  | 0x11 => some (s.lastErr.setWidth 32)
  | 0x12 => some (s.errCnt.setWidth 32)
  | 0x13 => some (s.ovfCnt.setWidth 32)
  | 0x14 => some (0#8 ++ s.deb.hist2 ++ s.deb.hist1 ++ s.deb.hist0)
  | 0x15 => some (s.deb.runCand.setWidth 32)
  | 0x16 => some (s.deb.runLen.setWidth 32)
  | 0x17 => some (s.deb.runCnt.setWidth 32)
  | 0x18 => some (s.deb.runSum.extractLsb' 0 32)
  | 0x19 => some ((s.deb.runSum.extractLsb' 32 16).setWidth 32)
  | 0x1A => some (calvMap s)
  | n =>
    if 0x41 ≤ n && n ≤ 0x40 + s.cfg.nCh then some (BitVec.ofNat 32 (nom s.cfg (n - 0x40)))
    else if 0x81 ≤ n && n ≤ 0x80 + s.cfg.nCh then some (calEntry s (n - 0x80)).value
    else none

/-- RST asserted: every piece of state takes its reset value, the ports are empty, and the words sent before it are
lost (70_reset_and_hazards.md R190). `rest` is what the host does afterwards. -/
def hardReset (s : State) (rest : List PortEvent) : State := State.resetOf s.cfg rest

end Sys2Proof.Machine
end

