-- ==== Sys2Proof/Machine/Spectrum.lean ====
section
/-! DEFINITION. The peak search (40_analyzer.md R88 to R90) in exact arithmetic.

R88 gives the spectrum over the real numbers, and the peak is the lowest bin of greatest magnitude. Magnitudes are
compared here by enclosures of `4·M[k]²` between integers, computed from rational values of the roots of unity. Where
the enclosures of two bins overlap, the two are compared as sums of roots of unity with integer coefficients: equal
coefficients are a tie, and otherwise the enclosures are taken at a precision at which two different values of that
form cannot overlap (log 10). Machine/IdealSpectrum.lean states R88 itself over the real numbers. -/

namespace Sys2Proof.Machine

/-- The first `n` terms of the series of `arctan (1/x)`. -/
def arctanInvSum (x : Nat) : Nat → Rat
  | 0 => 0
  | n + 1 => arctanInvSum x n + mkRat ((-1) ^ n) ((2 * n + 1) * x ^ (2 * n + 1))

/-- `π` to `q` binary places, by Machin's formula `π = 16·arctan (1/5) − 4·arctan (1/239)`. -/
def piApprox (q : Nat) : Rat :=
  mkRat (((16 * arctanInvSum 5 (q + 2) - 4 * arctanInvSum 239 (q + 2)) * ((2 ^ q : Nat) : Rat)).floor) (2 ^ q)

/-- The series of `exp (iθ)` as real and imaginary part, in Horner's form from the `j`-th factor on, `n` factors. -/
def cisHorner (θ : Rat) : Nat → Nat → Rat × Rat
  | 0, _ => (1, 0)
  | n + 1, j =>
    let z := cisHorner θ n (j + 1)
    (1 - θ * z.2 / j, θ * z.1 / j)

/-- `2^p·cos (2πm/M)` and `2^p·sin (2πm/M)` as integers, each within 3; `pi` is `π` to `p + 4` places. -/
def unitRoot (p : Nat) (pi : Rat) (M m : Nat) : Int × Int :=
  let z := cisHorner (2 * pi * m / M) (26 + p / 2) 1
  ((z.1 * ((2 ^ p : Nat) : Rat)).floor, (z.2 * ((2 ^ p : Nat) : Rat)).floor)

/-- The first `n` of the `M`-th roots of unity, at precision `p`. -/
def rootTable (p M n : Nat) : List (Int × Int) :=
  let pi := piApprox (p + 4)
  (List.range n).map (unitRoot p pi M)

/-- The windowed block at precision `p`: twice R88's `w[n]·x[n]`, that is `x[n]·(1 − cos (2πn/(N_S−1)))`. -/
def windowed (p N : Nat) (x : List Int) : List Int :=
  List.zipWith (fun a (r : Int × Int) => a * (2 ^ p - r.1)) x (rootTable p (N - 1) N)

/-- `Σ y[n]·cos (2πkn/N)` and `Σ y[n]·sin (2πkn/N)` from the `n`-th term on, at the precision of the roots (R88). -/
def dftSum (roots : List (Int × Int)) (N k : Nat) : Nat → List Int → Int × Int
  | _, [] => (0, 0)
  | n, y :: ys =>
    let z := dftSum roots N k (n + 1) ys
    let r := roots.getD (k * n % N) (0, 0)
    (y * r.1 + z.1, y * r.2 + z.2)

/-- `Σ |x[n]|`. -/
def absSum (x : List Int) : Nat := (x.map Int.natAbs).sum

/-- A bin `k` with an enclosure `lo ≤ 2^(4p)·4·M[k]² ≤ hi`. -/
structure Bin where
  k : Nat
  lo : Int
  hi : Int
deriving DecidableEq, Repr

/-- How far `dftSum` of a block of absolute sum `S` can be from its real value, in its own unit. -/
def sumError (p S : Nat) : Int := 9 * S * (2 ^ p + 1)

/-- The enclosure of a bin from the two sums. -/
def encloseBin (p S k : Nat) (z : Int × Int) : Bin :=
  let e := sumError p S
  let v := z.1 * z.1 + z.2 * z.2
  let d := e * (2 * z.1.natAbs + e) + e * (2 * z.2.natAbs + e)
  ⟨k, v - d, v + d⟩

/-- Bin `k` of a block, at precision `p`. -/
def binAt (p N : Nat) (x : List Int) (k : Nat) : Bin :=
  encloseBin p (absSum x) k (dftSum (rootTable p N N) N k 0 (windowed p N x))

/-- The bins 1..`K` of a block, at precision `p`. -/
def binsTo (p N : Nat) (x : List Int) (K : Nat) : List Bin :=
  let roots := rootTable p N N
  let y := windowed p N x
  let S := absSum x
  (List.range K).map fun i => encloseBin p S (i + 1) (dftSum roots N (i + 1) 0 y)

/-- A sum of `D`-th roots of unity with integer coefficients: pairs of an exponent and a coefficient. -/
abbrev RootSum := List (Nat × Int)

/-- `4·X[k]` of R88 as a sum of `D`-th roots of unity, `D = N·(N−1)`: a sample x[n] gives
`x[n]·(2 − ω^n − ω^(−n))·ζ^(kn)` with `ω` the `(N−1)`-th and `ζ` the `N`-th root. -/
def spectrumTerms (N k : Nat) : Nat → List Int → RootSum
  | _, [] => []
  | n, a :: as =>
    let rest := spectrumTerms N k (n + 1) as
    let D := N * (N - 1)
    if a = 0 then rest
    else
      ((k * (N - 1)) * n % D, 2 * a) :: ((k * (N - 1) + N) * n % D, -a) ::
        ((k * (N - 1) + (D - N)) * n % D, -a) :: rest

/-- Add one term to a sum sorted by exponent without zero coefficients. -/
def addTerm (e : Nat) (c : Int) : RootSum → RootSum
  | [] => if c = 0 then [] else [(e, c)]
  | (e', c') :: t =>
    if e < e' then (if c = 0 then (e', c') :: t else (e, c) :: (e', c') :: t)
    else if e = e' then (if c + c' = 0 then t else (e, c + c') :: t)
    else (e', c') :: addTerm e c t

/-- The terms of one sum times the conjugate of another. -/
def conjProduct (D : Nat) (a b : RootSum) : List (Nat × Int) :=
  a.flatMap fun s => b.map fun t => ((s.1 + (D - t.1)) % D, s.2 * t.2)

/-- Collect the terms of equal exponent, each coefficient times `α`. -/
def collect (α : Int) (l : List (Nat × Int)) : RootSum := l.foldr (fun s acc => addTerm s.1 (α * s.2) acc) []

/-- `α·16·M[k]²` as a sum of roots of unity. -/
def powerTerms (N : Nat) (x : List Int) (α k : Nat) : RootSum :=
  collect α (conjProduct (N * (N - 1)) (spectrumTerms N k 0 x) (spectrumTerms N k 0 x))

/-- `α·M[a]² ≤ β·M[b]²` as far as the enclosures tell. -/
def decideLe (α : Nat) (a : Bin) (β : Nat) (b : Bin) : Option Bool :=
  if α * a.hi ≤ β * b.lo then some true
  else if β * b.hi < α * a.lo then some false
  else none

/-- A precision at which the enclosures of two different values `α·M[a]²` and `β·M[b]²` do not overlap. -/
def fullPrecision (N : Nat) (x : List Int) (α β : Nat) : Nat :=
  let H := 16 * (α + β) * absSum x ^ 2
  Nat.log2 (2000 * H ^ (N * (N - 1) + 1)) + 1

/-- `α·M[a]² ≤ β·M[b]²` (R90). -/
def powerLe (N : Nat) (x : List Int) (α : Nat) (a : Bin) (β : Nat) (b : Bin) : Bool :=
  match decideLe α a β b with
  | some r => r
  | none =>
    if powerTerms N x α a.k = powerTerms N x β b.k then true
    else
      let p := fullPrecision N x α β
      (decideLe α (binAt p N x a.k) β (binAt p N x b.k)).getD true

/-- The working precision of the first comparison. -/
def workPrecision : Nat := 64

/-- The bin `PEAK_ideal(x)`: of greatest magnitude, the lowest among equals (R90). -/
def idealBin (N : Nat) (x : List Int) (K : Nat) : Bin :=
  match binsTo workPrecision N x K with
  | [] => ⟨1, 0, 0⟩
  | b :: bs => bs.foldl (fun best c => if powerLe N x 1 c 1 best then best else c) b

/-- `M[k] ≥ (1 − ε)·max M[j]`, R90's constraint on the peak function. -/
def withinSlack (N : Nat) (x : List Int) (K : Nat) (ε : Rat) (k : Nat) : Bool :=
  powerLe N x ((ε.den - ε.num.natAbs) ^ 2) (idealBin N x K) (ε.den ^ 2) (binAt workPrecision N x k)

/-- A peak function of R90 that prefers the bin `k`: `k` itself where `EPS_PEAK > 0` and `k` meets R90's constraint,
and else `PEAK_ideal`. -/
def peakFrom (cfg : Cfg) (x : List Int) (k : Nat) : Nat :=
  let K := kMax cfg
  if cfg.epsPeak ≠ 0 ∧ 1 ≤ k ∧ k ≤ K ∧ withinSlack cfg.nS x K cfg.epsPeak k then k else (idealBin cfg.nS x K).k

/-- `PEAK(x)`, the peak function of R90. With `EPS_PEAK = 0` it is `PEAK_ideal`. With `EPS_PEAK > 0` it is the free
value of Config wherever that meets R90's constraint, so that it is every function that meets it (log 11). -/
def peak (cfg : Cfg) (x : List Int) : Nat := peakFrom cfg x (Config.peakChoice cfg x)

end Sys2Proof.Machine
end

