-- ==== Sys2Proof/Machine/Analyzer.lean ====
section
/-! DEFINITION. The Spectral Analyzer (40_analyzer.md): ANALYZE and ANLZ. -/

namespace Sys2Proof.Machine

/-- The largest absolute value of the samples (40_analyzer.md R87). -/
def peakAmplitude (x : List Int) : Nat := (x.map Int.natAbs).foldr max 0

/-- `ANALYZE(x)` (40_analyzer.md R86): the noise gate, then the frequency of the peak bin. -/
def analyze (cfg : Cfg) (block : List Sample) : Option Word :=
  let x := sampleInts block
  if peakAmplitude x < cfg.noiseThr then none
  else some (BitVec.ofNat 32 (binFreq cfg (peak cfg x)))

/-- The response fields of the analyzer's result (40_analyzer.md R92). -/
def freqFields (f : Option Word) : Fields :=
  match f with
  | none => {}
  | some w => { fv := true, r1 := w }

/-- ANLZ (40_analyzer.md R92). -/
def execAnlz (block : List Sample) (s : State) : Host.Outcome State Fault Refusal :=
  if block.length ≠ s.cfg.nS then .next (raiseErr .badLength s)
  else .next (respond (freqFields (analyze s.cfg block)) s)

end Sys2Proof.Machine
end

