-- ==== Sys2Proof/Machine/Classifier.lean ====
section
/-! DEFINITION. The Channel Classifier (42_classifier.md): CLASSIFY and CLSF. -/

namespace Sys2Proof.Machine

/-- `|a - b|` without wrap (42_classifier.md R121). -/
def absDiff (a b : Nat) : Nat := (a - b) + (b - a)

/-- The scan of R121 over the entries 1..n+1 of a table, ascending: the best channel so far and its distance. A later
entry replaces the best only on a strictly smaller distance (R123). -/
def scanTable (T : Nat → Nat) (f : Nat) : Nat → Nat × Nat
  | 0 => (1, absDiff f (T 1))
  | n + 1 =>
    let b := scanTable T f n
    let d := absDiff f (T (n + 2))
    if d < b.2 then (n + 2, d) else b

/-- `CLASSIFY(f, no)` (42_classifier.md R121). -/
def classify (s : State) (f : Option Word) (no : Bool) : Chan :=
  match f with
  | none => 0#8
  | some w =>
    let b := scanTable (lookup s no) w.toNat (s.cfg.nCh - 1)
    if b.2 < s.cfg.tol then BitVec.ofNat 8 b.1 else 0#8

/-- CLSF (42_classifier.md R122). -/
def execClsf (no : Bool) (f : Option Word) (s : State) : Host.Outcome State Fault Refusal :=
  .next (respond { cls := classify s f no } s)

end Sys2Proof.Machine
end

