-- ==== Sys2Proof/Machine/Calibration.lean ====
section
/-! DEFINITION. The Calibration Manager (41_calibration.md): CALW, CALT, CCLR and CDONE. -/

namespace Sys2Proof.Machine

/-- CALW (41_calibration.md R103). -/
def execCalw (ch : Chan) (f : Option Word) (s : State) : Host.Outcome State Fault Refusal :=
  if !isChannel s.cfg ch then .next (raiseErr .badChannel s)
  else
    match f with
    | none => .next (raiseErr .badFreq s)
    | some w => .next (respond { acc := true } (writeCal ch w s))

/-- The sanity check `1000·|FREQ − NOM[c]| ≤ SANITY_PERMILLE·NOM[c]` (41_calibration.md R105). -/
def saneTraining (cfg : Cfg) (ch : Chan) (w : Word) : Bool :=
  decide (1000 * absDiff w.toNat (nom cfg ch.toNat) ≤ cfg.sanityPermille * nom cfg ch.toNat)

/-- CALT (41_calibration.md R104). -/
def execCalt (ch : Chan) (f : Option Word) (s : State) : Host.Outcome State Fault Refusal :=
  if !isChannel s.cfg ch then .next (raiseErr .badChannel s)
  else
    match f with
    | none => .next (raiseErr .badFreq s)
    | some w =>
      let k := classify s (some w) true
      let okA := k == ch
      let okB := saneTraining s.cfg ch w
      if okA && okB then .next (respond { acc := true, cls := k } (writeCal ch w s))
      else .next (respond { cls := k, fcls := !okA, fsan := !okB } s)

/-- CCLR (41_calibration.md R108). -/
def execCclr (s : State) : Host.Outcome State Fault Refusal := .next (respond {} (clearCal s))

/-- CDONE (41_calibration.md R107). -/
def execCdone (s : State) : Host.Outcome State Fault Refusal :=
  if calFull s then .next (respond { acc := true } { s with calDone := true })
  else .next (respond {} s)

end Sys2Proof.Machine
end

