-- ==== Sys2Proof/Machine/Debouncer.lean ====
section
/-! DEFINITION. The Tone Debouncer (43_debouncer.md): DEBOUNCE, DSTEP and DCLR. -/

namespace Sys2Proof.Machine

/-- A ConfirmedTone: channel and representative frequency (43_debouncer.md R136). -/
abbrev Tone := Chan × Word

/-- Step 1: append to the history, dropping the oldest once full (43_debouncer.md R132). -/
def pushHist (c : Chan) (d : Debouncer) : Debouncer :=
  match d.histFill.toNat with
  | 0 => { d with hist0 := c, histFill := 1#2 }
  | 1 => { d with hist1 := c, histFill := 2#2 }
  | 2 => { d with hist2 := c, histFill := 3#2 }
  | _ => { d with hist0 := d.hist1, hist1 := d.hist2, hist2 := c }

/-- Step 2: `STABLE()`, the 2-of-3 vote; 0 for none (43_debouncer.md R133). -/
def stable (d : Debouncer) : Chan :=
  if d.hist0 ≠ 0#8 ∧ (d.hist0 = d.hist1 ∨ d.hist0 = d.hist2) then d.hist0
  else if d.hist1 ≠ 0#8 ∧ d.hist1 = d.hist2 then d.hist1
  else 0#8

/-- Step 3: extend the run; a sample beyond the 65535th is dropped (43_debouncer.md R134). -/
def extendRun (f : Option Word) (d : Debouncer) : Debouncer :=
  let d1 := { d with runLen := satSucc d.runLen }
  match f with
  | none => d1
  | some w =>
    if d.runCnt.toNat < 65535 then
      { d1 with runSum := BitVec.ofNat 48 (d.runSum.toNat + w.toNat), runCnt := BitVec.ofNat 16 (d.runCnt.toNat + 1) }
    else d1

/-- Step 4: start a new run (43_debouncer.md R135). -/
def startRun (v : Chan) (f : Option Word) (d : Debouncer) : Debouncer :=
  let d1 := { d with runCand := v, runLen := if v ≠ 0#8 then 1#16 else 0#16, runRep := false }
  match f with
  | some w => if v ≠ 0#8 then { d1 with runSum := w.setWidth 48, runCnt := 1#16 } else { d1 with runSum := 0#48, runCnt := 0#16 }
  | none => { d1 with runSum := 0#48, runCnt := 0#16 }

/-- The minimum run length of a channel (43_debouncer.md R137). -/
def threshold (cfg : Cfg) (c : Chan) : Nat := if c.toNat = cfg.longCh then cfg.tLong else cfg.tShort

/-- The representative frequency: the mean of the run's samples, or the centre of the table in use if there are none
(43_debouncer.md R136, R138; log 8 for a run register no run reaches). -/
def toneFreq (s : State) : Word :=
  if 0 < s.deb.runCnt.toNat then BitVec.ofNat 32 (s.deb.runSum.toNat / s.deb.runCnt.toNat)
  else BitVec.ofNat 32 (lookup s false s.deb.runCand.toNat)

/-- Step 5: `EMIT()` (43_debouncer.md R136). -/
def emit (s : State) : State × Option Tone :=
  if s.deb.runCand = 0#8 ∨ s.deb.runRep = true then (s, none)
  else if s.deb.runLen.toNat < threshold s.cfg s.deb.runCand then (s, none)
  else ({ s with deb := { s.deb with runRep := true } }, some (s.deb.runCand, toneFreq s))

/-- Steps 2 to 4 on a full history (43_debouncer.md R131). -/
def voteRun (f : Option Word) (d : Debouncer) : Debouncer :=
  if stable d = d.runCand then extendRun f d else startRun (stable d) f d

/-- `DEBOUNCE(c, f)` (43_debouncer.md R131). -/
def debounce (c : Chan) (f : Option Word) (s : State) : State × Option Tone :=
  let d := pushHist c s.deb
  if d.histFill.toNat < 3 then ({ s with deb := d }, none)
  else emit { s with deb := voteRun f d }

/-- The response fields of an event (43_debouncer.md R131). -/
def toneFields (t : Option Tone) (base : Fields) : Fields :=
  match t with
  | none => base
  | some (c, f) => { base with ev := true, evch := c, r2 := f }

/-- DSTEP (43_debouncer.md R131). -/
def execDstep (ch : Chan) (f : Option Word) (s : State) : Host.Outcome State Fault Refusal :=
  if !isChanOpt s.cfg ch then .next (raiseErr .badChannel s)
  else .next (respond (toneFields (debounce ch f s).2 {}) (debounce ch f s).1)

/-- DCLR (43_debouncer.md R141). -/
def execDclr (s : State) : Host.Outcome State Fault Refusal := .next (respond {} (clearDeb s))

end Sys2Proof.Machine
end

