-- ==== Sys2Proof/Machine/System.lean ====
section
/-! DEFINITION. The per-block pipeline and the system commands (44_pipeline_system.md): BLK, FRST, NOP, RDREG, and
the pseudo-commands (30_encoding.md R76). -/

namespace Sys2Proof.Machine

/-- Count a set OVF flag; the block is processed all the same (44_pipeline_system.md R153). -/
def countOverflow (ovf : Bool) (s : State) : State :=
  if ovf then { s with ovfCnt := satSucc s.ovfCnt } else s

/-- BLK (44_pipeline_system.md R151). -/
def execBlk (no ovf : Bool) (block : List Sample) (s : State) : Host.Outcome State Fault Refusal :=
  if block.length ≠ s.cfg.nS then .next (raiseErr .badLength s)
  else
    let s1 := countOverflow ovf s
    let f := analyze s1.cfg block
    let c := classify s1 f no
    let r := debounce c f s1
    .next (respond (toneFields r.2 { freqFields f with cls := c }) r.1)

/-- FRST (44_pipeline_system.md R154). -/
def execFrst (s : State) : Host.Outcome State Fault Refusal := .next (respond {} (clearDeb (clearCal s)))

/-- NOP (44_pipeline_system.md R155). -/
def execNop (s : State) : Host.Outcome State Fault Refusal := .next (respond {} s)

/-- RDREG (44_pipeline_system.md R157). -/
def execRdreg (idx : BitVec 8) (s : State) : Host.Outcome State Fault Refusal :=
  match regRead s idx with
  | none => .next (raiseErr .badReg s)
  | some v => .next (respond { r1 := v } s)

/-- SRST, the source's soft reset (30_encoding.md R76). -/
def pseudoSrst : List Instr := [.dclr]

/-- ANCHOR f, the host's action on a confirmed channel 1 in IDLE (30_encoding.md R76). -/
def pseudoAnchor (cfg : Cfg) (f : Word) : List Instr := [.cclr, .calw (BitVec.ofNat 8 cfg.longCh) (some f)]

/-- CALFIN, the end of training (30_encoding.md R76). -/
def pseudoCalfin : List Instr := [.cdone, .dclr]

end Sys2Proof.Machine
end

