-- ==== Sys2Proof/Machine/Dispatch.lean ====
section
/-! DEFINITION. One arm per command. -/

namespace Sys2Proof.Machine

def exec (i : Instr) (s : State) : Host.Outcome State Fault Refusal :=
  match i with
  | .nop => Sys2Proof.Machine.execNop s
  | .anlz block => Sys2Proof.Machine.execAnlz block s
  | .blk no ovf block => Sys2Proof.Machine.execBlk no ovf block s
  | .clsf no f => Sys2Proof.Machine.execClsf no f s
  | .calw ch f => Sys2Proof.Machine.execCalw ch f s
  | .calt ch f => Sys2Proof.Machine.execCalt ch f s
  | .cclr => Sys2Proof.Machine.execCclr s
  | .cdone => Sys2Proof.Machine.execCdone s
  | .dstep ch f => Sys2Proof.Machine.execDstep ch f s
  | .dclr => Sys2Proof.Machine.execDclr s
  | .frst => Sys2Proof.Machine.execFrst s
  | .rdreg idx => Sys2Proof.Machine.execRdreg idx s

end Sys2Proof.Machine
end

