-- ==== Sys2Proof/Machine/Step.lean ====
section
/-! DEFINITION. One step: one whole command, or RST, or waiting (30_encoding.md R65; 70_reset_and_hazards.md R190,
R197, R199). -/

namespace Sys2Proof.Machine

/-- One step. A complete command is performed and answered (R65); a complete illegal one is answered ILLEGAL_OP
(30_encoding.md R72, R73); RST resets (R190); with no complete command the hardware waits and nothing changes
(10_state.md R24, R197, 93 U5; log 5). A build outside the constraints of 00_scope.md R5 is refused (93 U7). -/
def step (s : State) : Host.Outcome State Fault Refusal :=
  if s.cfg.wf then
    match fetch s.input with
    | .wait => .next s
    | .reset rest => .next (hardReset s rest)
    | .illegal rest => .next (raiseErr .illegalOp { s with input := rest })
    | .command i rest => exec i { s with input := rest }
  else .refused .buildNotWellFormed

/-- `s` with the host sending, before anything else, the instruction given in the opcode table's bit numbering, so
that the very next step takes and runs exactly it (log 3). -/
def State.withFetchWord (s : State) (nbits w : Nat) : State :=
  { s with input := (tableWords nbits w).map PortEvent.word ++ s.input }

end Sys2Proof.Machine
end

