-- ==== Sys2Proof/Machine/IdealSpectrum.lean ====
section
/-! DEFINITION. R88 to R90 of 40_analyzer.md over the real numbers: what Machine/Spectrum.lean computes. No meaning
calls these definitions; statements do. -/

namespace Sys2Proof.Machine

/-- `w[n]`, the symmetric Hann window (40_analyzer.md R88). -/
noncomputable def hannWeight (N n : ℕ) : ℝ := (1 - Real.cos (2 * Real.pi * n / ((N : ℝ) - 1))) / 2

/-- `X[k]`, the discrete Fourier transform of the windowed block (40_analyzer.md R88). -/
noncomputable def spectrum (N : ℕ) (x : List Int) (k : ℕ) : ℂ :=
  ∑ n ∈ Finset.range N,
    (hannWeight N n : ℂ) * (x.getD n 0 : ℂ) * Complex.exp (-2 * Real.pi * Complex.I * k * n / N)

/-- `M[k]` (40_analyzer.md R88). -/
noncomputable def magnitude (N : ℕ) (x : List Int) (k : ℕ) : ℝ := ‖spectrum N x k‖

/-- `k = PEAK_ideal(x)`: a bin of greatest magnitude among 1..K, and the lowest such (40_analyzer.md R90). -/
def IsPeakIdeal (N : ℕ) (x : List Int) (K k : ℕ) : Prop :=
  1 ≤ k ∧ k ≤ K ∧ (∀ j, 1 ≤ j → j ≤ K → magnitude N x j ≤ magnitude N x k) ∧
    ∀ j, 1 ≤ j → j < k → magnitude N x j < magnitude N x k

/-- `M[k] ≥ (1 − ε)·max over j in 1..K of M[j]` for a bin k of 1..K (40_analyzer.md R90). -/
def MeetsSlack (N : ℕ) (x : List Int) (K : ℕ) (ε : ℚ) (k : ℕ) : Prop :=
  1 ≤ k ∧ k ≤ K ∧ ∀ j, 1 ≤ j → j ≤ K → (1 - (ε : ℝ)) * magnitude N x j ≤ magnitude N x k

end Sys2Proof.Machine
end

