-- ==== Sys2Proof/Safety.lean ====
section
/-! DEFINITION. The terms claims are stated in: the invariants of 10_state.md R37, the fields of a response
(30_encoding.md R69), sequences of commands. -/

namespace Sys2Proof.Machine

/-- The invariants every command keeps (10_state.md R37, R34, R22). -/
structure Inv (s : State) : Prop where
  /-- The table has exactly N_CH slots (R34). -/
  table_size : s.cal.length = s.cfg.nCh
  /-- R37 (a): slots at index ≥ HIST_FILL are 0. -/
  unused_slots : (s.deb.histFill.toNat ≤ 0 → s.deb.hist0 = 0#8) ∧ (s.deb.histFill.toNat ≤ 1 → s.deb.hist1 = 0#8) ∧
    (s.deb.histFill.toNat ≤ 2 → s.deb.hist2 = 0#8)
  /-- R37 (b): every slot and RUN_CAND is in 0..N_CH. -/
  channels : s.deb.hist0.toNat ≤ s.cfg.nCh ∧ s.deb.hist1.toNat ≤ s.cfg.nCh ∧ s.deb.hist2.toNat ≤ s.cfg.nCh ∧
    s.deb.runCand.toNat ≤ s.cfg.nCh
  /-- R37 (c): an invalid entry holds 0. -/
  invalid_zero : ∀ c, (calEntry s c).valid = false → (calEntry s c).value = 0#32
  /-- R37 (d): CAL_DONE implies CALFULL. -/
  done_full : s.calDone = true → calFull s = true
  /-- R37 (e): the widths bound RUN_CNT, RUN_LEN and RUN_SUM; R22: the sum is of RUN_CNT 32-bit samples. -/
  sum_bound : s.deb.runSum.toNat ≤ s.deb.runCnt.toNat * (2 ^ 32 - 1)
  /-- R37 (f): a none-run is not reported. -/
  none_unreported : s.deb.runCand = 0#8 → s.deb.runRep = false
  /-- R37 (g): while the history is not full the ToneRun is empty. -/
  unfilled_run : s.deb.histFill.toNat < 3 →
    s.deb.runCand = 0#8 ∧ s.deb.runLen = 0#16 ∧ s.deb.runSum = 0#48 ∧ s.deb.runCnt = 0#16 ∧ s.deb.runRep = false

/-- The field ERR of a response (30_encoding.md R69). -/
def respErr (r : Response) : BitVec 8 := r.r0.extractLsb' 24 8

/-- The field CLS (R69). -/
def respCls (r : Response) : Chan := r.r0.extractLsb' 16 8

/-- The field EVCH (R69). -/
def respEvch (r : Response) : Chan := r.r0.extractLsb' 8 8

/-- The bit EV (R69). -/
def respEv (r : Response) : Bool := r.r0.getLsbD 0

/-- The frequency that a response of ANLZ or BLK reports: R1 if FV = 1 (R69). -/
def respFreq (r : Response) : Option Word := if r.r0.getLsbD 1 then some r.r1 else none

/-- The ConfirmedTone that a response carries: EVCH and EVFREQ if EV = 1 (R69). -/
def respTone (r : Response) : Option Tone := if respEv r then some (respEvch r, r.r2) else none

/-- The ConfirmedTone on the response port. -/
def toneOut (s : State) : Option Tone := s.resp.bind respTone

/-- The state after a command (every command answers a next state: 60_exceptions.md R168). -/
def after (i : Instr) (s : State) : State :=
  match exec i s with
  | .next t => t
  | .fault _ => s
  | .refused _ => s

/-- The states after each of a sequence of commands. -/
def statesOf : List Instr → State → List State
  | [], _ => []
  | i :: is, s => after i s :: statesOf is (after i s)

/-- The state after a sequence of commands. -/
def afterAll (is : List Instr) (s : State) : State := is.foldl (fun t i => after i t) s

/-- The commands that step the debouncer. -/
def isBlockStep : Instr → Bool
  | .blk _ _ _ => true
  | .dstep _ _ => true
  | _ => false

/-- The DSTEP commands of a list of operand pairs. -/
def dsteps (l : List (Chan × Option Word)) : List Instr := l.map fun p => .dstep p.1 p.2

/-- The frequencies present among the operands of a list of steps. -/
def samplesOf (l : List (Chan × Option Word)) : List Nat := l.filterMap fun p => p.2.map BitVec.toNat

/-- The bits of word `j` of a command that the hardware ignores (30_encoding.md R74): the operand word of an absent
frequency, and the padding halfword of a block of odd length. -/
def ignoredBits (i : Instr) (j : Nat) : Word :=
  match i with
  | .anlz block => if block.length % 2 = 1 ∧ j = (block.length + 1) / 2 then 0xFFFF0000#32 else 0#32
  | .blk _ _ block => if block.length % 2 = 1 ∧ j = (block.length + 1) / 2 then 0xFFFF0000#32 else 0#32
  | .clsf _ none => if j = 1 then 0xFFFFFFFF#32 else 0#32
  | .calw _ none => if j = 1 then 0xFFFFFFFF#32 else 0#32
  | .calt _ none => if j = 1 then 0xFFFFFFFF#32 else 0#32
  | .dstep _ none => if j = 1 then 0xFFFFFFFF#32 else 0#32
  | _ => 0#32

/-- A run of the machine that never stops: what claims about a whole session may take as safe. -/
def SafeRun (n : Nat) (s : State) : Prop := ∃ t, Sys2Proof.core.run n s = .next t

end Sys2Proof.Machine
end

