-- ==== Sys2Proof/Certificates/Slice0/Obligations.lean ====
section
/-! DEFINITION. The statements for the provers. Each docstring names the rule of spec/ it formalises. -/

open Sys2Proof Sys2Proof.Machine

/-! ## Encoding -/

/-- Decoding the words of a command gives the command back, with every operand, and leaves the words after it
(30_encoding.md R66 to R70, R75; 20_memory.md R53). -/
def Obligations.DecodeOfEncodeIsTheCommand : Prop :=
  ∀ (i : Instr) (rest : List Word), i.wf = true → decode (encode i ++ rest) = .ok (i, rest)

/-- A stream that decodes begins with the encoding of the command it decodes to, in every bit that is not ignored
(30_encoding.md R73, R74). -/
def Obligations.DecodedWordsAreTheEncoding : Prop :=
  ∀ (ws rest : List Word) (i : Instr), decode ws = .ok (i, rest) →
    i.wf = true ∧ ∃ pre, ws = pre ++ rest ∧ pre.length = (encode i).length ∧
      ∀ (j : Nat) (v w : Word), pre[j]? = some v → (encode i)[j]? = some w →
        v &&& ~~~(ignoredBits i j) = w &&& ~~~(ignoredBits i j)

/-- No command word matches two rows of the opcode map (30_encoding.md R70). -/
def Obligations.OpcodeRowsAreDisjoint : Prop :=
  ∀ (w : Word) (o₁ o₂ : Op), w &&& opMask o₁ = opMatch o₁ → w &&& opMask o₂ = opMatch o₂ → o₁ = o₂

/-- The command words of the vectors E1, E2 and E5 to E13 of 95_test_vectors.md 2.1 decode to the commands they stand
for, and so does a BLK of three samples, which is no listed vector but written out from 30_encoding.md R66. -/
def Obligations.ListedWordsDecode : Prop :=
  decode [0x00000000#32] = .ok (.nop, []) ∧
  decode [0x10000003#32, 0xFFFF0001#32, 0x00000002#32] = .ok (.anlz [1#16, 0xFFFF#16, 2#16], []) ∧
  decode [0x11030003#32, 0xFFFF0001#32, 0xBEEF0002#32] = .ok (.blk true true [1#16, 0xFFFF#16, 2#16], []) ∧
  decode [0x20000003#32, 0x002C2400#32] = .ok (.clsf true (some 2892800#32), []) ∧
  decode [0x20000000#32, 0x00000000#32] = .ok (.clsf false none, []) ∧
  decode [0x20000000#32, 0xDEADBEEF#32] = .ok (.clsf false none, []) ∧
  decode [0x30010001#32, 0x00271000#32] = .ok (.calw 1#8 (some 2560000#32), []) ∧
  decode [0x31050001#32, 0x002E1800#32] = .ok (.calt 5#8 (some 3020800#32), []) ∧
  decode [0x32000000#32] = .ok (.cclr, []) ∧ decode [0x33000000#32] = .ok (.cdone, []) ∧
  decode [0x40050001#32, 0x002E1800#32] = .ok (.dstep 5#8 (some 3020800#32), []) ∧
  decode [0x40000000#32, 0x00000000#32] = .ok (.dstep 0#8 none, []) ∧
  decode [0x40050000#32, 0x00000000#32] = .ok (.dstep 5#8 none, []) ∧
  decode [0x41000000#32] = .ok (.dclr, []) ∧ decode [0x50000000#32] = .ok (.frst, []) ∧
  decode [0x60410000#32] = .ok (.rdreg 0x41#8, [])

/-- Sample packing (20_memory.md R53): a block of COUNT samples in ceil(COUNT/2) words; sample 2j is bits 15:0 and
sample 2j+1 bits 31:16 of word j; the padding of an odd block is ignored. -/
def Obligations.SamplesArePackedEarlierLow : Prop :=
  ∀ (no ovf : Bool) (count : Nat) (ops : List Word), count ≤ 65535 → ops.length = (count + 1) / 2 →
    ∃ block : List Sample, block.length = count ∧
      (∀ j, j < count → block.getD j 0#16 = (ops.getD (j / 2) 0#32).extractLsb' (16 * (j % 2)) 16) ∧
      decode (wordB 0x10#8 false false count :: ops) = .ok (.anlz block, []) ∧
      decode (wordB 0x11#8 no ovf count :: ops) = .ok (.blk no ovf block, [])

/-! ## The step, the command port and reset -/

/-- A step takes one whole command from the command port and is its execution (30_encoding.md R65, R66). -/
def Obligations.StepRunsTheDecodedCommand : Prop :=
  ∀ (s : State) (ws rest : List Word) (inp : List PortEvent) (i : Instr), s.cfg.wf = true →
    decode ws = .ok (i, rest) → s.input = ws.map PortEvent.word ++ inp →
    step s = exec i { s with input := rest.map PortEvent.word ++ inp }

/-- An unassigned opcode (30_encoding.md R72): no operand word is consumed, the response is ILLEGAL_OP, and only the
error counters change. All unassigned opcodes behave alike. -/
def Obligations.UnassignedOpcodeIsIllegal : Prop :=
  ∀ (s : State) (w : Word) (inp : List PortEvent), s.cfg.wf = true →
    w.extractLsb' 24 8 ∉ [0x00#8, 0x10#8, 0x11#8, 0x20#8, 0x30#8, 0x31#8, 0x32#8, 0x33#8, 0x40#8, 0x41#8, 0x50#8, 0x60#8] →
    s.input = .word w :: inp →
    step s = .next { s with
      input := inp, lastErr := 1#8, errCnt := BitVec.ofNat 16 (min (s.errCnt.toNat + 1) 65535),
      resp := some ⟨0x01000000#32, 0#32, 0#32⟩ }

/-- A reserved bit (30_encoding.md R73): the operand words that the format calls for are consumed, the response is
ILLEGAL_OP, and nothing but the error counters changes. A channel field out of range is no illegal encoding: such a
word decodes, and is answered BAD_CHANNEL. -/
def Obligations.ReservedBitIsIllegal : Prop :=
  (∀ (s : State) (o : Op) (w : Word) (ops : List Word) (inp : List PortEvent), s.cfg.wf = true →
    w.extractLsb' 24 8 = opCode o → w &&& opMask o ≠ opMatch o →
    ops.length = (match opFormat o with
      | .z => 0
      | .r => 0
      | .f => 1
      | .b => ((w.extractLsb' 0 16).toNat + 1) / 2) →
    s.input = .word w :: (ops.map PortEvent.word ++ inp) →
    step s = .next { s with
      input := inp, lastErr := 1#8, errCnt := BitVec.ofNat 16 (min (s.errCnt.toNat + 1) 65535),
      resp := some ⟨0x01000000#32, 0#32, 0#32⟩ }) ∧
  (∀ (s : State) (ch : Chan) (f : Option Word) (i : Instr), s.cfg.wf = true →
    (i = .calw ch f ∨ i = .calt ch f) ∧ (ch.toNat = 0 ∨ s.cfg.nCh < ch.toNat) ∨ i = .dstep ch f ∧ s.cfg.nCh < ch.toNat →
    decode (encode i) = .ok (i, []) ∧
      exec i s = .next { s with
        lastErr := 3#8, errCnt := BitVec.ofNat 16 (min (s.errCnt.toNat + 1) 65535),
        resp := some ⟨0x03000000#32, 0#32, 0#32⟩ })

/-- With no complete command at the port and no RST the hardware waits, and no state changes
(70_reset_and_hazards.md R197, 93_implementation_defined.md U5). The choice of a step that leaves the state as it is
for this waiting is the model's (log 5). -/
def Obligations.IncompleteCommandWaits : Prop :=
  ∀ (s : State) (ws : List Word), s.cfg.wf = true → decode ws = .error .incomplete →
    s.input = ws.map PortEvent.word → step s = .next s

/-- RST, between commands or inside one (70_reset_and_hazards.md R190): every piece of state takes its value of
10_state.md R36, the Nominal table and the parameters stay, a command in progress is abandoned without a response.
That the response port shows nothing afterwards, and that RST stands among the words at the input, are the model's
choices (log 4 and log 6). -/
def Obligations.ResetPutsEveryStateBack : Prop :=
  ∀ (s : State) (ws : List Word) (inp : List PortEvent), s.cfg.wf = true → decode ws = .error .incomplete →
    s.input = ws.map PortEvent.word ++ .rst :: inp →
    ∃ t, step s = .next t ∧
      (∀ c, (calEntry t c).valid = false ∧ (calEntry t c).value = 0#32) ∧ t.calDone = false ∧
      t.deb.hist0 = 0#8 ∧ t.deb.hist1 = 0#8 ∧ t.deb.hist2 = 0#8 ∧ t.deb.histFill = 0#2 ∧
      t.deb.runCand = 0#8 ∧ t.deb.runLen = 0#16 ∧ t.deb.runSum = 0#48 ∧ t.deb.runCnt = 0#16 ∧ t.deb.runRep = false ∧
      t.lastErr = 0#8 ∧ t.errCnt = 0#16 ∧ t.ovfCnt = 0#16 ∧
      t.cfg = s.cfg ∧ (∀ c, nom t.cfg c = nom s.cfg c) ∧ t.resp = none ∧ t.input = inp

/-- The registers after reset, as RDREG shows them, with the default parameters (10_state.md R27 to R32, R36;
95_test_vectors.md 2.7). -/
def Obligations.ResetRegistersRead : Prop :=
  ([0x00, 0x01, 0x02, 0x03, 0x04, 0x05, 0x06, 0x07, 0x08, 0x09, 0x0A, 0x0B, 0x0C].map fun n =>
      regRead State.reset (BitVec.ofNat 8 n)) =
    ([0x42504607, 19, 44100, 441, 164, 25600, 75, 70, 2, 1, 10000, 18000, 220].map fun v => some (BitVec.ofNat 32 v)) ∧
  (∀ n, 0x10 ≤ n → n ≤ 0x1A → regRead State.reset (BitVec.ofNat 8 n) = some 0#32) ∧
  regRead State.reset 0x41#8 = some 2560000#32 ∧ regRead State.reset 0x44#8 = some 2901333#32 ∧
  regRead State.reset 0x53#8 = some 4608000#32 ∧
  ∀ n, 0x81 ≤ n → n ≤ 0x93 → regRead State.reset (BitVec.ofNat 8 n) = some 0#32

/-- A build outside the constraints of 00_scope.md R5 is refused, and only such a build (93 U7; log 7). -/
def Obligations.IllFormedBuildIsRefused : Prop :=
  ∀ s : State, (step s = .refused .buildNotWellFormed ↔ s.cfg.wf = false) ∧
    (s.cfg.wf = true → ∃ t, step s = .next t)

/-! ## Errors -/

/-- Every command is answered by exactly one response, takes nothing from the port itself and leaves the build as it
is (30_encoding.md R65, 60_exceptions.md R168, R182). -/
def Obligations.EveryCommandIsAnswered : Prop :=
  ∀ (i : Instr) (s : State), ∃ t r, exec i s = .next t ∧ t.resp = some r ∧ t.input = s.input ∧ t.cfg = s.cfg

/-- Raising an error (60_exceptions.md R166, R167): a command that answers ERR = E ≠ 0 sets LASTERR to E, counts up
ERRCNT with saturation, answers `E·2^24, 0, 0`, and changes nothing else; a command that is performed leaves LASTERR
and ERRCNT unchanged. -/
def Obligations.ErrorsAreRecordedAndPrecise : Prop :=
  ∀ (i : Instr) (s t : State) (r : Response), exec i s = .next t → t.resp = some r →
    (respErr r ≠ 0#8 →
      t = { s with
        lastErr := respErr r, errCnt := BitVec.ofNat 16 (min (s.errCnt.toNat + 1) 65535),
        resp := some ⟨respErr r ++ 0#24, 0#32, 0#32⟩ } ∧ 1 ≤ (respErr r).toNat ∧ (respErr r).toNat ≤ 5) ∧
    (respErr r = 0#8 → t.lastErr = s.lastErr ∧ t.errCnt = s.errCnt)

/-- Which error a command ends in (60_exceptions.md R165, R169, R170): BAD_LENGTH for a wrong COUNT, BAD_CHANNEL
before BAD_FREQ in CALW and CALT, BAD_CHANNEL in DSTEP, BAD_REG in RDREG, and no error otherwise. -/
def Obligations.ErrorCauses : Prop :=
  ∀ (i : Instr) (s : State), ∃ t r, exec i s = .next t ∧ t.resp = some r ∧
    respErr r = (match i with
      | .anlz block => if block.length ≠ s.cfg.nS then 2#8 else 0#8
      | .blk _ _ block => if block.length ≠ s.cfg.nS then 2#8 else 0#8
      | .calw ch f => if ch.toNat = 0 ∨ s.cfg.nCh < ch.toNat then 3#8 else if f = none then 4#8 else 0#8
      | .calt ch f => if ch.toNat = 0 ∨ s.cfg.nCh < ch.toNat then 3#8 else if f = none then 4#8 else 0#8
      | .dstep ch _ => if s.cfg.nCh < ch.toNat then 3#8 else 0#8
      | .rdreg idx => if regRead s idx = none then 5#8 else 0#8
      | _ => 0#8)

/-! ## The analyzer -/

/-- ANLZ (40_analyzer.md R92, R86, R87, R91): a block of another length is BAD_LENGTH; a block whose every sample is
below the noise floor is answered none; any other block is answered the frequency of its peak bin, which is what
`peak` gives (see PeakSearchMeetsItsConstraint). No other state changes. -/
def Obligations.AnlzAnswersThePeakFrequency : Prop :=
  ∀ (block : List Sample) (s : State), 0 < s.cfg.nS →
    (block.length ≠ s.cfg.nS →
      exec (.anlz block) s = .next { s with
        lastErr := 2#8, errCnt := BitVec.ofNat 16 (min (s.errCnt.toNat + 1) 65535),
        resp := some ⟨0x02000000#32, 0#32, 0#32⟩ }) ∧
    (block.length = s.cfg.nS → (∀ a ∈ block, a.toInt.natAbs < s.cfg.noiseThr) →
      exec (.anlz block) s = .next { s with resp := some ⟨0#32, 0#32, 0#32⟩ }) ∧
    (block.length = s.cfg.nS → (∃ a ∈ block, s.cfg.noiseThr ≤ a.toInt.natAbs) →
      exec (.anlz block) s = .next { s with
        resp := some ⟨2#32, BitVec.ofNat 32 (peak s.cfg (block.map BitVec.toInt) * s.cfg.fsHz * 256 / s.cfg.nS), 0#32⟩ })

/-- The peak search (40_analyzer.md R90, with M of R88 over the real numbers and K_MAX of R89): for every build the
bin is in 1..K_MAX and within EPS_PEAK of the greatest magnitude; with EPS_PEAK = 0 it is PEAK_ideal, the lowest bin
of greatest magnitude. -/
def Obligations.PeakSearchMeetsItsConstraint : Prop :=
  ∀ (cfg : Cfg) (x : List Int), cfg.wf = true → x.length = cfg.nS →
    MeetsSlack cfg.nS x ((cfg.nS - 1) / 2) cfg.epsPeak (peak cfg x) ∧
      (cfg.epsPeak = 0 → IsPeakIdeal cfg.nS x ((cfg.nS - 1) / 2) (peak cfg x))

/-- For every build with EPS_PEAK > 0, a bin is one that the peak search can return if and only if it meets R90's
constraint: the search returns the free value where that is such a bin (40_analyzer.md R90, 93 U1; log 11). -/
def Obligations.EveryPeakWithinSlackIsAllowed : Prop :=
  ∀ (cfg : Cfg) (x : List Int) (k : Nat), cfg.wf = true → x.length = cfg.nS → cfg.epsPeak ≠ 0 →
    (MeetsSlack cfg.nS x ((cfg.nS - 1) / 2) cfg.epsPeak k ↔ peakFrom cfg x k = k) ∧
      peak cfg x = peakFrom cfg x (Config.peakChoice cfg x)

/-- A block that is not silent gets a frequency, of a bin in 1..K_MAX, and it fits 32 bits (40_analyzer.md R91, R93
(b) and (f)). It is not 0 if `N_S ≤ 256·FS_HZ` (log 18). -/
def Obligations.AudibleBlockHasAFrequency : Prop :=
  ∀ (block : List Sample) (s : State), s.cfg.wf = true → block.length = s.cfg.nS →
    (∃ a ∈ block, s.cfg.noiseThr ≤ a.toInt.natAbs) →
    ∃ t r k, exec (.anlz block) s = .next t ∧ t.resp = some r ∧ respErr r = 0#8 ∧ 1 ≤ k ∧ k ≤ (s.cfg.nS - 1) / 2 ∧
      (∃ F : Word, respFreq r = some F ∧ F.toNat = k * s.cfg.fsHz * 256 / s.cfg.nS ∧
        (s.cfg.nS ≤ 256 * s.cfg.fsHz → F ≠ 0#32))

/-- Exact ties (40_analyzer.md R93 (c) and (d)), with EPS_PEAK = 0: a block whose only non-zero samples are its first
and last, and a block with one non-zero sample, peak at bin 1. -/
def Obligations.TiedSpectraPeakAtBinOne : Prop :=
  ∀ (block : List Sample) (s : State), s.cfg.wf = true → s.cfg.epsPeak = 0 → block.length = s.cfg.nS →
    (∃ a ∈ block, s.cfg.noiseThr ≤ a.toInt.natAbs) →
    ((∀ n, 0 < n → n < s.cfg.nS - 1 → block.getD n 0#16 = 0#16) ∨
      (∃ m, ∀ n, n ≠ m → block.getD n 0#16 = 0#16)) →
    exec (.anlz block) s = .next { s with
      resp := some ⟨2#32, BitVec.ofNat 32 (1 * s.cfg.fsHz * 256 / s.cfg.nS), 0#32⟩ }

/-- A constant block (40_analyzer.md R93 (e)), with EPS_PEAK = 0: if every sample is a, and |a| ≥ NOISE_THR, the peak
is at bin 1. -/
def Obligations.ConstantBlockPeaksAtBinOne : Prop :=
  ∀ (a : Sample) (s : State), s.cfg.wf = true → s.cfg.epsPeak = 0 → s.cfg.noiseThr ≤ a.toInt.natAbs →
    exec (.anlz (List.replicate s.cfg.nS a)) s = .next { s with
      resp := some ⟨2#32, BitVec.ofNat 32 (1 * s.cfg.fsHz * 256 / s.cfg.nS), 0#32⟩ }

/-- The peak depends on the samples only up to a positive factor (40_analyzer.md R93 (g)) and is unchanged by
negation (95_test_vectors.md A13), with EPS_PEAK = 0: two audible blocks, one the other times a rational p/q ≠ 0, get
the same answer. -/
def Obligations.ScalingKeepsThePeak : Prop :=
  ∀ (a b : List Sample) (s : State) (p q : Int), s.cfg.wf = true → s.cfg.epsPeak = 0 → a.length = s.cfg.nS →
    p ≠ 0 → q ≠ 0 → b.map (fun v => q * v.toInt) = a.map (fun v => p * v.toInt) →
    (∃ v ∈ a, s.cfg.noiseThr ≤ v.toInt.natAbs) → (∃ v ∈ b, s.cfg.noiseThr ≤ v.toInt.natAbs) →
    exec (.anlz a) s = exec (.anlz b) s ∧ ∃ t, exec (.anlz a) s = .next t ∧ { t with resp := s.resp } = s

/-! ## Tables and classifier -/

/-- The Nominal table (41_calibration.md R101): the linear spacing, truncated toward zero by one division; its end
points are exact; it is strictly increasing; every entry fits 32 bits; in the default build neighbours are 113777 or
113778 apart. -/
def Obligations.NominalTableIsLinear : Prop :=
  ∀ cfg : Cfg, cfg.wf = true →
    (∀ c, 1 ≤ c → c ≤ cfg.nCh →
      nom cfg c * (cfg.nCh - 1) ≤ 256 * cfg.fminHz * (cfg.nCh - 1) + 256 * (c - 1) * (cfg.fmaxHz - cfg.fminHz) ∧
      256 * cfg.fminHz * (cfg.nCh - 1) + 256 * (c - 1) * (cfg.fmaxHz - cfg.fminHz) < (nom cfg c + 1) * (cfg.nCh - 1) ∧
      nom cfg c < 2 ^ 32) ∧
    nom cfg 1 = 256 * cfg.fminHz ∧ nom cfg cfg.nCh = 256 * cfg.fmaxHz ∧
    (∀ c, 1 ≤ c → c < cfg.nCh → nom cfg c < nom cfg (c + 1)) ∧
    (cfg = Config.default → ∀ c, 1 ≤ c → c < 19 →
      nom cfg (c + 1) = nom cfg c + 113777 ∨ nom cfg (c + 1) = nom cfg c + 113778)

/-- Table selection (41_calibration.md R102): Nominal if NO is set or some entry of Calibrated is missing, else
Calibrated; CAL_DONE plays no part. -/
def Obligations.LookupSelectsTheTable : Prop :=
  ∀ (s : State) (no : Bool) (c : Nat),
    ((no = true ∨ ∃ e, 1 ≤ e ∧ e ≤ s.cfg.nCh ∧ (calEntry s e).valid = false) → lookup s no c = nom s.cfg c) ∧
    ((no = false ∧ ∀ e, 1 ≤ e → e ≤ s.cfg.nCh → (calEntry s e).valid = true) →
      lookup s no c = (calEntry s c).value.toNat) ∧
    ∀ b, lookup { s with calDone := b } no c = lookup s no c

/-- CLSF and CLASSIFY (42_classifier.md R121, R122, R123): none for no frequency; else the channel of least distance
in the selected table, the lowest of several at that distance, if that distance is strictly below TOL; else none. No
other state changes. -/
def Obligations.ClsfFindsTheNearestChannel : Prop :=
  ∀ (no : Bool) (f : Option Word) (s : State), s.cfg.wf = true →
    ∃ c : Chan, exec (.clsf no f) s = .next { s with resp := some ⟨0#8 ++ c ++ 0#16, 0#32, 0#32⟩ } ∧
      (f = none → c = 0#8) ∧
      ∀ w, f = some w →
        let d := fun e => Int.natAbs ((w.toNat : Int) - lookup s no e)
        (c ≠ 0#8 → c.toNat ≤ s.cfg.nCh ∧ d c.toNat < s.cfg.tol ∧
          (∀ e, 1 ≤ e → e ≤ s.cfg.nCh → d c.toNat ≤ d e) ∧ ∀ e, 1 ≤ e → e < c.toNat → d c.toNat < d e) ∧
        (c = 0#8 ↔ ∀ e, 1 ≤ e → e ≤ s.cfg.nCh → s.cfg.tol ≤ d e)

/-- A frequency at a channel's own centre (42_classifier.md R124), with TOL > 0: under the Nominal table it gives that
channel; under a full Calibrated table it gives the lowest channel with that centre, which is that channel itself
where the centres are pairwise different. -/
def Obligations.CentreClassifiesToItsChannel : Prop :=
  ∀ (s : State) (c : Nat), s.cfg.wf = true → 0 < s.cfg.tol → 1 ≤ c → c ≤ s.cfg.nCh →
    exec (.clsf true (some (BitVec.ofNat 32 (nom s.cfg c)))) s =
        .next { s with resp := some ⟨0#8 ++ BitVec.ofNat 8 c ++ 0#16, 0#32, 0#32⟩ } ∧
    ((∀ e, 1 ≤ e → e ≤ s.cfg.nCh → (calEntry s e).valid = true) →
      (∀ e, 1 ≤ e → e < c → (calEntry s e).value ≠ (calEntry s c).value) →
      ∀ c', c ≤ c' → c' ≤ s.cfg.nCh → (calEntry s c').value = (calEntry s c).value →
        exec (.clsf false (some (calEntry s c').value)) s =
          .next { s with resp := some ⟨0#8 ++ BitVec.ofNat 8 c ++ 0#16, 0#32, 0#32⟩ })

/-- A partly filled Calibrated table is never used (41_calibration.md R102, R109 (b)): with an entry missing, a
classification does not depend on what Calibrated holds. -/
def Obligations.PartialTableIsNeverUsed : Prop :=
  ∀ (s : State) (cal' : List CalEntry) (no : Bool) (f : Option Word),
    (∃ e, 1 ≤ e ∧ e ≤ s.cfg.nCh ∧ (calEntry s e).valid = false) →
    (∃ e, 1 ≤ e ∧ e ≤ s.cfg.nCh ∧ (calEntry { s with cal := cal' } e).valid = false) →
    ∃ t, exec (.clsf no f) s = .next t ∧ exec (.clsf no f) { s with cal := cal' } = .next { t with cal := cal' }

/-! ## Calibration -/

/-- CALW (41_calibration.md R103): BAD_CHANNEL, then BAD_FREQ; else entry c holds the frequency and is valid, every
other entry and all other state is unchanged, and the response is ACC = 1. -/
def Obligations.CalwWritesOneEntry : Prop :=
  ∀ (ch : Chan) (f : Option Word) (s : State), s.cal.length = s.cfg.nCh →
    ((ch.toNat = 0 ∨ s.cfg.nCh < ch.toNat) → exec (.calw ch f) s = .next { s with
      lastErr := 3#8, errCnt := BitVec.ofNat 16 (min (s.errCnt.toNat + 1) 65535),
      resp := some ⟨0x03000000#32, 0#32, 0#32⟩ }) ∧
    (1 ≤ ch.toNat → ch.toNat ≤ s.cfg.nCh → f = none → exec (.calw ch f) s = .next { s with
      lastErr := 4#8, errCnt := BitVec.ofNat 16 (min (s.errCnt.toNat + 1) 65535),
      resp := some ⟨0x04000000#32, 0#32, 0#32⟩ }) ∧
    (1 ≤ ch.toNat → ch.toNat ≤ s.cfg.nCh → ∀ w, f = some w → ∃ t, exec (.calw ch f) s = .next t ∧
      (∀ c, calEntry t c = if c = ch.toNat then ⟨true, w⟩ else calEntry s c) ∧
      t = { s with cal := t.cal, resp := some ⟨4#32, 0#32, 0#32⟩ } ∧ t.cal.length = s.cal.length)

/-- CALT (41_calibration.md R104, R105): the errors of CALW; else the frequency is classified against Nominal alone
and compared with the nominal centre in integers, inclusively; if both checks pass the entry is written and the
response is ACC = 1 with the class; if one fails nothing changes and both verdicts are reported. -/
def Obligations.CaltAcceptsOrRejects : Prop :=
  ∀ (ch : Chan) (f : Option Word) (s : State), s.cal.length = s.cfg.nCh →
    ((ch.toNat = 0 ∨ s.cfg.nCh < ch.toNat) → exec (.calt ch f) s = .next { s with
      lastErr := 3#8, errCnt := BitVec.ofNat 16 (min (s.errCnt.toNat + 1) 65535),
      resp := some ⟨0x03000000#32, 0#32, 0#32⟩ }) ∧
    (1 ≤ ch.toNat → ch.toNat ≤ s.cfg.nCh → f = none → exec (.calt ch f) s = .next { s with
      lastErr := 4#8, errCnt := BitVec.ofNat 16 (min (s.errCnt.toNat + 1) 65535),
      resp := some ⟨0x04000000#32, 0#32, 0#32⟩ }) ∧
    (1 ≤ ch.toNat → ch.toNat ≤ s.cfg.nCh → ∀ w, f = some w → ∃ t r, exec (.calt ch f) s = .next t ∧
      t.resp = some r ∧ r.r1 = 0#32 ∧ r.r2 = 0#32 ∧
      exec (.clsf true f) s = .next { s with resp := some ⟨0#8 ++ respCls r ++ 0#16, 0#32, 0#32⟩ } ∧
      let okA := respCls r = ch
      let okB := 1000 * Int.natAbs ((w.toNat : Int) - nom s.cfg ch.toNat) ≤ s.cfg.sanityPermille * nom s.cfg ch.toNat
      (okA ∧ okB → r.r0 = 0#8 ++ ch ++ 4#16 ∧
        (∀ c, calEntry t c = if c = ch.toNat then ⟨true, w⟩ else calEntry s c) ∧
        t = { s with cal := t.cal, resp := some r } ∧ t.cal.length = s.cal.length) ∧
      (¬(okA ∧ okB) → t = { s with resp := some r } ∧ respErr r = 0#8 ∧ r.r0.extractLsb' 5 11 = 0#11 ∧
        r.r0.extractLsb' 0 3 = 0#3 ∧ (r.r0.getLsbD 3 = true ↔ ¬okA) ∧ (r.r0.getLsbD 4 = true ↔ ¬okB)))

/-- A CALT has the same verdict in every state of the same build (41_calibration.md R106). -/
def Obligations.CaltVerdictIsTheSameInEveryState : Prop :=
  ∀ (ch : Chan) (f : Option Word) (s s' : State), s.cfg = s'.cfg →
    ∃ t t', exec (.calt ch f) s = .next t ∧ exec (.calt ch f) s' = .next t' ∧ t.resp = t'.resp

/-- CDONE (41_calibration.md R107): with every entry valid it sets CAL_DONE and answers ACC = 1, again if it is
already set; else it answers 0 and changes nothing. Its word is 0x33000000. -/
def Obligations.CdoneMarksAFullTable : Prop :=
  decode [0x33000000#32] = .ok (.cdone, []) ∧ ∀ s : State,
    ((∀ e, 1 ≤ e → e ≤ s.cfg.nCh → (calEntry s e).valid = true) →
      exec .cdone s = .next { s with calDone := true, resp := some ⟨4#32, 0#32, 0#32⟩ }) ∧
    ((∃ e, 1 ≤ e ∧ e ≤ s.cfg.nCh ∧ (calEntry s e).valid = false) →
      exec .cdone s = .next { s with resp := some ⟨0#32, 0#32, 0#32⟩ })

/-- CCLR (41_calibration.md R108): every entry and CAL_DONE are cleared, the debouncer and all else is untouched, the
response is 0, and lookups are Nominal after it. Its word is 0x32000000. -/
def Obligations.CclrEmptiesTheTable : Prop :=
  decode [0x32000000#32] = .ok (.cclr, []) ∧ ∀ s : State, 0 < s.cfg.nCh → ∃ t, exec .cclr s = .next t ∧
    (∀ c, calEntry t c = ⟨false, 0#32⟩) ∧ t.cal.length = s.cfg.nCh ∧
    t = { s with cal := t.cal, calDone := false, resp := some ⟨0#32, 0#32, 0#32⟩ } ∧
    ∀ no c, lookup t no c = nom s.cfg c

/-- CALCOUNT changes only by +1 on a CALW or accepted CALT of a channel not yet valid, and to 0 on CCLR and FRST
(41_calibration.md R109 (a)); RST is ResetPutsEveryStateBack. -/
def Obligations.CalcountChangesOnlyByOneOrToZero : Prop :=
  ∀ (i : Instr) (s t : State), s.cal.length = s.cfg.nCh → exec i s = .next t →
    calCount t = calCount s ∨ calCount t = 0 ∧ (i = .cclr ∨ i = .frst) ∨
    calCount t = calCount s + 1 ∧ ∃ ch f, (i = .calw ch f ∨ i = .calt ch f) ∧ (calEntry s ch.toNat).valid = false ∧
      (calEntry t ch.toNat).valid = true

/-- ANCHOR (30_encoding.md R76): after `CCLR` and `CALW LONG_CH, f` exactly LONG_CH is valid, and it holds f. -/
def Obligations.AnchorLeavesOneEntry : Prop :=
  ∀ (s : State) (f : Word), s.cfg.wf = true →
    (∀ c, calEntry (afterAll (pseudoAnchor s.cfg f) s) c = if c = s.cfg.longCh then ⟨true, f⟩ else ⟨false, 0#32⟩) ∧
    (afterAll (pseudoAnchor s.cfg f) s).calDone = false ∧ (afterAll (pseudoAnchor s.cfg f) s).deb = s.deb

/-! ## The debouncer -/

/-- DSTEP completes for every channel 0..N_CH and every frequency, and touches only the debouncer and the response;
step 1 of it (43_debouncer.md R131, R132): the classification is appended, and while the history is not full after
that, the run is not touched and there is no event. -/
def Obligations.DstepAppendsToTheHistory : Prop :=
  ∀ (ch : Chan) (f : Option Word) (s : State), ch.toNat ≤ s.cfg.nCh →
    ∃ t r, exec (.dstep ch f) s = .next t ∧ t = { s with deb := t.deb, resp := some r } ∧
      (s.deb.histFill = 0#2 → t.deb = { s.deb with hist0 := ch, histFill := 1#2 } ∧ r = ⟨0#32, 0#32, 0#32⟩) ∧
      (s.deb.histFill = 1#2 → t.deb = { s.deb with hist1 := ch, histFill := 2#2 } ∧ r = ⟨0#32, 0#32, 0#32⟩) ∧
      (s.deb.histFill = 2#2 → t.deb.hist0 = s.deb.hist0 ∧ t.deb.hist1 = s.deb.hist1 ∧ t.deb.hist2 = ch ∧
        t.deb.histFill = 3#2) ∧
      (s.deb.histFill = 3#2 → t.deb.hist0 = s.deb.hist1 ∧ t.deb.hist1 = s.deb.hist2 ∧ t.deb.hist2 = ch ∧
        t.deb.histFill = 3#2)

/-- The vote (43_debouncer.md R133): a channel is the stable candidate iff it is not none and fills at least two of the
three slots; the result is none iff no channel does. -/
def Obligations.VoteIsTwoOfThree : Prop :=
  ∀ d : Debouncer,
    (∀ v : Chan, v ≠ 0#8 → (stable d = v ↔ 2 ≤ [d.hist0, d.hist1, d.hist2].count v)) ∧
    (stable d = 0#8 ↔ ∀ v : Chan, v ≠ 0#8 → [d.hist0, d.hist1, d.hist2].count v < 2)

/-- Steps 3 and 4 (43_debouncer.md R134, R135): after a DSTEP that leaves the history full, the run is the old one
extended if the vote is its candidate, and else a new one, with the lengths, sums and counts that the rules give. -/
def Obligations.RunIsExtendedOrStarted : Prop :=
  ∀ (ch : Chan) (f : Option Word) (s : State), ch.toNat ≤ s.cfg.nCh → 2 ≤ s.deb.histFill.toNat →
    ∃ t, exec (.dstep ch f) s = .next t ∧
      (stable t.deb = s.deb.runCand →
        t.deb.runCand = s.deb.runCand ∧ t.deb.runLen.toNat = min (s.deb.runLen.toNat + 1) 65535 ∧
        (∀ w, f = some w → s.deb.runCnt.toNat < 65535 → s.deb.runSum.toNat ≤ s.deb.runCnt.toNat * (2 ^ 32 - 1) →
          t.deb.runSum.toNat = s.deb.runSum.toNat + w.toNat ∧ t.deb.runCnt.toNat = s.deb.runCnt.toNat + 1) ∧
        (f = none ∨ s.deb.runCnt.toNat = 65535 → t.deb.runSum = s.deb.runSum ∧ t.deb.runCnt = s.deb.runCnt)) ∧
      (stable t.deb ≠ s.deb.runCand →
        t.deb.runCand = stable t.deb ∧ t.deb.runLen.toNat = (if stable t.deb = 0#8 then 0 else 1) ∧
        (∀ w, f = some w → stable t.deb ≠ 0#8 → t.deb.runSum.toNat = w.toNat ∧ t.deb.runCnt = 1#16) ∧
        (f = none ∨ stable t.deb = 0#8 → t.deb.runSum = 0#48 ∧ t.deb.runCnt = 0#16))

/-- Step 5 (43_debouncer.md R136, R137, R138): after a DSTEP that leaves the history full there is an event iff the
run has a candidate, was not reported (a new run is not) and has reached its threshold, T_LONG for LONG_CH and
T_SHORT for every other channel; the event is the candidate with the mean of the samples, or the centre of the table
in use if there are none, and it sets RUN_REP; otherwise RUN_REP is kept, or cleared by a new run. -/
def Obligations.EventAtTheThreshold : Prop :=
  ∀ (ch : Chan) (f : Option Word) (s : State), ch.toNat ≤ s.cfg.nCh → 2 ≤ s.deb.histFill.toNat →
    ∃ t r, exec (.dstep ch f) s = .next t ∧ t.resp = some r ∧
      let reported := s.deb.runRep = true ∧ stable t.deb = s.deb.runCand
      let fires := t.deb.runCand ≠ 0#8 ∧ ¬reported ∧
        (if t.deb.runCand.toNat = s.cfg.longCh then s.cfg.tLong else s.cfg.tShort) ≤ t.deb.runLen.toNat
      (fires → t.deb.runRep = true ∧
        r = ⟨0#16 ++ t.deb.runCand ++ 1#8, 0#32,
          if 0 < t.deb.runCnt.toNat then BitVec.ofNat 32 (t.deb.runSum.toNat / t.deb.runCnt.toNat)
          else BitVec.ofNat 32 (lookup s false t.deb.runCand.toNat)⟩) ∧
      (¬fires → r = ⟨0#32, 0#32, 0#32⟩ ∧ (t.deb.runRep = true ↔ reported))

/-- DCLR (43_debouncer.md R141, 10_state.md R23): the debouncer is empty, all else is untouched, the response is 0. -/
def Obligations.DclrEmptiesTheDebouncer : Prop :=
  ∀ s : State, exec .dclr s = .next { s with
    deb := { hist0 := 0#8, hist1 := 0#8, hist2 := 0#8, histFill := 0#2, runCand := 0#8, runLen := 0#16,
             runSum := 0#48, runCnt := 0#16, runRep := false },
    resp := some ⟨0#32, 0#32, 0#32⟩ }

/-- The first two BLK or DSTEP after DCLR, FRST or RST never give an event, whatever their operands and whatever other
commands stand between (70_reset_and_hazards.md R194). -/
def Obligations.NoEventInTheFirstTwoSteps : Prop :=
  ∀ (s : State) (is : List Instr), (is.countP isBlockStep ≤ 2) →
    (∀ t ∈ statesOf is (after .dclr s), toneOut t = none) ∧ (∀ t ∈ statesOf is (after .frst s), toneOut t = none) ∧
      ∀ inp, ∀ t ∈ statesOf is (hardReset s inp), toneOut t = none

/-- One event per run (43_debouncer.md R143): if m steps all have a full history whose vote is the channel v, and the
run before them is not one of v, then a run of v starts at the first of them with length 1, and exactly one event of v
is given in these steps if m ≥ T, at the T-th of them, and none if m < T. Three classifications with at most one other
than v vote v. -/
def Obligations.ExactlyOneEventPerRun : Prop :=
  (∀ (d : Debouncer) (v : Chan), v ≠ 0#8 → 2 ≤ [d.hist0, d.hist1, d.hist2].count v → stable d = v) ∧
  ∀ (s : State) (l : List (Chan × Option Word)) (v : Chan), s.cfg.wf = true → v ≠ 0#8 →
    (∀ p ∈ l, p.1.toNat ≤ s.cfg.nCh) → 2 ≤ s.deb.histFill.toNat → s.deb.runCand ≠ v →
    (∀ t ∈ statesOf (dsteps l) s, stable t.deb = v) →
    ∀ (j : Nat) (t : State), (statesOf (dsteps l) s)[j]? = some t →
      t.deb.runCand = v ∧ (j = 0 → t.deb.runLen = 1#16) ∧
      ((∃ F, toneOut t = some (v, F)) ↔
        j + 1 = if v.toNat = s.cfg.longCh then s.cfg.tLong else s.cfg.tShort) ∧
      (toneOut t = none ↔ j + 1 ≠ if v.toNat = s.cfg.longCh then s.cfg.tLong else s.cfg.tShort)

/-- The frequency of that event (43_debouncer.md R136, R138): the arithmetic mean, truncated, of the frequencies of
the run's T blocks that have one, or, if none has one, the centre of v in the table in use. -/
def Obligations.EventFrequencyIsTheMeanOfTheRun : Prop :=
  ∀ (s : State) (l : List (Chan × Option Word)) (v : Chan) (t : State) (F : Word), s.cfg.wf = true → v ≠ 0#8 →
    (∀ p ∈ l, p.1.toNat ≤ s.cfg.nCh) → 2 ≤ s.deb.histFill.toNat → s.deb.runCand ≠ v →
    (∀ t ∈ statesOf (dsteps l) s, stable t.deb = v) →
    (statesOf (dsteps l) s).getLast? = some t → toneOut t = some (v, F) →
    F.toNat = (if samplesOf l = [] then lookup s false v.toNat % 2 ^ 32
      else (samplesOf l).sum / (samplesOf l).length)

/-- A sequence alternating every block between two different values never gives an event iff every channel among them
has a threshold of at least 2 (43_debouncer.md R144; from the empty debouncer). -/
def Obligations.AlternationGivesNoEvent : Prop :=
  ∀ (s : State) (p q : Chan), s.cfg.wf = true → p.toNat ≤ s.cfg.nCh → q.toNat ≤ s.cfg.nCh → p ≠ q →
    s.deb = Debouncer.empty →
    ((∀ l : List (Chan × Option Word), (∀ (j : Nat) (e : Chan × Option Word), l[j]? = some e →
          e.1 = if j % 2 = 0 then p else q) →
        ∀ t ∈ statesOf (dsteps l) s, toneOut t = none) ↔
      ((p ≠ 0#8 → 2 ≤ threshold s.cfg p) ∧ (q ≠ 0#8 → 2 ≤ threshold s.cfg q)))

/-- From the empty debouncer a tone whose blocks are all classified v gives its one event at the (T+2)-th step
(43_debouncer.md R141, R146). -/
def Obligations.ToneIsReportedAfterThresholdPlusTwo : Prop :=
  ∀ (s : State) (v : Chan) (fs : List (Option Word)), s.cfg.wf = true → v ≠ 0#8 → v.toNat ≤ s.cfg.nCh →
    s.deb = Debouncer.empty →
    ∀ (j : Nat) (t : State), (statesOf (fs.map fun f => .dstep v f) s)[j]? = some t →
      ((toneOut t).isSome = true ↔ j + 1 = threshold s.cfg v + 2)

/-- Two consecutive disagreeing blocks end a run, one does not (43_debouncer.md R145). -/
def Obligations.TwoDisagreeingBlocksEndARun : Prop :=
  ∀ (s : State) (v u : Chan) (f g : Option Word), v ≠ 0#8 → u ≠ v → u.toNat ≤ s.cfg.nCh →
    s.deb.hist0 = v → s.deb.hist1 = v → s.deb.hist2 = v → s.deb.histFill = 3#2 → s.deb.runCand = v →
    ∃ t t', exec (.dstep u f) s = .next t ∧ exec (.dstep u g) t = .next t' ∧ t.deb.runCand = v ∧
      t'.deb.runCand = u ∧ t'.deb.runLen.toNat = (if u = 0#8 then 0 else 1)

/-! ## The pipeline and the system commands -/

/-- BLK (44_pipeline_system.md R151, R152): a block of another length is BAD_LENGTH; otherwise BLK is in every respect
the sequence ANLZ, CLSF, DSTEP on the same values, with OVF counted and the three responses in one. -/
def Obligations.BlkIsAnlzThenClsfThenDstep : Prop :=
  ∀ (no ovf : Bool) (block : List Sample) (s : State), s.cfg.wf = true →
    (block.length ≠ s.cfg.nS → exec (.blk no ovf block) s = .next { s with
      lastErr := 2#8, errCnt := BitVec.ofNat 16 (min (s.errCnt.toNat + 1) 65535),
      resp := some ⟨0x02000000#32, 0#32, 0#32⟩ }) ∧
    (block.length = s.cfg.nS → ∃ (a b d : State) (ra rb rd : Response),
      exec (.anlz block) s = .next a ∧ a.resp = some ra ∧
      exec (.clsf no (respFreq ra)) a = .next b ∧ b.resp = some rb ∧
      exec (.dstep (respCls rb) (respFreq ra)) b = .next d ∧ d.resp = some rd ∧ respErr rd = 0#8 ∧
      exec (.blk no ovf block) s = .next { d with
        ovfCnt := if ovf then BitVec.ofNat 16 (min (s.ovfCnt.toNat + 1) 65535) else s.ovfCnt,
        resp := some ⟨ra.r0 ||| rb.r0 ||| rd.r0, ra.r1, rd.r2⟩ })

/-- The OVF flag only counts (44_pipeline_system.md R153): the block is processed, and answered, as if it were 0. -/
def Obligations.OverflowFlagOnlyCounts : Prop :=
  ∀ (no : Bool) (block : List Sample) (s : State), block.length = s.cfg.nS →
    ∃ t, exec (.blk no false block) s = .next t ∧ t.ovfCnt = s.ovfCnt ∧
      exec (.blk no true block) s = .next { t with ovfCnt := BitVec.ofNat 16 (min (s.ovfCnt.toNat + 1) 65535) }

/-- FRST (44_pipeline_system.md R154): the table, CAL_DONE and the debouncer are cleared, the counters are not, the
response is 0; it is CCLR and DCLR in one command. Its word is 0x50000000. -/
def Obligations.FrstClearsTheSession : Prop :=
  decode [0x50000000#32] = .ok (.frst, []) ∧ ∀ s : State, ∃ t, exec .frst s = .next t ∧ (∀ c, calEntry t c = ⟨false, 0#32⟩) ∧ t.cal.length = s.cfg.nCh ∧
    t = { s with
      cal := t.cal, calDone := false,
      deb := { hist0 := 0#8, hist1 := 0#8, hist2 := 0#8, histFill := 0#2, runCand := 0#8, runLen := 0#16,
               runSum := 0#48, runCnt := 0#16, runRep := false },
      resp := some ⟨0#32, 0#32, 0#32⟩ } ∧
    ∃ u, exec .cclr s = .next u ∧ exec .dclr u = .next t

/-- NOP (44_pipeline_system.md R155), the all-zero word: the response is 0, 0, 0 and no state is read or written; a
word of the same opcode with any other bit set has a reserved bit. -/
def Obligations.NopOnlyAnswers : Prop :=
  decode [0x00000000#32] = .ok (.nop, []) ∧
  (∀ s : State, exec .nop s = .next { s with resp := some ⟨0#32, 0#32, 0#32⟩ }) ∧
  ∀ w : Word, w.extractLsb' 24 8 = 0#8 → w ≠ 0#32 → decode [w] = .error .reservedBit

/-- RDREG and RegRead (44_pipeline_system.md R157, 20_memory.md R51): an assigned index is answered its value, an
unassigned one BAD_REG; no state is written; bits 15:0 of its word are reserved. -/
def Obligations.RdregReadsARegister : Prop :=
  ∀ (idx : BitVec 8) (s : State),
    decode [0x60#8 ++ idx ++ 0#16] = .ok (.rdreg idx, []) ∧
    (∀ low : BitVec 16, low ≠ 0#16 → decode [0x60#8 ++ idx ++ low] = .error .reservedBit) ∧
    (∀ v, regRead s idx = some v →
      exec (.rdreg idx) s = .next { s with resp := some ⟨0#32, v, 0#32⟩ }) ∧
    (regRead s idx = none → exec (.rdreg idx) s = .next { s with
      lastErr := 5#8, errCnt := BitVec.ofNat 16 (min (s.errCnt.toNat + 1) 65535),
      resp := some ⟨0x05000000#32, 0#32, 0#32⟩ })

/-- The register map (10_state.md R27, R29, R30, R31, R32): every assigned index and its value, but for STATUS and
CALVMAP, which StatusAndValidBits gives; every other index is unassigned. -/
def Obligations.RegisterMap : Prop :=
  ∀ s : State, s.cfg.wf = true →
    regRead s 0x00#8 = some 0x42504607#32 ∧
    (∀ p ∈ [(0x01, s.cfg.nCh), (0x02, s.cfg.fsHz), (0x03, s.cfg.nS), (0x04, s.cfg.noiseThr), (0x05, s.cfg.tol),
        (0x06, s.cfg.sanityPermille), (0x07, s.cfg.tLong), (0x08, s.cfg.tShort), (0x09, s.cfg.longCh),
        (0x0A, s.cfg.fminHz), (0x0B, s.cfg.fmaxHz), (0x0C, (s.cfg.nS - 1) / 2),
        (0x11, s.lastErr.toNat), (0x12, s.errCnt.toNat), (0x13, s.ovfCnt.toNat),
        (0x14, s.deb.hist0.toNat + 2 ^ 8 * s.deb.hist1.toNat + 2 ^ 16 * s.deb.hist2.toNat),
        (0x15, s.deb.runCand.toNat), (0x16, s.deb.runLen.toNat), (0x17, s.deb.runCnt.toNat),
        (0x18, s.deb.runSum.toNat % 2 ^ 32), (0x19, s.deb.runSum.toNat / 2 ^ 32)],
      ∃ v : Word, regRead s (BitVec.ofNat 8 p.1) = some v ∧ v.toNat = p.2) ∧
    (∀ c, 1 ≤ c → c ≤ s.cfg.nCh →
      (∃ v : Word, regRead s (BitVec.ofNat 8 (0x40 + c)) = some v ∧ v.toNat = nom s.cfg c) ∧
      regRead s (BitVec.ofNat 8 (0x80 + c)) = some (calEntry s c).value) ∧
    ∀ n, n < 256 → 0x0C < n → (n < 0x10 ∨ 0x1A < n) → (n ≤ 0x40 ∨ 0x40 + s.cfg.nCh < n) →
      (n ≤ 0x80 ∨ 0x80 + s.cfg.nCh < n) → regRead s (BitVec.ofNat 8 n) = none

/-- STATUS and CALVMAP (10_state.md R28, R30, R25). -/
def Obligations.StatusAndValidBits : Prop :=
  ∀ s : State, s.cfg.wf = true → ∃ st mp : Word, regRead s 0x10#8 = some st ∧ regRead s 0x1A#8 = some mp ∧
    st.getLsbD 0 = s.calDone ∧
    (st.getLsbD 1 = true ↔ ∀ c, 1 ≤ c → c ≤ s.cfg.nCh → (calEntry s c).valid = true) ∧
    st.extractLsb' 2 6 = 0#6 ∧ (st.extractLsb' 8 5).toNat = calCount s ∧ st.extractLsb' 13 3 = 0#3 ∧
    st.extractLsb' 16 2 = s.deb.histFill ∧ st.extractLsb' 18 2 = 0#2 ∧ st.getLsbD 20 = s.deb.runRep ∧
    st.extractLsb' 21 11 = 0#11 ∧
    ∀ c, c < 32 → mp.getLsbD c = (decide (1 ≤ c) && decide (c ≤ s.cfg.nCh) && (calEntry s c).valid)

/-! ## Frames and the whole machine -/

/-- What each command leaves unchanged (10_state.md R21, R22, R25, R29, R34; 44_pipeline_system.md R158): the table is
written by CALW, CALT, CCLR and FRST only, CAL_DONE by CDONE, CCLR and FRST only, the debouncer by BLK, DSTEP, DCLR
and FRST only, OVFCNT by BLK only. -/
def Obligations.CommandFrames : Prop :=
  ∀ (i : Instr) (s t : State), exec i s = .next t →
    ((∀ ch f, i ≠ .calw ch f ∧ i ≠ .calt ch f) → i ≠ .cclr → i ≠ .frst → t.cal = s.cal) ∧
    (i ≠ .cdone → i ≠ .cclr → i ≠ .frst → t.calDone = s.calDone) ∧
    (isBlockStep i = false → i ≠ .dclr → i ≠ .frst → t.deb = s.deb) ∧
    ((∀ no ovf block, i ≠ .blk no ovf block) → t.ovfCnt = s.ovfCnt) ∧ t.cfg = s.cfg ∧ t.input = s.input

/-- Idempotency (20_memory.md R57), of commands that are performed: NOP, ANLZ, CLSF, RDREG and a rejected CALT change
nothing but the response; CCLR, DCLR, FRST, CDONE and CALW performed twice leave what once leaves. -/
def Obligations.RepeatableCommands : Prop :=
  ∀ (i : Instr) (s t : State) (r : Response), exec i s = .next t → t.resp = some r → respErr r = 0#8 →
    ((i = .nop ∨ (∃ b, i = .anlz b) ∨ (∃ no f, i = .clsf no f) ∨ (∃ n, i = .rdreg n) ∨
        (∃ ch f, i = .calt ch f) ∧ r.r0.getLsbD 2 = false) → t = { s with resp := some r }) ∧
    ((i = .cclr ∨ i = .dclr ∨ i = .frst ∨ i = .cdone ∨ ∃ ch f, i = .calw ch f) → exec i t = .next t)

/-- The hardware never produces a channel value outside 0..N_CH in a response (60_exceptions.md R170). -/
def Obligations.ResponsesHoldChannels : Prop :=
  ∀ (i : Instr) (s t : State) (r : Response), s.cfg.wf = true → Inv s → exec i s = .next t → t.resp = some r →
    (respCls r).toNat ≤ s.cfg.nCh ∧ (respEvch r).toNat ≤ s.cfg.nCh

/-- The invariants of 10_state.md R37 hold at reset, for every build. -/
def Obligations.ResetMeetsTheInvariants : Prop :=
  Inv State.reset ∧ ∀ (cfg : Cfg) (inp : List PortEvent), Inv (State.resetOf cfg inp)

/-- Every step keeps the invariants of 10_state.md R37, from every state that meets them. -/
def Obligations.StepKeepsTheInvariants : Prop :=
  ∀ s t : State, Inv s → step s = .next t → Inv t
end

