-- ==== Sys2Proof/Laws/State.lean ====
section
/-! SUPPORT. One lemma per field per update of the state. -/

namespace Sys2Proof.Machine

@[simp] theorem respond_cfg (f : Fields) (s : State) : (respond f s).cfg = s.cfg := rfl
@[simp] theorem respond_cal (f : Fields) (s : State) : (respond f s).cal = s.cal := rfl
@[simp] theorem respond_calDone (f : Fields) (s : State) : (respond f s).calDone = s.calDone := rfl
@[simp] theorem respond_deb (f : Fields) (s : State) : (respond f s).deb = s.deb := rfl
@[simp] theorem respond_lastErr (f : Fields) (s : State) : (respond f s).lastErr = s.lastErr := rfl
@[simp] theorem respond_errCnt (f : Fields) (s : State) : (respond f s).errCnt = s.errCnt := rfl
@[simp] theorem respond_ovfCnt (f : Fields) (s : State) : (respond f s).ovfCnt = s.ovfCnt := rfl
@[simp] theorem respond_input (f : Fields) (s : State) : (respond f s).input = s.input := rfl
@[simp] theorem respond_resp (f : Fields) (s : State) : (respond f s).resp = some (okResponse f) := rfl

@[simp] theorem raiseErr_cfg (e : Err) (s : State) : (raiseErr e s).cfg = s.cfg := rfl
@[simp] theorem raiseErr_cal (e : Err) (s : State) : (raiseErr e s).cal = s.cal := rfl
@[simp] theorem raiseErr_calDone (e : Err) (s : State) : (raiseErr e s).calDone = s.calDone := rfl
@[simp] theorem raiseErr_deb (e : Err) (s : State) : (raiseErr e s).deb = s.deb := rfl
@[simp] theorem raiseErr_lastErr (e : Err) (s : State) : (raiseErr e s).lastErr = errCode e := rfl
@[simp] theorem raiseErr_errCnt (e : Err) (s : State) : (raiseErr e s).errCnt = satSucc s.errCnt := rfl
@[simp] theorem raiseErr_ovfCnt (e : Err) (s : State) : (raiseErr e s).ovfCnt = s.ovfCnt := rfl
@[simp] theorem raiseErr_input (e : Err) (s : State) : (raiseErr e s).input = s.input := rfl
@[simp] theorem raiseErr_resp (e : Err) (s : State) : (raiseErr e s).resp = some (errResponse e) := rfl

@[simp] theorem writeCal_cfg (ch : Chan) (w : Word) (s : State) : (writeCal ch w s).cfg = s.cfg := rfl
@[simp] theorem writeCal_cal (ch : Chan) (w : Word) (s : State) : (writeCal ch w s).cal = s.cal.set (ch.toNat - 1) ⟨true, w⟩ := rfl
@[simp] theorem writeCal_calDone (ch : Chan) (w : Word) (s : State) : (writeCal ch w s).calDone = s.calDone := rfl
@[simp] theorem writeCal_deb (ch : Chan) (w : Word) (s : State) : (writeCal ch w s).deb = s.deb := rfl
@[simp] theorem writeCal_lastErr (ch : Chan) (w : Word) (s : State) : (writeCal ch w s).lastErr = s.lastErr := rfl
@[simp] theorem writeCal_errCnt (ch : Chan) (w : Word) (s : State) : (writeCal ch w s).errCnt = s.errCnt := rfl
@[simp] theorem writeCal_ovfCnt (ch : Chan) (w : Word) (s : State) : (writeCal ch w s).ovfCnt = s.ovfCnt := rfl
@[simp] theorem writeCal_input (ch : Chan) (w : Word) (s : State) : (writeCal ch w s).input = s.input := rfl
@[simp] theorem writeCal_resp (ch : Chan) (w : Word) (s : State) : (writeCal ch w s).resp = s.resp := rfl

@[simp] theorem clearCal_cfg (s : State) : (clearCal s).cfg = s.cfg := rfl
@[simp] theorem clearCal_cal (s : State) : (clearCal s).cal = List.replicate s.cfg.nCh CalEntry.empty := rfl
@[simp] theorem clearCal_calDone (s : State) : (clearCal s).calDone = false := rfl
@[simp] theorem clearCal_deb (s : State) : (clearCal s).deb = s.deb := rfl
@[simp] theorem clearCal_lastErr (s : State) : (clearCal s).lastErr = s.lastErr := rfl
@[simp] theorem clearCal_errCnt (s : State) : (clearCal s).errCnt = s.errCnt := rfl
@[simp] theorem clearCal_ovfCnt (s : State) : (clearCal s).ovfCnt = s.ovfCnt := rfl
@[simp] theorem clearCal_input (s : State) : (clearCal s).input = s.input := rfl
@[simp] theorem clearCal_resp (s : State) : (clearCal s).resp = s.resp := rfl

@[simp] theorem clearDeb_cfg (s : State) : (clearDeb s).cfg = s.cfg := rfl
@[simp] theorem clearDeb_cal (s : State) : (clearDeb s).cal = s.cal := rfl
@[simp] theorem clearDeb_calDone (s : State) : (clearDeb s).calDone = s.calDone := rfl
@[simp] theorem clearDeb_deb (s : State) : (clearDeb s).deb = Debouncer.empty := rfl
@[simp] theorem clearDeb_lastErr (s : State) : (clearDeb s).lastErr = s.lastErr := rfl
@[simp] theorem clearDeb_errCnt (s : State) : (clearDeb s).errCnt = s.errCnt := rfl
@[simp] theorem clearDeb_ovfCnt (s : State) : (clearDeb s).ovfCnt = s.ovfCnt := rfl
@[simp] theorem clearDeb_input (s : State) : (clearDeb s).input = s.input := rfl
@[simp] theorem clearDeb_resp (s : State) : (clearDeb s).resp = s.resp := rfl

@[simp] theorem hardReset_cfg (s : State) (l : List PortEvent) : (hardReset s l).cfg = s.cfg := rfl
@[simp] theorem hardReset_cal (s : State) (l : List PortEvent) : (hardReset s l).cal = List.replicate s.cfg.nCh CalEntry.empty := rfl
@[simp] theorem hardReset_calDone (s : State) (l : List PortEvent) : (hardReset s l).calDone = false := rfl
@[simp] theorem hardReset_deb (s : State) (l : List PortEvent) : (hardReset s l).deb = Debouncer.empty := rfl
@[simp] theorem hardReset_lastErr (s : State) (l : List PortEvent) : (hardReset s l).lastErr = 0#8 := rfl
@[simp] theorem hardReset_errCnt (s : State) (l : List PortEvent) : (hardReset s l).errCnt = 0#16 := rfl
@[simp] theorem hardReset_ovfCnt (s : State) (l : List PortEvent) : (hardReset s l).ovfCnt = 0#16 := rfl
@[simp] theorem hardReset_input (s : State) (l : List PortEvent) : (hardReset s l).input = l := rfl
@[simp] theorem hardReset_resp (s : State) (l : List PortEvent) : (hardReset s l).resp = none := rfl

@[simp] theorem countOverflow_cfg (b : Bool) (s : State) : (countOverflow b s).cfg = s.cfg := by cases b <;> rfl
@[simp] theorem countOverflow_cal (b : Bool) (s : State) : (countOverflow b s).cal = s.cal := by cases b <;> rfl
@[simp] theorem countOverflow_calDone (b : Bool) (s : State) : (countOverflow b s).calDone = s.calDone := by cases b <;> rfl
@[simp] theorem countOverflow_deb (b : Bool) (s : State) : (countOverflow b s).deb = s.deb := by cases b <;> rfl
@[simp] theorem countOverflow_lastErr (b : Bool) (s : State) : (countOverflow b s).lastErr = s.lastErr := by cases b <;> rfl
@[simp] theorem countOverflow_errCnt (b : Bool) (s : State) : (countOverflow b s).errCnt = s.errCnt := by cases b <;> rfl
@[simp] theorem countOverflow_ovfCnt (b : Bool) (s : State) :
    (countOverflow b s).ovfCnt = if b then satSucc s.ovfCnt else s.ovfCnt := by cases b <;> rfl
@[simp] theorem countOverflow_input (b : Bool) (s : State) : (countOverflow b s).input = s.input := by cases b <;> rfl
@[simp] theorem countOverflow_resp (b : Bool) (s : State) : (countOverflow b s).resp = s.resp := by cases b <;> rfl

end Sys2Proof.Machine
end

