-- ==== Sys2Proof/Laws/Ops.lean ====
section
/-! SUPPORT. What the shared operations do: responses, counters, tables, the classifier's scan. -/

namespace Sys2Proof.Machine

/-- The bits from `n + j` on of a concatenation lie in its high part. -/
theorem extract_above {m n : Nat} (x : BitVec m) (y : BitVec n) (j l : Nat) :
    (x ++ y).extractLsb' (n + j) l = x.extractLsb' j l := by
  rw [BitVec.extractLsb'_append_eq_of_le (Nat.le_add_right n j), Nat.add_sub_cancel_left]

theorem extract_high {m n : Nat} (x : BitVec m) (y : BitVec n) : (x ++ y).extractLsb' n m = x :=
  (extract_above x y 0 m).trans BitVec.extractLsb'_eq_self

theorem extract_low {m n : Nat} (x : BitVec m) (y : BitVec n) : (x ++ y).extractLsb' 0 n = y := by
  rw [BitVec.extractLsb'_append_eq_of_add_le (by omega), BitVec.extractLsb'_eq_self]

/-- Bits 31:8 of an OK response: no error, CLS, EVCH (30_encoding.md R69). -/
theorem okResponse_bytes (f : Fields) :
    (okResponse f).r0.extractLsb' 24 8 = 0#8 ∧ (okResponse f).r0.extractLsb' 16 8 = f.cls ∧
      (okResponse f).r0.extractLsb' 8 8 = f.evch := by
  have low (j : Nat) : (okResponse f).r0.extractLsb' (8 + j) 8 = (0#8 ++ f.cls ++ f.evch).extractLsb' j 8 := by
    simp only [okResponse, show 8 + j = 1 + (1 + (1 + (1 + (1 + (3 + j))))) by omega, extract_above]
  exact ⟨(low 16).trans ((extract_above ..).trans (extract_high ..)),
    (low 8).trans ((extract_above _ _ 0 8).trans (extract_low ..)), (low 0).trans (extract_low ..)⟩

@[simp] theorem respErr_ok (f : Fields) : respErr (okResponse f) = 0#8 := (okResponse_bytes f).1
@[simp] theorem respCls_ok (f : Fields) : respCls (okResponse f) = f.cls := (okResponse_bytes f).2.1
@[simp] theorem respEvch_ok (f : Fields) : respEvch (okResponse f) = f.evch := (okResponse_bytes f).2.2

theorem okResponse_bit (f : Fields) :
    (okResponse f).r0.getLsbD 0 = f.ev ∧ (okResponse f).r0.getLsbD 1 = f.fv ∧ (okResponse f).r0.getLsbD 2 = f.acc ∧
      (okResponse f).r0.getLsbD 3 = f.fcls ∧ (okResponse f).r0.getLsbD 4 = f.fsan := by
  refine ⟨?_, ?_, ?_, ?_, ?_⟩ <;> simp only [okResponse, BitVec.getLsbD_append, bit, BitVec.getLsbD_ofBool] <;> simp

@[simp] theorem respEv_ok (f : Fields) : respEv (okResponse f) = f.ev := (okResponse_bit f).1

theorem append_or_append {m n : Nat} (a c : BitVec m) (b d : BitVec n) :
    (a ++ b) ||| (c ++ d) = (a ||| c) ++ (b ||| d) := by
  ext i hi
  simp only [BitVec.getElem_or, BitVec.getElem_append]
  split <;> rfl
/-- The bitwise or of two responses' first words holds the or of each field. -/
theorem okResponse_or (F G : Fields) : (okResponse F).r0 ||| (okResponse G).r0 =
      (okResponse {
        cls := F.cls ||| G.cls, evch := F.evch ||| G.evch, fsan := F.fsan || G.fsan,
        fcls := F.fcls || G.fcls, acc := F.acc || G.acc, fv := F.fv || G.fv, ev := F.ev || G.ev}).r0 := by
  have hb : ∀ a b : Bool, bit a ||| bit b = bit (a || b) := by decide
  have key : ∀ (a b c d : BitVec 8) (f f' g g' h h' i i' j j' : Bool),
      (0#8 ++ a ++ b ++ 0#3 ++ bit f ++ bit g ++ bit h ++ bit i ++ bit j) |||
        (0#8 ++ c ++ d ++ 0#3 ++ bit f' ++ bit g' ++ bit h' ++ bit i' ++ bit j') =
      0#8 ++ (a ||| c) ++ (b ||| d) ++ 0#3 ++ bit (f || f') ++ bit (g || g') ++ bit (h || h') ++ bit (i || i') ++
        bit (j || j') := by
    intros; simp only [append_or_append, hb, BitVec.or_self]
  exact key ..

@[simp] theorem respErr_err (e : Err) : respErr (errResponse e) = errCode e := by cases e <;> decide
@[simp] theorem respEv_err (e : Err) : respEv (errResponse e) = false := by cases e <;> decide
@[simp] theorem respCls_err (e : Err) : respCls (errResponse e) = 0#8 := by cases e <;> decide
@[simp] theorem respEvch_err (e : Err) : respEvch (errResponse e) = 0#8 := by cases e <;> decide

theorem errCode_range (e : Err) : 1 ≤ (errCode e).toNat ∧ (errCode e).toNat ≤ 5 := by cases e <;> decide

theorem isChannel_iff (cfg : Cfg) (ch : Chan) : isChannel cfg ch = true ↔ ¬(ch.toNat = 0 ∨ cfg.nCh < ch.toNat) := by
  simp [isChannel]; omega

theorem isChanOpt_iff (cfg : Cfg) (ch : Chan) : isChanOpt cfg ch = true ↔ ¬cfg.nCh < ch.toNat := by
  simp [isChanOpt]

theorem satSucc_toNat (n : BitVec 16) : (satSucc n).toNat = min (n.toNat + 1) 65535 := by
  rw [satSucc, BitVec.toNat_ofNat]; apply Nat.mod_eq_of_lt; omega

/-- An entry depends on the table only. -/
theorem calEntry_congr {s t : State} (h : s.cal = t.cal) (c : Nat) : calEntry s c = calEntry t c := by
  cases c <;> simp [calEntry, h]

theorem calCount_congr {s t : State} (h : s.cal = t.cal) (hc : s.cfg = t.cfg) : calCount s = calCount t := by
  simp only [calCount, hc, calEntry_congr h]

theorem calFull_congr {s t : State} (h : s.cal = t.cal) (hc : s.cfg = t.cfg) : calFull s = calFull t := by
  simp only [calFull, hc, calCount_congr h hc]

theorem lookup_congr {s t : State} (h : s.cal = t.cal) (hc : s.cfg = t.cfg) (no : Bool) (c : Nat) :
    lookup s no c = lookup t no c := by
  simp only [lookup, hc, calFull_congr h hc, calEntry_congr h]

theorem classify_congr {s t : State} (h : s.cal = t.cal) (hc : s.cfg = t.cfg) (f : Option Word) (no : Bool) :
    classify s f no = classify t f no := by
  cases f with
  | none => rfl
  | some w => simp only [classify, hc, funext (lookup_congr h hc no)]

/-- Under Nominal alone a classification depends on the build only. -/
theorem classify_nominal_congr {s t : State} (hc : s.cfg = t.cfg) (f : Option Word) :
    classify s f true = classify t f true := by
  have h : lookup s true = lookup t true := by funext c; simp [lookup, hc]
  cases f with
  | none => rfl
  | some w => simp only [classify, hc, h]

/-- CALFULL: every entry is valid. -/
theorem calFull_iff (s : State) :
    calFull s = true ↔ ∀ e, 1 ≤ e → e ≤ s.cfg.nCh → (calEntry s e).valid = true := by
  have hl : s.cfg.nCh = (List.range s.cfg.nCh).length := List.length_range.symm
  rw [calFull, beq_iff_eq, calCount]
  conv_lhs => rhs; rw [hl]
  rw [List.countP_eq_length]
  simp only [List.mem_range]
  constructor
  · intro h e h1 h2
    have := h (e - 1) (by omega)
    rwa [Nat.sub_add_cancel h1] at this
  · exact fun h i hi => h (i + 1) (by omega) (by omega)

theorem calFull_eq_false_iff (s : State) :
    calFull s = false ↔ ∃ e, 1 ≤ e ∧ e ≤ s.cfg.nCh ∧ (calEntry s e).valid = false := by
  rw [← Bool.not_eq_true, calFull_iff]
  push Not
  simp

theorem calCount_le (s : State) : calCount s ≤ s.cfg.nCh := by
  have := List.countP_le_length (p := fun i => (calEntry s (i + 1)).valid) (l := List.range s.cfg.nCh)
  simpa [calCount] using this

/-- Writing an entry of a table of the right size. -/
theorem calEntry_writeCal {s : State} {ch : Chan} {w : Word} (h1 : 1 ≤ ch.toNat) (h2 : ch.toNat ≤ s.cal.length)
    (c : Nat) : calEntry (writeCal ch w s) c = if c = ch.toNat then ⟨true, w⟩ else calEntry s c := by
  cases c with
  | zero => simp [calEntry]; omega
  | succ i =>
    simp only [calEntry, writeCal_cal, List.getD_eq_getElem?_getD, List.getElem?_set]
    by_cases h : ch.toNat - 1 = i
    · rw [if_pos h, if_pos (by omega), if_pos (by omega)]; rfl
    · rw [if_neg h, if_neg (by omega)]

theorem calEntry_replicate {s : State} {n : Nat} (h : s.cal = List.replicate n CalEntry.empty) (c : Nat) :
    calEntry s c = ⟨false, 0#32⟩ := by
  cases c with
  | zero => rfl
  | succ i => simp only [calEntry, h, List.getD_eq_getElem?_getD, List.getElem?_replicate]; split <;> rfl

theorem absDiff_eq (a b : Nat) : absDiff a b = Int.natAbs ((a : Int) - b) := by unfold absDiff; omega

/-- The scan keeps the lowest entry of least distance. -/
theorem scanTable_spec (T : Nat → Nat) (f n : Nat) :
    1 ≤ (scanTable T f n).1 ∧ (scanTable T f n).1 ≤ n + 1 ∧ (scanTable T f n).2 = absDiff f (T (scanTable T f n).1) ∧
      (∀ e, 1 ≤ e → e ≤ n + 1 → (scanTable T f n).2 ≤ absDiff f (T e)) ∧
      ∀ e, 1 ≤ e → e < (scanTable T f n).1 → (scanTable T f n).2 < absDiff f (T e) := by
  induction n with
  | zero =>
    refine ⟨le_rfl, le_rfl, rfl, fun e h1 h2 => ?_, fun e h1 h2 => ?_⟩
    · have : e = 1 := by omega
      subst this; exact le_rfl
    · simp [scanTable] at h2; omega
  | succ n ih =>
    obtain ⟨i1, i2, i3, i4, i5⟩ := ih
    simp only [scanTable]
    split_ifs with h
    · refine ⟨by simp, le_rfl, rfl, fun e h1 h2 => ?_, fun e h1 h2 => ?_⟩
      · rcases Nat.lt_or_ge e (n + 2) with h3 | h3
        · exact h.le.trans (i4 e h1 (by omega))
        · have : e = n + 2 := by omega
          subst this; exact le_rfl
      · exact h.trans_le (i4 e h1 (by simp at h2; omega))
    · refine ⟨i1, by omega, i3, fun e h1 h2 => ?_, i5⟩
      rcases Nat.lt_or_ge e (n + 2) with h3 | h3
      · exact i4 e h1 (by omega)
      · have : e = n + 2 := by omega
        subst this; omega

/-- A classification is a channel of the build or none. -/
theorem classify_le (s : State) (f : Option Word) (no : Bool) (h1 : 1 ≤ s.cfg.nCh) (h2 : s.cfg.nCh ≤ 255) :
    (classify s f no).toNat ≤ s.cfg.nCh := by
  cases f with
  | none => simp [classify]
  | some w =>
    simp only [classify]
    have := scanTable_spec (lookup s no) w.toNat (s.cfg.nCh - 1)
    split_ifs
    · rw [BitVec.toNat_ofNat, Nat.mod_eq_of_lt] <;> omega
    · simp

end Sys2Proof.Machine
end

