-- ==== Sys2Proof/Laws/Debouncer.lean ====
section
/-! SUPPORT. What the debouncer's operations do (43_debouncer.md). -/

namespace Sys2Proof.Machine

theorem pushHist_fill (c : Chan) (d : Debouncer) :
    (pushHist c d).histFill.toNat = min (d.histFill.toNat + 1) 3 := by
  have := d.histFill.isLt
  unfold pushHist
  split <;> simp_all
  omega

/-- A push does not touch the run. -/
theorem pushHist_run (c : Chan) (d : Debouncer) :
    (pushHist c d).runCand = d.runCand ∧ (pushHist c d).runLen = d.runLen ∧ (pushHist c d).runSum = d.runSum ∧
      (pushHist c d).runCnt = d.runCnt ∧ (pushHist c d).runRep = d.runRep := by
  unfold pushHist; split <;> exact ⟨rfl, rfl, rfl, rfl, rfl⟩

/-- Extending a run changes its length, sum and count. -/
theorem extendRun_eq (f : Option Word) (d : Debouncer) :
    extendRun f d = { d with
      runLen := satSucc d.runLen, runSum := (extendRun f d).runSum, runCnt := (extendRun f d).runCnt } := by
  cases f with
  | none => rfl
  | some w => simp only [extendRun]; split <;> rfl

/-- A new run. -/
theorem startRun_eq (v : Chan) (f : Option Word) (d : Debouncer) :
    startRun v f d = { d with
      runCand := v, runLen := if v = 0#8 then 0#16 else 1#16, runSum := (startRun v f d).runSum,
      runCnt := (startRun v f d).runCnt, runRep := false } := by
  by_cases h : v = 0#8 <;> cases f <;> simp [startRun, h]

/-- The vote reads the three slots only. -/
theorem stable_congr {d e : Debouncer} (h0 : d.hist0 = e.hist0) (h1 : d.hist1 = e.hist1) (h2 : d.hist2 = e.hist2) :
    stable d = stable e := by
  simp only [stable, h0, h1, h2]

/-- The vote is none or one of the slots. -/
theorem stable_mem (d : Debouncer) : stable d = 0#8 ∨ stable d = d.hist0 ∨ stable d = d.hist1 := by
  unfold stable; split_ifs <;> simp

/-- Steps 2 to 4 do not touch the history. -/
theorem voteRun_hist (f : Option Word) (d : Debouncer) :
    (voteRun f d).hist0 = d.hist0 ∧ (voteRun f d).hist1 = d.hist1 ∧ (voteRun f d).hist2 = d.hist2 ∧
      (voteRun f d).histFill = d.histFill := by
  unfold voteRun
  split_ifs
  · rw [extendRun_eq]; exact ⟨rfl, rfl, rfl, rfl⟩
  · rw [startRun_eq]; exact ⟨rfl, rfl, rfl, rfl⟩

/-- After steps 2 to 4 the run's candidate is the vote. -/
theorem voteRun_cand (f : Option Word) (d : Debouncer) : (voteRun f d).runCand = stable d := by
  unfold voteRun
  split_ifs with h
  · rw [extendRun_eq]; exact h.symm
  · rw [startRun_eq]

/-- Emission touches RUN_REP only. -/
theorem emit_state (s : State) : (emit s).1 = { s with deb := { s.deb with runRep := (emit s).1.deb.runRep } } := by
  unfold emit; split_ifs <;> rfl

/-- A DEBOUNCE touches the debouncer only. -/
theorem debounce_state (c : Chan) (f : Option Word) (s : State) :
    (debounce c f s).1 = { s with deb := (debounce c f s).1.deb } := by
  unfold debounce
  simp only
  split_ifs
  · rfl
  · conv_lhs => rw [emit_state]
    conv_rhs => rw [emit_state]

@[simp] theorem debounce_cfg (c : Chan) (f : Option Word) (s : State) : (debounce c f s).1.cfg = s.cfg := by
  rw [debounce_state]
@[simp] theorem debounce_cal (c : Chan) (f : Option Word) (s : State) : (debounce c f s).1.cal = s.cal := by
  rw [debounce_state]
@[simp] theorem debounce_calDone (c : Chan) (f : Option Word) (s : State) :
    (debounce c f s).1.calDone = s.calDone := by rw [debounce_state]
@[simp] theorem debounce_lastErr (c : Chan) (f : Option Word) (s : State) :
    (debounce c f s).1.lastErr = s.lastErr := by rw [debounce_state]
@[simp] theorem debounce_errCnt (c : Chan) (f : Option Word) (s : State) : (debounce c f s).1.errCnt = s.errCnt := by
  rw [debounce_state]
@[simp] theorem debounce_ovfCnt (c : Chan) (f : Option Word) (s : State) : (debounce c f s).1.ovfCnt = s.ovfCnt := by
  rw [debounce_state]
@[simp] theorem debounce_input (c : Chan) (f : Option Word) (s : State) : (debounce c f s).1.input = s.input := by
  rw [debounce_state]

/-- While the history fills: no run, no event. -/
theorem debounce_filling {c : Chan} {f : Option Word} {s : State} (h : s.deb.histFill.toNat < 2) :
    debounce c f s = ({ s with deb := pushHist c s.deb }, none) := by
  have := pushHist_fill c s.deb
  simp only [debounce]
  rw [if_pos (by omega)]

/-- On a full history: vote, run, emission. -/
theorem debounce_full {c : Chan} {f : Option Word} {s : State} (h : 2 ≤ s.deb.histFill.toNat) :
    debounce c f s = emit { s with deb := voteRun f (pushHist c s.deb) } := by
  have := pushHist_fill c s.deb
  simp only [debounce]
  rw [if_neg (by omega)]

/-- The history after a DEBOUNCE is the pushed one. -/
theorem debounce_hist (c : Chan) (f : Option Word) (s : State) :
    (debounce c f s).1.deb.hist0 = (pushHist c s.deb).hist0 ∧ (debounce c f s).1.deb.hist1 = (pushHist c s.deb).hist1 ∧
      (debounce c f s).1.deb.hist2 = (pushHist c s.deb).hist2 ∧
      (debounce c f s).1.deb.histFill = (pushHist c s.deb).histFill := by
  rcases Nat.lt_or_ge s.deb.histFill.toNat 2 with h | h
  · rw [debounce_filling h]; exact ⟨rfl, rfl, rfl, rfl⟩
  · rw [debounce_full h, emit_state]; exact voteRun_hist f _

/-- The vote after a DEBOUNCE is the vote of the pushed history. -/
theorem debounce_stable (c : Chan) (f : Option Word) (s : State) :
    stable (debounce c f s).1.deb = stable (pushHist c s.deb) := by
  obtain ⟨h0, h1, h2, -⟩ := debounce_hist c f s
  exact stable_congr h0 h1 h2

/-- A DEBOUNCE reads the build, the table and the debouncer only. -/
theorem debounce_congr {s t : State} (h1 : s.cfg = t.cfg) (h2 : s.cal = t.cal) (h3 : s.deb = t.deb) (c : Chan)
    (f : Option Word) : (debounce c f s).1.deb = (debounce c f t).1.deb ∧ (debounce c f s).2 = (debounce c f t).2 := by
  have hl : ∀ (e : Nat) (d : Debouncer), lookup { s with deb := d } false e = lookup { t with deb := d } false e :=
    fun e d => lookup_congr (s := { s with deb := d }) (t := { t with deb := d }) h2 h1 false e
  simp only [debounce, emit, toneFreq, h1, h3]
  have hl' := fun e d => by simpa only [h1] using hl e d
  split_ifs <;> simp [hl']

/-- DSTEP with a channel in range. -/
theorem exec_dstep {s : State} {ch : Chan} (f : Option Word) (h : ch.toNat ≤ s.cfg.nCh) :
    exec (.dstep ch f) s =
      .next (respond (toneFields (debounce ch f s).2 {}) (debounce ch f s).1) := by
  have : isChanOpt s.cfg ch = true := by simpa [isChanOpt] using h
  simp only [exec, execDstep, this]; rfl

/-- DSTEP with a channel out of range. -/
theorem exec_dstep_error {s : State} {ch : Chan} (f : Option Word) (h : s.cfg.nCh < ch.toNat) :
    exec (.dstep ch f) s = .next (raiseErr .badChannel s) := by
  have : isChanOpt s.cfg ch = false := by simp [isChanOpt]; omega
  simp only [exec, execDstep, this]; rfl

/-- The event on the response port. -/
theorem toneOut_respond {base : Fields} (h : base.ev = false) (t : Option Tone) (s : State) :
    toneOut (respond (toneFields t base) s) = t := by
  cases t with
  | none => simp [toneOut, respTone, toneFields, h]
  | some p => obtain ⟨c, f⟩ := p; simp [toneOut, respTone, toneFields]; rfl

theorem toneOut_raise (e : Err) (s : State) : toneOut (raiseErr e s) = none := by
  simp [toneOut, respTone]

end Sys2Proof.Machine
end

