-- ==== Sys2Proof/Laws/Commands.lean ====
section
/-! SUPPORT. Everything a command can do, said once. -/

namespace Sys2Proof.Machine

/-- The state part of a command that is performed. -/
def Effect (i : Instr) (s u : State) : Prop :=
  match i with
  | .nop => u = s
  | .anlz _ => u = s
  | .blk no ovf block =>
    u = (debounce (classify (countOverflow ovf s) (analyze s.cfg block) no) (analyze s.cfg block) (countOverflow ovf s)).1
  | .clsf _ _ => u = s
  | .calw ch f => ∃ w, f = some w ∧ isChannel s.cfg ch = true ∧ u = writeCal ch w s
  | .calt ch f => u = s ∨ ∃ w, f = some w ∧ isChannel s.cfg ch = true ∧ u = writeCal ch w s
  | .cclr => u = clearCal s
  | .cdone => u = s ∨ calFull s = true ∧ u = { s with calDone := true }
  | .dstep ch f => isChanOpt s.cfg ch = true ∧ u = (debounce ch f s).1
  | .dclr => u = clearDeb s
  | .frst => u = clearDeb (clearCal s)
  | .rdreg _ => u = s

/-- The event of a command that is performed. -/
def eventOf (i : Instr) (s : State) : Option Tone :=
  match i with
  | .blk no ovf block =>
    (debounce (classify (countOverflow ovf s) (analyze s.cfg block) no) (analyze s.cfg block) (countOverflow ovf s)).2
  | .dstep ch f => (debounce ch f s).2
  | _ => none

/-- A command either raises an error and does nothing else, or is performed: it has its effect and answers OK. -/
theorem exec_cases (i : Instr) (s : State) :
    ∃ t, exec i s = .next t ∧ ((∃ e, t = raiseErr e s) ∨
      ∃ F u, t = respond (toneFields (eventOf i s) F) u ∧ F.ev = false ∧ F.evch = 0#8 ∧ Effect i s u) := by
  cases i with
  | nop => exact ⟨_, rfl, .inr ⟨{}, s, rfl, rfl, rfl, rfl⟩⟩
  | anlz block =>
    simp only [exec, execAnlz]
    split_ifs
    · exact ⟨_, rfl, .inl ⟨_, rfl⟩⟩
    · refine ⟨_, rfl, .inr ⟨freqFields (analyze s.cfg block), s, rfl, ?_, ?_, rfl⟩⟩ <;>
        cases analyze s.cfg block <;> rfl
  | blk no ovf block =>
    simp only [exec, execBlk]
    split_ifs
    · exact ⟨_, rfl, .inl ⟨_, rfl⟩⟩
    · refine ⟨_, rfl, .inr ⟨_, _, by rw [countOverflow_cfg]; rfl, ?_, ?_, rfl⟩⟩ <;>
        cases analyze s.cfg block <;> rfl
  | clsf no f => exact ⟨_, rfl, .inr ⟨_, s, rfl, rfl, rfl, rfl⟩⟩
  | calw ch f =>
    simp only [exec, execCalw]
    split_ifs with h
    · exact ⟨_, rfl, .inl ⟨_, rfl⟩⟩
    · cases f with
      | none => exact ⟨_, rfl, .inl ⟨_, rfl⟩⟩
      | some w => exact ⟨_, rfl, .inr ⟨_, _, rfl, rfl, rfl, w, rfl, by simpa using h, rfl⟩⟩
  | calt ch f =>
    simp only [exec, execCalt]
    split_ifs with h
    · exact ⟨_, rfl, .inl ⟨_, rfl⟩⟩
    · cases f with
      | none => exact ⟨_, rfl, .inl ⟨_, rfl⟩⟩
      | some w =>
        simp only
        split_ifs
        · exact ⟨_, rfl, .inr ⟨_, _, rfl, rfl, rfl, .inr ⟨w, rfl, by simpa using h, rfl⟩⟩⟩
        · exact ⟨_, rfl, .inr ⟨_, _, rfl, rfl, rfl, .inl rfl⟩⟩
  | cclr => exact ⟨_, rfl, .inr ⟨{}, _, rfl, rfl, rfl, rfl⟩⟩
  | cdone =>
    simp only [exec, execCdone]
    split_ifs with h
    · exact ⟨_, rfl, .inr ⟨_, _, rfl, rfl, rfl, .inr ⟨h, rfl⟩⟩⟩
    · exact ⟨_, rfl, .inr ⟨{}, _, rfl, rfl, rfl, .inl rfl⟩⟩
  | dstep ch f =>
    simp only [exec, execDstep]
    split_ifs with h
    · exact ⟨_, rfl, .inl ⟨_, rfl⟩⟩
    · exact ⟨_, rfl, .inr ⟨{}, _, rfl, rfl, rfl, by simpa using h, rfl⟩⟩
  | dclr => exact ⟨_, rfl, .inr ⟨{}, _, rfl, rfl, rfl, rfl⟩⟩
  | frst => exact ⟨_, rfl, .inr ⟨{}, _, rfl, rfl, rfl, rfl⟩⟩
  | rdreg idx =>
    simp only [exec, execRdreg]
    cases regRead s idx with
    | none => exact ⟨_, rfl, .inl ⟨_, rfl⟩⟩
    | some v => exact ⟨_, rfl, .inr ⟨_, s, rfl, rfl, rfl, rfl⟩⟩

@[simp] theorem respErr_toneFields (t : Option Tone) (F : Fields) : respErr (okResponse (toneFields t F)) = 0#8 :=
  respErr_ok _

/-- What an effect leaves: the build, the input, and the record of errors. -/
theorem effect_frame {i : Instr} {s u : State} (h : Effect i s u) :
    u.cfg = s.cfg ∧ u.input = s.input ∧ u.lastErr = s.lastErr ∧ u.errCnt = s.errCnt := by
  cases i <;> simp only [Effect] at h
  all_goals first
    | (subst h; simp)
    | (obtain ⟨w, -, -, rfl⟩ := h; simp; done)
    | (obtain rfl | ⟨w, -, -, rfl⟩ := h <;> simp)

/-- The commands that do not step the debouncer give no event. -/
theorem event_none {i : Instr} (h : isBlockStep i = false) (s : State) : eventOf i s = none := by
  cases i <;> first | rfl | simp [isBlockStep] at h

/-- The state after a command, as the two cases of `exec_cases`. -/
theorem after_cases (i : Instr) (s : State) :
    (∃ e, after i s = raiseErr e s) ∨
      ∃ F u, after i s = respond (toneFields (eventOf i s) F) u ∧ F.ev = false ∧ F.evch = 0#8 ∧ Effect i s u := by
  obtain ⟨t, ht, h⟩ := exec_cases i s
  have : after i s = t := by simp only [after, ht]
  rw [this]; exact h

/-- Only BLK and DSTEP give events. -/
theorem toneOut_after {i : Instr} (h : isBlockStep i = false) (s : State) : toneOut (after i s) = none := by
  obtain ⟨e, he⟩ | ⟨F, u, he, hF, -, -⟩ := after_cases i s
  · rw [he, toneOut_raise]
  · rw [he, toneOut_respond hF, event_none h]

end Sys2Proof.Machine
end

