-- ==== Sys2Proof/Laws/ConstantBlock.lean ====
section
/-! SUPPORT. The spectrum of a constant block (40_analyzer.md R93 (e)): its greatest searched magnitude is at bin 1. -/

namespace Sys2Proof.Machine

open Finset Complex

/-- A root of unity other than 1 sums to 0 over its order. -/
theorem geom_root {N : ℕ} {z : ℂ} (hz : z ^ N = 1) (h1 : z ≠ 1) : ∑ n ∈ range N, z ^ n = 0 := by
  have := mul_neg_geom_sum z N
  rw [hz, sub_self] at this
  exact (mul_eq_zero.mp this).resolve_left (sub_ne_zero.mpr h1.symm)

/-- The sum of `(1/2 − (u^n + v^n)/4)·z^n`, times its denominator, where `z^N = 1`, `u` and `v` are inverse to each
other and `u^N = u`, `v^N = v`. -/
theorem hann_geom {N : ℕ} {u v z : ℂ} (huv : u * v = 1) (hu : u ^ N = u) (hv : v ^ N = v) (hz : z ^ N = 1)
    (h1 : z ≠ 1) :
    (1 - u * z) * (1 - v * z) * ∑ n ∈ range N, (1 / 2 - (u ^ n + v ^ n) / 4) * z ^ n =
      -((2 - (u + v)) * (1 + z)) / 4 := by
  have e : ∑ n ∈ range N, (1 / 2 - (u ^ n + v ^ n) / 4) * z ^ n =
      1 / 2 * ∑ n ∈ range N, z ^ n - (∑ n ∈ range N, (u * z) ^ n + ∑ n ∈ range N, (v * z) ^ n) / 4 := by
    rw [mul_sum, ← sum_add_distrib, sum_div, ← sum_sub_distrib]
    exact sum_congr rfl fun n _ => by rw [mul_pow, mul_pow]; ring
  have gu := mul_neg_geom_sum (u * z) N
  have gv := mul_neg_geom_sum (v * z) N
  rw [mul_pow, hu, hz, mul_one] at gu
  rw [mul_pow, hv, hz, mul_one] at gv
  rw [e, geom_root hz h1]
  linear_combination (-(1 - v * z) / 4) * gu + (-(1 - u * z) / 4) * gv - (z / 2) * huv

theorem exp_add_exp_neg (t : ℝ) : exp (t * I) + exp (-t * I) = 2 * Real.cos t := by
  rw [Complex.ofReal_cos, Complex.cos]; ring

theorem exp_mul_exp_neg (t : ℝ) : exp (t * I) * exp (-t * I) = 1 := by
  rw [← Complex.exp_add]; simp

/-- The window of R88 by the `(N−1)`-th root of unity. -/
theorem hannWeight_eq_exp (N n : ℕ) :
    (hannWeight N n : ℂ) = 1 / 2 - (exp ((2 * Real.pi / (N - 1) : ℝ) * I) ^ n +
      exp (-(2 * Real.pi / (N - 1) : ℝ) * I) ^ n) / 4 := by
  set φ : ℝ := 2 * Real.pi / (N - 1) with hφ
  rw [← Complex.exp_nat_mul, ← Complex.exp_nat_mul]
  have := exp_add_exp_neg (n * φ)
  rw [show (n : ℂ) * (φ * I) = ((n * φ : ℝ) : ℂ) * I by push_cast; ring,
    show (n : ℂ) * (-φ * I) = -((n * φ : ℝ) : ℂ) * I by push_cast; ring, this, hannWeight,
    show 2 * Real.pi * n / ((N : ℝ) - 1) = n * φ by rw [hφ]; ring]
  push_cast; ring

theorem norm_denominator (φ θ : ℝ) :
    ‖(1 - exp (φ * I) * exp (-θ * I)) * (1 - exp (-φ * I) * exp (-θ * I))‖ = 2 * |Real.cos θ - Real.cos φ| := by
  have : (1 - exp (φ * I) * exp (-θ * I)) * (1 - exp (-φ * I) * exp (-θ * I)) =
      ((2 * (Real.cos θ - Real.cos φ) : ℝ) : ℂ) * exp ((-θ : ℝ) * I) := by
    have e1 := exp_add_exp_neg θ
    have e2 := exp_add_exp_neg φ
    push_cast at *
    linear_combination exp (-θ * I) ^ 2 * exp_mul_exp_neg φ - exp_mul_exp_neg θ - exp (-θ * I) * e2 + exp (-θ * I) * e1
  rw [this, norm_mul, Complex.norm_exp_ofReal_mul_I, mul_one, Complex.norm_real, Real.norm_eq_abs, abs_mul]
  norm_num

theorem norm_one_add_exp {θ : ℝ} (h0 : 0 ≤ θ) (h1 : θ ≤ Real.pi) :
    ‖1 + exp (-θ * I)‖ = 2 * Real.cos (θ / 2) := by
  have hc : 0 ≤ Real.cos (θ / 2) := Real.cos_nonneg_of_mem_Icc ⟨by linarith [Real.pi_pos], by linarith⟩
  have : 1 + exp (-θ * I) = ((2 * Real.cos (θ / 2) : ℝ) : ℂ) * exp ((-(θ / 2) : ℝ) * I) := by
    have e1 := exp_add_exp_neg (θ / 2)
    have e2 := exp_mul_exp_neg (θ / 2)
    have e3 : exp (-θ * I) = exp (-(θ / 2 : ℝ) * I) ^ 2 := by
      rw [← Complex.exp_nat_mul]; congr 1; push_cast; ring
    rw [e3]
    push_cast at *
    linear_combination -e2 + exp (-(θ / 2) * I) * e1
  rw [this, norm_mul, Complex.norm_exp_ofReal_mul_I, mul_one, Complex.norm_real, Real.norm_eq_abs,
    abs_of_nonneg (by linarith)]

/-- The root of unity of a searched bin is not 1, and its order divides N. -/
theorem bin_root {N k : ℕ} (hk : 1 ≤ k) (hkN : k < N) :
    exp (-(2 * Real.pi * k / N : ℝ) * I) ^ N = 1 ∧ exp (-(2 * Real.pi * k / N : ℝ) * I) ≠ 1 := by
  have hN0 : (N : ℂ) ≠ 0 := by exact_mod_cast (by omega : N ≠ 0)
  have hN0' : (N : ℝ) ≠ 0 := by exact_mod_cast (by omega : N ≠ 0)
  refine ⟨?_, ?_⟩
  · rw [← Complex.exp_nat_mul, Complex.exp_eq_one_iff]
    exact ⟨-k, by push_cast; field_simp⟩
  · rw [Ne, Complex.exp_eq_one_iff]
    rintro ⟨m, hm⟩
    have hm' : -(2 * Real.pi * k / N) = m * (2 * Real.pi) := by
      have := congrArg Complex.im hm
      simpa using this
    have : (k : ℝ) = -m * N := by
      field_simp at hm'; nlinarith [Real.pi_pos]
    have hk' : (k : ℤ) = -m * N := by exact_mod_cast this
    have h2 : 0 < -m := by by_contra h; nlinarith
    nlinarith [show (k : ℤ) < N by omega]

/-- The window's roots of unity have order N − 1. -/
theorem window_root {N : ℕ} (hN : 3 ≤ N) (e : ℤ) :
    exp (e * (2 * Real.pi / (N - 1) : ℝ) * I) ^ N = exp (e * (2 * Real.pi / (N - 1) : ℝ) * I) := by
  have hN3 : (3 : ℝ) ≤ N := by exact_mod_cast hN
  set φ : ℝ := 2 * Real.pi / (N - 1) with hφ
  have h : (N : ℂ) * (e * φ * I) = e * φ * I + e * (2 * Real.pi * I) := by
    have : ((N : ℝ) - 1) * φ = 2 * Real.pi := by rw [hφ]; field_simp [show (N : ℝ) - 1 ≠ 0 by linarith]
    have : ((N : ℂ) - 1) * φ = 2 * Real.pi := by exact_mod_cast this
    linear_combination (e * I) * this
  rw [← Complex.exp_nat_mul, h, Complex.exp_add, Complex.exp_int_mul_two_pi_mul_I, mul_one]

/-- The magnitude of a constant block at a searched bin, times the distance of the two cosines that the window and the
bin stand for. -/
theorem magnitude_constant {N k : ℕ} {x : List Int} {a : Int} (hN : 3 ≤ N) (hk : 1 ≤ k) (hkN : k ≤ (N - 1) / 2)
    (hx : ∀ n, n < N → x.getD n 0 = a) :
    |Real.cos (2 * Real.pi * k / N) - Real.cos (2 * Real.pi / (N - 1))| * magnitude N x k =
      |(a : ℝ)| * (1 - Real.cos (2 * Real.pi / (N - 1))) / 2 * Real.cos (Real.pi * k / N) := by
  obtain ⟨hz, h1⟩ := bin_root hk (by omega : k < N)
  have key := hann_geom (exp_mul_exp_neg (2 * Real.pi / (N - 1))) (by simpa using window_root hN 1)
    (by simpa using window_root hN (-1)) hz h1
  have hs : spectrum N x k = a * ∑ n ∈ range N, (1 / 2 - (exp ((2 * Real.pi / (N - 1) : ℝ) * I) ^ n +
      exp (-(2 * Real.pi / (N - 1) : ℝ) * I) ^ n) / 4) * exp (-(2 * Real.pi * k / N : ℝ) * I) ^ n := by
    rw [spectrum, mul_sum]
    refine sum_congr rfl fun n hn => ?_
    rw [hannWeight_eq_exp, hx n (mem_range.mp hn), ← Complex.exp_nat_mul (-(2 * Real.pi * k / N : ℝ) * I),
      show -2 * (Real.pi : ℂ) * I * k * n / N = n * (-(2 * Real.pi * k / N : ℝ) * I) by push_cast; ring]
    ring
  have hθ : 2 * Real.pi * k / N ≤ Real.pi := by
    have : (2 * k : ℝ) ≤ N := by exact_mod_cast (by omega : 2 * k ≤ N)
    rw [div_le_iff₀ (by exact_mod_cast (by omega : 0 < N))]
    nlinarith [Real.pi_pos]
  have hr := norm_one_add_exp (by positivity) hθ
  rw [magnitude, hs, norm_mul, Complex.norm_intCast]
  generalize (2 * Real.pi / (N - 1) : ℝ) = φ at *
  have hq : ‖(2 : ℂ) - (exp (φ * I) + exp (-φ * I))‖ = 2 * (1 - Real.cos φ) := by
    rw [exp_add_exp_neg, show (2 : ℂ) - 2 * (Real.cos φ : ℝ) = ((2 * (1 - Real.cos φ) : ℝ) : ℂ) by push_cast; ring,
      Complex.norm_real, Real.norm_eq_abs, abs_of_nonneg (by linarith [Real.cos_le_one φ])]
  have hn := congrArg norm key
  rw [norm_mul, norm_denominator, norm_div, norm_neg, norm_mul, hq, hr, Complex.norm_ofNat] at hn
  rw [show Real.pi * k / N = 2 * Real.pi * k / N / 2 by ring]
  linear_combination (|(a : ℝ)| / 2) * hn

/-- A constant block has its greatest searched magnitude at bin 1 (40_analyzer.md R93 (e)). -/
theorem magnitude_constant_le {N k : ℕ} {x : List Int} {a : Int} (hN : 3 ≤ N) (hk : 1 ≤ k) (hkN : k ≤ (N - 1) / 2)
    (hx : ∀ n, n < N → x.getD n 0 = a) : magnitude N x k ≤ magnitude N x 1 := by
  rcases Nat.eq_or_lt_of_le hk with rfl | hk2
  · exact le_rfl
  have h3 : (5 : ℝ) ≤ N := by exact_mod_cast (by omega : 5 ≤ N)
  have hp := Real.pi_pos
  have e1 := magnitude_constant hN le_rfl (by omega) hx
  have ek := magnitude_constant hN hk hkN hx
  set φ : ℝ := 2 * Real.pi / (N - 1) with hφ
  have hkN' : (2 * k : ℝ) ≤ N := by exact_mod_cast (by omega : 2 * k ≤ N)
  have hk2' : (2 : ℝ) ≤ k := by exact_mod_cast hk2
  have hφ3 : φ ≤ 3 * Real.pi / N := by
    rw [hφ, div_le_div_iff₀ (by linarith) (by linarith)]; nlinarith
  have hφ2 : φ ≤ Real.pi / 2 := by
    rw [hφ, div_le_div_iff₀ (by linarith) (by norm_num)]; nlinarith
  have h3N : 3 * Real.pi / N ≤ Real.pi := by rw [div_le_iff₀ (by linarith)]; nlinarith
  have hφ0 : 0 ≤ φ := div_nonneg (by linarith) (by linarith)
  have hθ1 : 2 * Real.pi * (1 : ℕ) / N < φ := by
    rw [hφ, div_lt_div_iff₀ (by linarith) (by linarith)]; push_cast; nlinarith
  have d1 : 0 < Real.cos (2 * Real.pi * (1 : ℕ) / N) - Real.cos φ :=
    sub_pos.mpr (Real.cos_lt_cos_of_nonneg_of_le_pi (by positivity) (by linarith) hθ1)
  have hsum : Real.cos (2 * Real.pi * (1 : ℕ) / N) + Real.cos (2 * Real.pi * 2 / N) ≤ 2 * Real.cos φ := by
    rw [Real.cos_add_cos]
    have c3 : Real.cos (3 * Real.pi / N) ≤ Real.cos φ := Real.cos_le_cos_of_nonneg_of_le_pi hφ0 h3N hφ3
    have c0 : 0 ≤ Real.cos φ := Real.cos_nonneg_of_mem_Icc ⟨by linarith, hφ2⟩
    have c1 : 0 ≤ Real.cos (Real.pi / N) := by
      apply Real.cos_nonneg_of_mem_Icc
      have : Real.pi / N ≤ Real.pi / 2 := by rw [div_le_div_iff₀ (by linarith) (by norm_num)]; nlinarith
      have : 0 ≤ Real.pi / N := by positivity
      constructor <;> linarith
    have c2 := Real.cos_le_one (Real.pi / N)
    rw [show (2 * Real.pi * (1 : ℕ) / N + 2 * Real.pi * 2 / N) / 2 = 3 * Real.pi / N by push_cast; ring,
      show (2 * Real.pi * (1 : ℕ) / N - 2 * Real.pi * 2 / N) / 2 = -(Real.pi / N) by push_cast; ring, Real.cos_neg]
    nlinarith [mul_le_mul_of_nonneg_right c3 c1, mul_le_mul_of_nonneg_left c2 c0]
  have ck : Real.cos (2 * Real.pi * k / N) ≤ Real.cos (2 * Real.pi * 2 / N) := by
    apply Real.cos_le_cos_of_nonneg_of_le_pi (by positivity)
    · rw [div_le_iff₀ (by linarith)]; nlinarith
    · gcongr
  have cc : Real.cos (Real.pi * k / N) ≤ Real.cos (Real.pi * (1 : ℕ) / N) := by
    apply Real.cos_le_cos_of_nonneg_of_le_pi (by positivity)
    · rw [div_le_iff₀ (by linarith)]; nlinarith
    · gcongr
  have hC : 0 ≤ |(a : ℝ)| * (1 - Real.cos φ) / 2 := by
    have := Real.cos_le_one φ
    have := abs_nonneg (a : ℝ)
    exact div_nonneg (mul_nonneg this (by linarith)) (by norm_num)
  rw [abs_of_pos d1] at e1
  rw [abs_of_neg (by linarith)] at ek
  have hm := norm_nonneg (spectrum N x k)
  rw [show ‖spectrum N x k‖ = magnitude N x k from rfl] at hm
  refine le_of_mul_le_mul_left ?_ d1
  calc _ ≤ -(Real.cos (2 * Real.pi * k / N) - Real.cos φ) * magnitude N x k := by gcongr; linarith
    _ ≤ _ := by rw [ek, e1]; gcongr

end Sys2Proof.Machine
end

