-- ==== Sys2Proof/Laws/Decode.lean ====
section
/-! SUPPORT. The fields of encoded words, packing, and what the command port gives. -/

namespace Sys2Proof

open Sys2Proof.Machine (extract_above extract_high extract_low)

theorem fieldOp_wordB (op : BitVec 8) (no ovf : Bool) (n : Nat) : fieldOp (wordB op no ovf n) = op :=
  (extract_above _ _ 8 8).trans ((extract_above _ _ 7 8).trans ((extract_above _ _ 6 8).trans (extract_high ..)))

theorem fieldOp_wordF (op ch : BitVec 8) (no : Bool) (f : Option Word) : fieldOp (wordF op ch no f) = op :=
  (extract_above _ _ 23 8).trans ((extract_above _ _ 22 8).trans ((extract_above _ _ 8 8).trans (extract_high ..)))

theorem fieldOp_wordR (op idx : BitVec 8) : fieldOp (op ++ idx ++ 0#16) = op :=
  (extract_above _ _ 8 8).trans (extract_high ..)

theorem fieldCount_wordB (op : BitVec 8) (no ovf : Bool) {n : Nat} (h : n ≤ 65535) :
    (fieldCount (wordB op no ovf n)).toNat = n :=
  (congrArg BitVec.toNat (extract_low ..)).trans (Nat.mod_eq_of_lt (by omega))

theorem fieldByte_wordF (op ch : BitVec 8) (no : Bool) (f : Option Word) : fieldByte (wordF op ch no f) = ch :=
  (extract_above _ _ 15 8).trans ((extract_above _ _ 14 8).trans ((extract_above _ _ 0 8).trans (extract_low ..)))

theorem fieldByte_wordR (op idx : BitVec 8) : fieldByte (op ++ idx ++ 0#16) = idx :=
  (extract_above _ _ 0 8).trans (extract_low ..)

theorem wordB_bits (op : BitVec 8) (no ovf : Bool) (n : Nat) :
    (wordB op no ovf n).getLsbD 17 = no ∧ (wordB op no ovf n).getLsbD 16 = ovf := by
  refine ⟨?_, ?_⟩ <;> simp only [wordB, BitVec.getLsbD_append, bit, BitVec.getLsbD_ofBool] <;> simp

theorem wordF_bits (op ch : BitVec 8) (no : Bool) (f : Option Word) :
    (wordF op ch no f).getLsbD 1 = no ∧ (wordF op ch no f).getLsbD 0 = f.isSome := by
  refine ⟨?_, ?_⟩ <;> simp only [wordF, BitVec.getLsbD_append, bit, BitVec.getLsbD_ofBool] <;> simp

theorem freqOperand_wordF (op ch : BitVec 8) (no : Bool) (f : Option Word) :
    freqOperand (wordF op ch no f) [freqWord f] = f := by
  rw [freqOperand, (wordF_bits op ch no f).2]
  cases f <;> simp [freqWord]

theorem packSamples_length : ∀ l : List Sample, (packSamples l).length = (l.length + 1) / 2
  | [] => rfl
  | [_] => by simp [packSamples]
  | _ :: _ :: rest => by
    simp only [packSamples, List.length_cons, packSamples_length rest]; omega

theorem wordSamples_append (b a : Sample) : wordSamples (b ++ a) = [a, b] :=
  congrArg₂ (fun x y => [x, y]) (extract_low b a) (extract_high b a)

theorem unpack_pack : ∀ l : List Sample, unpackSamples l.length (packSamples l) = l
  | [] => rfl
  | [a] => by
    simp only [unpackSamples, packSamples, List.flatMap_cons, List.flatMap_nil, wordSamples_append]; rfl
  | a :: b :: rest => by
    have ih := unpack_pack rest
    simp only [unpackSamples, packSamples, List.flatMap_cons, wordSamples_append, List.length_cons] at ih ⊢
    simp [ih]

/-- The first opcode table row with a given code is that row's own. -/
theorem opOf_of_code {w : Word} {o : Op} (h : fieldOp w = opCode o) : opOf w = some o := by
  rw [opOf, h]; cases o <;> rfl

theorem opOf_eq_some {w : Word} {o : Op} (h : opOf w = some o) : fieldOp w = opCode o := by
  have := List.find?_some h
  exact (beq_iff_eq.mp this).symm

/-- The operand words that an assigned opcode calls for. -/
theorem operandCount_of_code {w : Word} {o : Op} (h : fieldOp w = opCode o) :
    operandCount w = match opFormat o with
      | .z => 0
      | .b => ((fieldCount w).toNat + 1) / 2
      | .f => 1
      | .r => 0 := by
  cases hf : opFormat o <;> simp only [operandCount, opOf_of_code h, hf]

/-- A whole command is never incomplete. -/
theorem decodeCommand_ne_incomplete (w : Word) (ops : List Word) : decodeCommand w ops ≠ .error .incomplete := by
  unfold decodeCommand
  cases opOf w with
  | none => simp
  | some o => simp only; split <;> simp

/-- A stream is incomplete exactly where its operand words are too few. -/
theorem decode_incomplete_iff (w : Word) (ws : List Word) :
    decode (w :: ws) = .error .incomplete ↔ ws.length < operandCount w := by
  simp only [decode]
  split_ifs with h
  · simp [h]
  · have := decodeCommand_ne_incomplete w (ws.take (operandCount w))
    cases hd : decodeCommand w (ws.take (operandCount w)) with
    | ok i => simp [h]
    | error e => rw [hd] at this; simpa [h] using this

end Sys2Proof

namespace Sys2Proof.Machine

theorem takeWords_append (ops : List Word) (rest : List PortEvent) :
    takeWords ops.length (ops.map PortEvent.word ++ rest) = .got ops rest := by
  induction ops with
  | nil => rfl
  | cons w ops ih => simp only [List.length_cons, List.map_cons, List.cons_append, takeWords, ih]

theorem takeWords_short {n : Nat} {ws : List Word} (h : ws.length < n) :
    takeWords n (ws.map PortEvent.word) = .short := by
  induction ws generalizing n with
  | nil => cases n with
    | zero => simp at h
    | succ n => rfl
  | cons w ws ih => cases n with
    | zero => simp at h
    | succ n => simp only [List.map_cons, takeWords, ih (n := n) (by simpa using h)]

theorem takeWords_rst {n : Nat} {ws : List Word} (h : ws.length < n) (rest : List PortEvent) :
    takeWords n (ws.map PortEvent.word ++ .rst :: rest) = .reset rest := by
  induction ws generalizing n with
  | nil => cases n with
    | zero => simp at h
    | succ n => rfl
  | cons w ws ih => cases n with
    | zero => simp at h
    | succ n => simp only [List.map_cons, List.cons_append, takeWords, ih (n := n) (by simpa using h)]

/-- What `fetch` finds after a command word and its operand words. -/
theorem fetch_words (w : Word) (ops : List Word) (rest : List PortEvent) (h : ops.length = operandCount w) :
    fetch (.word w :: (ops.map PortEvent.word ++ rest)) =
      match decodeCommand w ops with
      | .ok i => .command i rest
      | .error _ => .illegal rest := by
  cases hd : decodeCommand w ops <;> simp only [fetch, ← h, takeWords_append, hd]

end Sys2Proof.Machine
end

