-- ==== Sys2Proof/Laws/Roots.lean ====
section
/-! SUPPORT. The integer roots of unity of Machine/Spectrum.lean are within 3 of the real ones. -/

namespace Sys2Proof.Machine

open Finset

theorem arctanInvSum_eq (x n : ℕ) :
    ((arctanInvSum x n : ℚ) : ℝ) =
      ∑ i ∈ range n, (-1 : ℝ) ^ i * ((x : ℝ)⁻¹) ^ (2 * i + 1) / ((2 * i + 1 : ℕ) : ℝ) := by
  induction n with
  | zero => simp [arctanInvSum]
  | succ n ih =>
    rw [sum_range_succ, ← ih, arctanInvSum, Rat.mkRat_eq_div]
    push_cast
    rw [inv_pow, div_eq_mul_inv, mul_inv, div_eq_mul_inv]
    ring

theorem arctan_sub_sum_le {t : ℝ} (h0 : 0 ≤ t) (h1 : t ≤ 1 / 2) (n : ℕ) :
    |Real.arctan t - ∑ i ∈ range n, (-1 : ℝ) ^ i * t ^ (2 * i + 1) / ((2 * i + 1 : ℕ) : ℝ)| ≤
      2 * t ^ (2 * n + 1) := by
  have hn : ‖t‖ < 1 := by rw [Real.norm_of_nonneg h0]; linarith
  have hs := (hasSum_nat_add_iff' n).mpr (Real.hasSum_arctan hn)
  rw [← hs.tsum_eq, ← Real.norm_eq_abs]
  have hg : HasSum (fun i : ℕ => t ^ (2 * n + 1) * (1 / 2 : ℝ) ^ i) (t ^ (2 * n + 1) * 2) := by
    have h := (hasSum_geometric_of_lt_one (r := (1 / 2 : ℝ)) (by norm_num) (by norm_num)).mul_left
      (t ^ (2 * n + 1))
    rwa [show ((1 : ℝ) - 1 / 2)⁻¹ = 2 by norm_num] at h
  refine (tsum_of_norm_bounded hg fun i => ?_).trans (by linarith)
  rw [norm_div, norm_mul, norm_pow, norm_neg, norm_one, one_pow, one_mul, norm_pow,
    Real.norm_of_nonneg h0, Real.norm_of_nonneg (by positivity)]
  have h2 : t ^ (2 * (i + n) + 1) ≤ t ^ (2 * n + 1) * (1 / 2) ^ i := by
    have : t ^ (2 * (i + n) + 1) = t ^ (2 * n + 1) * (t * t) ^ i := by
      rw [← pow_two, ← pow_mul, ← pow_add]; congr 1; ring
    rw [this]
    gcongr
    nlinarith
  refine (div_le_self (by positivity) ?_).trans h2
  push_cast
  have : (0 : ℝ) ≤ i := by positivity
  have : (0 : ℝ) ≤ n := by positivity
  linarith

theorem floor_near (q : ℚ) : |((q.floor : ℤ) : ℝ) - (q : ℝ)| ≤ 1 := by
  have h : ((q.floor : ℤ) : ℝ) = (⌊(q : ℝ)⌋ : ℝ) := by rw [Rat.floor_cast]; rfl
  rw [h, abs_le]
  have := Int.floor_le (q : ℝ)
  have := Int.lt_floor_add_one (q : ℝ)
  constructor <;> linarith

theorem piApprox_near (q : ℕ) : |((piApprox q : ℚ) : ℝ) - Real.pi| ≤ 2 / 2 ^ q := by
  set s : ℚ := 16 * arctanInvSum 5 (q + 2) - 4 * arctanInvSum 239 (q + 2) with hs
  have h2 : (0 : ℝ) < 2 ^ q := by positivity
  have hpi : Real.pi = 16 * Real.arctan (5 : ℝ)⁻¹ - 4 * Real.arctan (239 : ℝ)⁻¹ := by
    have := Real.four_mul_arctan_inv_5_sub_arctan_inv_239
    linarith
  have hA := arctan_sub_sum_le (t := (5 : ℝ)⁻¹) (by norm_num) (by norm_num) (q + 2)
  have hB := arctan_sub_sum_le (t := (239 : ℝ)⁻¹) (by norm_num) (by norm_num) (q + 2)
  have e5 := arctanInvSum_eq 5 (q + 2)
  have e239 := arctanInvSum_eq 239 (q + 2)
  push_cast at e5 e239 hA hB
  rw [← e5] at hA
  rw [← e239] at hB
  have hs' : (s : ℝ) = 16 * (arctanInvSum 5 (q + 2) : ℝ) - 4 * (arctanInvSum 239 (q + 2) : ℝ) := by
    rw [hs]; push_cast; rfl
  have p5 : ((5 : ℝ)⁻¹) ^ (2 * (q + 2) + 1) ≤ (1 / 64) / 2 ^ q := by
    have : ((5 : ℝ)⁻¹) ^ (2 * (q + 2) + 1) = (5⁻¹) ^ 5 * ((5⁻¹) ^ 2) ^ q := by
      rw [← pow_mul, ← pow_add]; congr 1; ring
    rw [this, div_eq_mul_inv (1 / 64 : ℝ), ← inv_pow]
    gcongr <;> norm_num
  have p239 : ((239 : ℝ)⁻¹) ^ (2 * (q + 2) + 1) ≤ (1 / 64) / 2 ^ q := by
    refine le_trans ?_ p5
    gcongr
    norm_num
  have hsp : |(s : ℝ) - Real.pi| ≤ 1 / 2 ^ q := by
    rw [hpi, hs', abs_le]
    rw [abs_le] at hA hB
    have : (1 : ℝ) / 2 ^ q = 64 * ((1 / 64) / 2 ^ q) := by ring
    constructor <;> linarith [hA.1, hA.2, hB.1, hB.2]
  have hf := floor_near (s * ((2 ^ q : ℕ) : ℚ))
  have e : ((piApprox q : ℚ) : ℝ) = (((s * ((2 ^ q : ℕ) : ℚ)).floor : ℤ) : ℝ) / 2 ^ q := by
    rw [piApprox, Rat.mkRat_eq_div]; push_cast; rfl
  have hf' : |((piApprox q : ℚ) : ℝ) - s| ≤ 1 / 2 ^ q := by
    rw [e]
    have : (((s * ((2 ^ q : ℕ) : ℚ)).floor : ℤ) : ℝ) / 2 ^ q - s =
        ((((s * ((2 ^ q : ℕ) : ℚ)).floor : ℤ) : ℝ) - ((s * ((2 ^ q : ℕ) : ℚ) : ℚ) : ℝ)) / 2 ^ q := by
      push_cast; field_simp
    rw [this, abs_div, abs_of_pos h2]
    gcongr
  calc |((piApprox q : ℚ) : ℝ) - Real.pi| ≤ |((piApprox q : ℚ) : ℝ) - s| + |(s : ℝ) - Real.pi| := abs_sub_le _ _ _
    _ ≤ 1 / 2 ^ q + 1 / 2 ^ q := add_le_add hf' hsp
    _ = 2 / 2 ^ q := by ring

/-- A pair of rationals as a complex number. -/
noncomputable def ratPair (z : ℚ × ℚ) : ℂ := ((z.1 : ℝ) : ℂ) + ((z.2 : ℝ) : ℂ) * Complex.I

theorem cisHorner_eq (θ : ℚ) (n : ℕ) : ∀ j : ℕ,
    (((θ : ℝ) : ℂ) * Complex.I) ^ j / (j.factorial : ℂ) * ratPair (cisHorner θ n (j + 1)) =
      ∑ m ∈ range (n + 1), (((θ : ℝ) : ℂ) * Complex.I) ^ (j + m) / ((j + m).factorial : ℂ) := by
  induction n with
  | zero => intro j; simp [cisHorner, ratPair]
  | succ n ih =>
    intro j
    have hstep : ratPair (cisHorner θ (n + 1) (j + 1)) =
        1 + ((θ : ℝ) : ℂ) * Complex.I / ((j + 1 : ℕ) : ℂ) * ratPair (cisHorner θ n (j + 1 + 1)) := by
      have hI := Complex.I_sq
      simp only [cisHorner, ratPair]
      push_cast
      have : (((j : ℂ) + 1)) ≠ 0 := by exact_mod_cast Nat.succ_ne_zero j
      field_simp
      linear_combination (-(θ : ℂ) * ((cisHorner θ n (j + 1 + 1)).2 : ℂ)) * hI
    rw [sum_range_succ', hstep, mul_add, mul_one, add_zero, add_comm]
    congr 1
    have := ih (j + 1)
    have hfac : ((j + 1).factorial : ℂ) = ((j + 1 : ℕ) : ℂ) * (j.factorial : ℂ) := by
      rw [Nat.factorial_succ]; push_cast; ring
    have h1 : ((j + 1 : ℕ) : ℂ) ≠ 0 := by exact_mod_cast Nat.succ_ne_zero j
    have h2 : (j.factorial : ℂ) ≠ 0 := by exact_mod_cast j.factorial_ne_zero
    calc _ = (((θ : ℝ) : ℂ) * Complex.I) ^ (j + 1) / ((j + 1).factorial : ℂ) *
          ratPair (cisHorner θ n (j + 1 + 1)) := by
            rw [hfac, pow_succ]; field_simp
      _ = _ := by
            rw [this]
            refine sum_congr rfl fun m _ => ?_
            rw [show j + 1 + m = j + (m + 1) by ring]

theorem cisHorner_series (θ : ℚ) (n : ℕ) :
    ratPair (cisHorner θ n 1) =
      ∑ m ∈ range (n + 1), (((θ : ℝ) : ℂ) * Complex.I) ^ m / (m.factorial : ℂ) := by
  simpa using cisHorner_eq θ n 0

theorem tail_le {a : ℝ} (h0 : 0 ≤ a) (h1 : a ≤ 7) (t : ℕ) :
    a ^ (27 + t) / ((27 + t).factorial : ℝ) ≤ 1 / 1000 * (1 / 4) ^ t := by
  induction t with
  | zero =>
    have : a ^ 27 ≤ 7 ^ 27 := by gcongr
    rw [div_le_iff₀ (by positivity)]
    refine this.trans ?_
    norm_num [Nat.factorial]
  | succ t ih =>
    rw [← add_assoc, Nat.factorial_succ, pow_succ]
    push_cast
    have hf : (0 : ℝ) < ((27 + t).factorial : ℝ) := by positivity
    have e : a ^ (27 + t) * a / ((27 + (t : ℝ) + 1) * ((27 + t).factorial : ℝ)) =
        (a ^ (27 + t) / ((27 + t).factorial : ℝ)) * (a / (27 + (t : ℝ) + 1)) := by
      field_simp
    rw [e, pow_succ, ← mul_assoc]
    have ht : (0 : ℝ) ≤ t := by positivity
    have h4 : a / (27 + (t : ℝ) + 1) ≤ 1 / 4 := by
      rw [div_le_iff₀ (by linarith)]; linarith
    gcongr

theorem cisHorner_near {θ : ℚ} {φ : ℝ} (p : ℕ) (h0 : |(θ : ℝ)| ≤ 7) (h : |(θ : ℝ) - φ| ≤ 1 / (2 * 2 ^ p)) :
    ‖ratPair (cisHorner θ (26 + p / 2) 1) - Complex.exp ((φ : ℂ) * Complex.I)‖ ≤ 1 / 2 ^ p := by
  rw [cisHorner_series]
  set a : ℂ := ((θ : ℝ) : ℂ) * Complex.I with ha
  have hna : ‖a‖ = |(θ : ℝ)| := by rw [ha, norm_mul, Complex.norm_I, mul_one, Complex.norm_real, Real.norm_eq_abs]
  have hb : ‖Complex.exp a - ∑ m ∈ range (26 + p / 2 + 1), a ^ m / (m.factorial : ℂ)‖ ≤
      ‖a‖ ^ (26 + p / 2 + 1) / ((26 + p / 2 + 1).factorial : ℝ) * 2 := by
    apply Complex.exp_bound'
    rw [hna, div_le_iff₀ (by positivity)]
    push_cast
    have : (0 : ℝ) ≤ ((p / 2 : ℕ) : ℝ) := by positivity
    linarith
  have ht := tail_le (abs_nonneg (θ : ℝ)) h0 (p / 2)
  rw [hna, show 26 + p / 2 + 1 = 27 + p / 2 by ring] at hb
  have hq : (1 / 4 : ℝ) ^ (p / 2) ≤ 2 / 2 ^ p := by
    rw [show (1 / 4 : ℝ) = (1 / 2) ^ 2 by norm_num, ← pow_mul, div_pow, one_pow,
      div_le_div_iff₀ (by positivity) (by positivity), one_mul, ← pow_succ']
    exact pow_le_pow_right₀ (by norm_num) (by omega)
  have he : ‖Complex.exp a - Complex.exp ((φ : ℂ) * Complex.I)‖ ≤ 1 / (2 * 2 ^ p) := by
    have e : Complex.exp a - Complex.exp ((φ : ℂ) * Complex.I) =
        Complex.exp ((φ : ℂ) * Complex.I) * (Complex.exp (Complex.I * (((θ : ℝ) - φ : ℝ) : ℂ)) - 1) := by
      rw [mul_sub, mul_one, ← Complex.exp_add]
      congr 2
      rw [ha]; push_cast; ring
    rw [e, norm_mul, Complex.norm_exp_ofReal_mul_I, one_mul]
    exact (Real.norm_exp_I_mul_ofReal_sub_one_le).trans (by rwa [Real.norm_eq_abs])
  rw [show 26 + p / 2 + 1 = 27 + p / 2 by ring]
  calc _ = ‖(Complex.exp a - Complex.exp ((φ : ℂ) * Complex.I)) -
        (Complex.exp a - ∑ m ∈ range (27 + p / 2), a ^ m / (m.factorial : ℂ))‖ := by congr 1; ring
    _ ≤ 1 / (2 * 2 ^ p) + |(θ : ℝ)| ^ (27 + p / 2) / ((27 + p / 2).factorial : ℝ) * 2 :=
        (norm_sub_le _ _).trans (add_le_add he hb)
    _ ≤ 1 / (2 * 2 ^ p) + 1 / 1000 * (2 / 2 ^ p) * 2 := by
        gcongr
        exact ht.trans (by gcongr)
    _ ≤ 1 / 2 ^ p := by
        have : (0 : ℝ) < 2 ^ p := by positivity
        rw [← sub_nonneg]
        have e : (1 : ℝ) / 2 ^ p - (1 / (2 * 2 ^ p) + 1 / 1000 * (2 / 2 ^ p) * 2) = (1 - 1 / 2 - 4 / 1000) / 2 ^ p := by
          field_simp; ring
        rw [e]; positivity

/-- Both parts of an integer root of unity are within 3 of `2^p` times the real ones. -/
theorem unitRoot_near (p M m : ℕ) (hM : 0 < M) (hm : m ≤ M) :
    |((unitRoot p (piApprox (p + 4)) M m).1 : ℝ) - 2 ^ p * Real.cos (2 * Real.pi * m / M)| ≤ 3 ∧
      |((unitRoot p (piApprox (p + 4)) M m).2 : ℝ) - 2 ^ p * Real.sin (2 * Real.pi * m / M)| ≤ 3 := by
  have h2 : (0 : ℝ) < 2 ^ p := by positivity
  set θ : ℚ := 2 * piApprox (p + 4) * m / M with hθ
  set φ : ℝ := 2 * Real.pi * m / M with hφ
  have hMr : (0 : ℝ) < M := by exact_mod_cast hM
  have hr : (m : ℝ) / M ≤ 1 := by rw [div_le_one hMr]; exact_mod_cast hm
  have hr0 : 0 ≤ (m : ℝ) / M := by positivity
  have hpi := piApprox_near (p + 4)
  have hd : |(θ : ℝ) - φ| ≤ 1 / (2 * 2 ^ p) := by
    have e : (θ : ℝ) - φ = 2 * (((piApprox (p + 4) : ℚ) : ℝ) - Real.pi) * ((m : ℝ) / M) := by
      rw [hθ, hφ]; push_cast; ring
    rw [e, abs_mul, abs_mul, abs_of_nonneg hr0, abs_of_pos (by norm_num : (0 : ℝ) < 2)]
    calc 2 * |((piApprox (p + 4) : ℚ) : ℝ) - Real.pi| * ((m : ℝ) / M) ≤ 2 * (2 / 2 ^ (p + 4)) * 1 := by gcongr
      _ ≤ 1 / (2 * 2 ^ p) := by
        rw [pow_add, mul_one, mul_div_assoc', div_le_div_iff₀ (by positivity) (by positivity)]
        nlinarith
  have hb : |(θ : ℝ)| ≤ 7 := by
    have hθ' : (θ : ℝ) = 2 * ((piApprox (p + 4) : ℚ) : ℝ) * ((m : ℝ) / M) := by rw [hθ]; push_cast; ring
    have h16 : (2 : ℝ) / 2 ^ (p + 4) ≤ 2 / 16 := by
      rw [pow_add]
      have : (1 : ℝ) ≤ 2 ^ p := one_le_pow₀ (by norm_num)
      rw [div_le_div_iff₀ (by positivity) (by norm_num)]
      nlinarith
    have hq : |((piApprox (p + 4) : ℚ) : ℝ)| ≤ 7 / 2 := by
      rw [abs_le] at hpi ⊢
      have := Real.pi_lt_d2
      have := Real.pi_pos
      constructor <;> linarith [hpi.1, hpi.2]
    rw [hθ', abs_mul, abs_mul, abs_of_nonneg hr0, abs_of_pos (by norm_num : (0 : ℝ) < 2)]
    calc 2 * |((piApprox (p + 4) : ℚ) : ℝ)| * ((m : ℝ) / M) ≤ 2 * (7 / 2) * 1 := by gcongr
      _ = 7 := by norm_num
  have hz := cisHorner_near (θ := θ) (φ := φ) p hb hd
  set z := cisHorner θ (26 + p / 2) 1 with hzd
  have hexp : Complex.exp ((φ : ℂ) * Complex.I) = ((Real.cos φ : ℝ) : ℂ) + ((Real.sin φ : ℝ) : ℂ) * Complex.I := by
    rw [Complex.exp_mul_I]; push_cast; rfl
  have hre : |(z.1 : ℝ) - Real.cos φ| ≤ 1 / 2 ^ p := by
    refine le_trans ?_ hz
    have := Complex.abs_re_le_norm (ratPair z - Complex.exp ((φ : ℂ) * Complex.I))
    rw [hexp] at this ⊢
    simpa [ratPair, -Complex.ofReal_cos, -Complex.ofReal_sin] using this
  have him : |(z.2 : ℝ) - Real.sin φ| ≤ 1 / 2 ^ p := by
    refine le_trans ?_ hz
    have := Complex.abs_im_le_norm (ratPair z - Complex.exp ((φ : ℂ) * Complex.I))
    rw [hexp] at this ⊢
    simpa [ratPair, -Complex.ofReal_cos, -Complex.ofReal_sin] using this
  have key : ∀ (q : ℚ) (c : ℝ), |(q : ℝ) - c| ≤ 1 / 2 ^ p →
      |(((q * ((2 ^ p : ℕ) : ℚ)).floor : ℤ) : ℝ) - 2 ^ p * c| ≤ 3 := by
    intro q c hq
    have hf := floor_near (q * ((2 ^ p : ℕ) : ℚ))
    have e : (((q * ((2 ^ p : ℕ) : ℚ) : ℚ)) : ℝ) - 2 ^ p * c = 2 ^ p * ((q : ℝ) - c) := by push_cast; ring
    have h1 : |(((q * ((2 ^ p : ℕ) : ℚ) : ℚ)) : ℝ) - 2 ^ p * c| ≤ 1 := by
      rw [e, abs_mul, abs_of_pos h2]
      calc (2 : ℝ) ^ p * |(q : ℝ) - c| ≤ 2 ^ p * (1 / 2 ^ p) := by gcongr
        _ = 1 := by field_simp
    exact (abs_sub_le _ _ _).trans (by linarith)
  exact ⟨key _ _ hre, key _ _ him⟩

end Sys2Proof.Machine
end

