-- ==== Sys2Proof/Laws/Enclosure.lean ====
section
/-! SUPPORT. The enclosures of Machine/Spectrum.lean hold the real values of 40_analyzer.md R88. -/

namespace Sys2Proof.Machine

open Finset

/-- `1 − cos (2πn/(N−1))`, twice the Hann weight. -/
noncomputable def hannTwice (N n : ℕ) : ℝ := 1 - Real.cos (2 * Real.pi * n / ((N : ℝ) - 1))

/-- Twice the real part of `X[k]`. -/
noncomputable def reSum (N : ℕ) (x : List Int) (k : ℕ) : ℝ :=
  ∑ n ∈ range N, (x.getD n 0 : ℝ) * hannTwice N n * Real.cos (2 * Real.pi * (k * n : ℕ) / N)

/-- Minus twice the imaginary part of `X[k]`. -/
noncomputable def imSum (N : ℕ) (x : List Int) (k : ℕ) : ℝ :=
  ∑ n ∈ range N, (x.getD n 0 : ℝ) * hannTwice N n * Real.sin (2 * Real.pi * (k * n : ℕ) / N)

/-- `4·M[k]²`. -/
noncomputable def power (N : ℕ) (x : List Int) (k : ℕ) : ℝ := 4 * magnitude N x k ^ 2

theorem spectrum_eq (N : ℕ) (x : List Int) (k : ℕ) :
    2 * spectrum N x k = (reSum N x k : ℂ) - (imSum N x k : ℂ) * Complex.I := by
  rw [spectrum, reSum, imSum]
  push_cast
  rw [mul_sum, sum_mul, ← sum_sub_distrib]
  refine sum_congr rfl fun n _ => ?_
  have e : (-2 * (Real.pi : ℂ) * Complex.I * k * n / N) = (((-(2 * Real.pi * (k * n : ℕ) / N) : ℝ)) : ℂ) * Complex.I := by
    push_cast; ring
  rw [e, Complex.exp_mul_I, ← Complex.ofReal_cos, ← Complex.ofReal_sin, Real.cos_neg, Real.sin_neg, hannWeight, hannTwice]
  push_cast
  ring

theorem power_eq (N : ℕ) (x : List Int) (k : ℕ) : power N x k = reSum N x k ^ 2 + imSum N x k ^ 2 := by
  have h : (2 * magnitude N x k) ^ 2 = reSum N x k ^ 2 + imSum N x k ^ 2 := by
    have e : 2 * magnitude N x k = ‖(reSum N x k : ℂ) - (imSum N x k : ℂ) * Complex.I‖ := by
      rw [← spectrum_eq, norm_mul, magnitude]; simp
    rw [e, ← Complex.normSq_eq_norm_sq, Complex.normSq_apply]
    simp
    ring
  rw [power, ← h]; ring

theorem rootTable_getD {p M n j : ℕ} (h : j < n) (d : Int × Int) :
    (rootTable p M n).getD j d = unitRoot p (piApprox (p + 4)) M j := by
  simp [rootTable, List.getD_eq_getElem?_getD, List.getElem?_map, List.getElem?_range h]

theorem windowed_getD {p N i : ℕ} {x : List Int} (hx : x.length = N) (h : i < N) :
    (windowed p N x).getD i 0 = x.getD i 0 * (2 ^ p - (unitRoot p (piApprox (p + 4)) (N - 1) i).1) := by
  have hr : (rootTable p (N - 1) N)[i]? = some (unitRoot p (piApprox (p + 4)) (N - 1) i) := by
    simp [rootTable, List.getElem?_map, List.getElem?_range h]
  rw [windowed, List.getD_eq_getElem?_getD, List.getElem?_zipWith, hr]
  rw [List.getD_eq_getElem?_getD, List.getElem?_eq_getElem (hx ▸ h)]
  rfl

theorem windowed_length {p N : ℕ} {x : List Int} (hx : x.length = N) : (windowed p N x).length = N := by
  simp [windowed, rootTable, hx]

theorem dftSum_eq (roots : List (Int × Int)) (N k : ℕ) (ys : List Int) : ∀ n : ℕ,
    dftSum roots N k n ys =
      (∑ i ∈ range ys.length, ys.getD i 0 * (roots.getD (k * (n + i) % N) (0, 0)).1,
        ∑ i ∈ range ys.length, ys.getD i 0 * (roots.getD (k * (n + i) % N) (0, 0)).2) := by
  induction ys with
  | nil => intro n; simp [dftSum]
  | cons y ys ih =>
    intro n
    rw [dftSum, ih (n + 1), List.length_cons, sum_range_succ', sum_range_succ']
    simp only [List.getD_cons_zero, List.getD_cons_succ, add_zero, add_assoc, add_comm 1]
    rw [Prod.mk.injEq]
    constructor <;> rw [add_comm]

theorem cos_mod (k n N : ℕ) (hN : 0 < N) :
    Real.cos (2 * Real.pi * ((k * n % N : ℕ) : ℝ) / N) = Real.cos (2 * Real.pi * ((k * n : ℕ) : ℝ) / N) := by
  have hNr : (N : ℝ) ≠ 0 := by exact_mod_cast hN.ne'
  have e : (2 * Real.pi * ((k * n : ℕ) : ℝ) / N) =
      2 * Real.pi * ((k * n % N : ℕ) : ℝ) / N + ((k * n / N : ℕ) : ℝ) * (2 * Real.pi) := by
    conv_lhs => rw [← Nat.mod_add_div (k * n) N]
    push_cast
    field_simp
  rw [e, Real.cos_add_nat_mul_two_pi]

theorem sin_mod (k n N : ℕ) (hN : 0 < N) :
    Real.sin (2 * Real.pi * ((k * n % N : ℕ) : ℝ) / N) = Real.sin (2 * Real.pi * ((k * n : ℕ) : ℝ) / N) := by
  have hNr : (N : ℝ) ≠ 0 := by exact_mod_cast hN.ne'
  have e : (2 * Real.pi * ((k * n : ℕ) : ℝ) / N) =
      2 * Real.pi * ((k * n % N : ℕ) : ℝ) / N + ((k * n / N : ℕ) : ℝ) * (2 * Real.pi) := by
    conv_lhs => rw [← Nat.mod_add_div (k * n) N]
    push_cast
    field_simp
  rw [e, Real.sin_add_nat_mul_two_pi]

theorem absSum_eq {x : List Int} {N : ℕ} (hx : x.length = N) :
    ((absSum x : ℕ) : ℝ) = ∑ n ∈ range N, |(x.getD n 0 : ℝ)| := by
  subst hx
  induction x with
  | nil => simp [absSum]
  | cons a x ih =>
    rw [List.length_cons, sum_range_succ']
    simp only [List.getD_cons_succ, List.getD_cons_zero]
    rw [← ih]
    simp only [absSum, List.map_cons, List.sum_cons, Nat.cast_add]
    rw [add_comm]
    congr 1
    rw [Nat.cast_natAbs]; simp

theorem term_near {p : ℕ} {a w c : ℝ} {w' c' : ℝ} (hw : |w' - 2 ^ p * w| ≤ 3) (hw1 : |w| ≤ 1)
    (hc : |c' - 2 ^ p * c| ≤ 3) (hc1 : |c| ≤ 1) :
    |a * (2 ^ p - w') * c' - 2 ^ (2 * p) * (a * (1 - w) * c)| ≤ |a| * (9 * (2 ^ p + 1)) := by
  have h2 : (0 : ℝ) < 2 ^ p := by positivity
  have e : a * (2 ^ p - w') * c' - 2 ^ (2 * p) * (a * (1 - w) * c) =
      a * (-(w' - 2 ^ p * w) * c' + 2 ^ p * (1 - w) * (c' - 2 ^ p * c)) := by
    rw [show 2 ^ (2 * p) = (2 : ℝ) ^ p * 2 ^ p by rw [two_mul, pow_add]]; ring
  rw [e, abs_mul]
  refine mul_le_mul_of_nonneg_left ?_ (abs_nonneg a)
  have hc' : |c'| ≤ 2 ^ p + 3 := by
    have : |c'| ≤ |c' - 2 ^ p * c| + |2 ^ p * c| := by
      simpa using abs_add_le (c' - 2 ^ p * c) (2 ^ p * c)
    rw [abs_mul, abs_of_pos h2] at this
    nlinarith
  have hw2 : |1 - w| ≤ 2 := by
    rw [abs_le] at hw1 ⊢; constructor <;> linarith [hw1.1, hw1.2]
  refine (abs_add_le _ _).trans ?_
  rw [abs_mul, abs_mul, abs_mul, abs_neg, abs_of_pos h2]
  calc |w' - 2 ^ p * w| * |c'| + 2 ^ p * |1 - w| * |c' - 2 ^ p * c| ≤ 3 * (2 ^ p + 3) + 2 ^ p * 2 * 3 := by gcongr
    _ = 9 * (2 ^ p + 1) := by ring

/-- Both sums of a block are within `sumError` of their real values. -/
theorem dftSum_near {p N : ℕ} (hN : 2 ≤ N) {x : List Int} (hx : x.length = N) (k : ℕ) :
    |((dftSum (rootTable p N N) N k 0 (windowed p N x)).1 : ℝ) - 2 ^ (2 * p) * reSum N x k| ≤ sumError p (absSum x) ∧
      |((dftSum (rootTable p N N) N k 0 (windowed p N x)).2 : ℝ) - 2 ^ (2 * p) * imSum N x k| ≤ sumError p (absSum x) := by
  have hN0 : 0 < N := by omega
  have hE : ((sumError p (absSum x) : ℤ) : ℝ) = ∑ n ∈ range N, |(x.getD n 0 : ℝ)| * (9 * (2 ^ p + 1)) := by
    rw [← sum_mul, ← absSum_eq hx, sumError]; push_cast; ring
  have hw : ∀ n ∈ range N, |((unitRoot p (piApprox (p + 4)) (N - 1) n).1 : ℝ) -
      2 ^ p * Real.cos (2 * Real.pi * n / ((N : ℝ) - 1))| ≤ 3 := by
    intro n hn
    have := (unitRoot_near p (N - 1) n (by omega) (by have := mem_range.mp hn; omega)).1
    rwa [Nat.cast_sub (by omega), Nat.cast_one] at this
  rw [dftSum_eq, windowed_length hx, hE, reSum, imSum]
  push_cast
  rw [mul_sum, mul_sum, ← sum_sub_distrib, ← sum_sub_distrib]
  constructor
  · refine (abs_sum_le_sum_abs _ _).trans (sum_le_sum fun n hn => ?_)
    have hn' := mem_range.mp hn
    have hr := (unitRoot_near p N (k * n % N) hN0 (Nat.mod_lt _ hN0).le).1
    rw [cos_mod k n N hN0] at hr
    rw [windowed_getD hx hn', zero_add, rootTable_getD (Nat.mod_lt _ hN0), hannTwice]
    push_cast
    push_cast at hr
    exact term_near (hw n hn) (Real.abs_cos_le_one _) hr (Real.abs_cos_le_one _)
  · refine (abs_sum_le_sum_abs _ _).trans (sum_le_sum fun n hn => ?_)
    have hn' := mem_range.mp hn
    have hr := (unitRoot_near p N (k * n % N) hN0 (Nat.mod_lt _ hN0).le).2
    rw [sin_mod k n N hN0] at hr
    rw [windowed_getD hx hn', zero_add, rootTable_getD (Nat.mod_lt _ hN0), hannTwice]
    push_cast
    push_cast at hr
    exact term_near (hw n hn) (Real.abs_cos_le_one _) hr (Real.abs_sin_le_one _)

/-- A bin encloses `4·M[k]²` at precision `p`. -/
def Encloses (p N : ℕ) (x : List Int) (b : Bin) : Prop :=
  (b.lo : ℝ) ≤ 2 ^ (4 * p) * power N x b.k ∧ 2 ^ (4 * p) * power N x b.k ≤ b.hi

theorem square_near {z r e : ℝ} (h : |z - r| ≤ e) : |z ^ 2 - r ^ 2| ≤ e * (2 * |z| + e) := by
  have he : 0 ≤ e := (abs_nonneg _).trans h
  have e1 : z ^ 2 - r ^ 2 = (z - r) * (2 * z - (z - r)) := by ring
  rw [e1, abs_mul]
  gcongr
  calc |2 * z - (z - r)| ≤ |2 * z| + |z - r| := abs_sub _ _
    _ ≤ 2 * |z| + e := by rw [abs_mul, abs_two]; gcongr

theorem encloseBin_encloses {p N S k : ℕ} {x : List Int} {z : Int × Int}
    (h1 : |(z.1 : ℝ) - 2 ^ (2 * p) * reSum N x k| ≤ sumError p S)
    (h2 : |(z.2 : ℝ) - 2 ^ (2 * p) * imSum N x k| ≤ sumError p S) : Encloses p N x (encloseBin p S k z) := by
  have a1 := square_near h1
  have a2 := square_near h2
  have e4 : (2 : ℝ) ^ (4 * p) = (2 ^ (2 * p)) ^ 2 := by rw [← pow_mul]; congr 1; ring
  have e : 2 ^ (4 * p) * power N x k = (2 ^ (2 * p) * reSum N x k) ^ 2 + (2 ^ (2 * p) * imSum N x k) ^ 2 := by
    rw [power_eq, e4]; ring
  rw [abs_le] at a1 a2
  rw [Encloses, encloseBin]
  dsimp only
  rw [e]
  push_cast
  constructor <;> nlinarith [a1.1, a1.2, a2.1, a2.2]

theorem binAt_encloses {p N : ℕ} (hN : 2 ≤ N) {x : List Int} (hx : x.length = N) (k : ℕ) :
    Encloses p N x (binAt p N x k) :=
  encloseBin_encloses (dftSum_near hN hx k).1 (dftSum_near hN hx k).2

theorem binsTo_eq (p N : ℕ) (x : List Int) (K : ℕ) :
    binsTo p N x K = (List.range K).map fun i => binAt p N x (i + 1) := rfl

theorem decideLe_true {p N : ℕ} {x : List Int} {α β : ℕ} {a b : Bin} (ha : Encloses p N x a) (hb : Encloses p N x b)
    (h : decideLe α a β b = some true) : (α : ℝ) * power N x a.k ≤ β * power N x b.k := by
  unfold decideLe at h
  split at h
  · rename_i hc
    have hc' : (α : ℝ) * a.hi ≤ β * b.lo := by exact_mod_cast hc
    have h2 : (0 : ℝ) < 2 ^ (4 * p) := by positivity
    have h3 : (α : ℝ) * (2 ^ (4 * p) * power N x a.k) ≤ β * (2 ^ (4 * p) * power N x b.k) :=
      (mul_le_mul_of_nonneg_left ha.2 (by positivity)).trans
        (hc'.trans (mul_le_mul_of_nonneg_left hb.1 (by positivity)))
    nlinarith
  · split at h <;> simp at h

theorem decideLe_false {p N : ℕ} {x : List Int} {α β : ℕ} {a b : Bin} (ha : Encloses p N x a) (hb : Encloses p N x b)
    (h : decideLe α a β b = some false) : (β : ℝ) * power N x b.k < α * power N x a.k := by
  unfold decideLe at h
  split at h
  · simp at h
  · split at h
    · rename_i _ hc
      have hc' : (β : ℝ) * b.hi < α * a.lo := by exact_mod_cast hc
      have h2 : (0 : ℝ) < 2 ^ (4 * p) := by positivity
      have h3 : (β : ℝ) * (2 ^ (4 * p) * power N x b.k) < α * (2 ^ (4 * p) * power N x a.k) :=
        (mul_le_mul_of_nonneg_left hb.2 (by positivity)).trans_lt
          (hc'.trans_le (mul_le_mul_of_nonneg_left ha.1 (by positivity)))
      nlinarith
    · simp at h

theorem sum_abs_le {x : List Int} {N : ℕ} (hx : x.length = N) {g : ℕ → ℝ} (hg : ∀ n, |g n| ≤ 1) :
    |∑ n ∈ range N, (x.getD n 0 : ℝ) * hannTwice N n * g n| ≤ 2 * absSum x := by
  rw [absSum_eq hx, mul_sum]
  refine (abs_sum_le_sum_abs _ _).trans (sum_le_sum fun n _ => ?_)
  have hh : |hannTwice N n| ≤ 2 := by
    have := Real.abs_cos_le_one (2 * Real.pi * n / ((N : ℝ) - 1))
    rw [abs_le] at this ⊢
    rw [hannTwice]; constructor <;> linarith [this.1, this.2]
  rw [abs_mul, abs_mul]
  calc |(x.getD n 0 : ℝ)| * |hannTwice N n| * |g n| ≤ |(x.getD n 0 : ℝ)| * 2 * 1 := by gcongr; exact hg n
    _ = 2 * |(x.getD n 0 : ℝ)| := by ring

/-- How wide an enclosure can be. -/
theorem binAt_width {p N : ℕ} (hN : 2 ≤ N) {x : List Int} (hx : x.length = N) (k : ℕ) :
    ((binAt p N x k).hi : ℝ) - (binAt p N x k).lo ≤ 4176 * (absSum x : ℝ) ^ 2 * 2 ^ (3 * p) := by
  obtain ⟨h1, h2⟩ := dftSum_near (p := p) hN hx k
  set z := dftSum (rootTable p N N) N k 0 (windowed p N x) with hz
  set S : ℝ := (absSum x : ℝ) with hS
  have hS0 : 0 ≤ S := by positivity
  set P : ℝ := 2 ^ p with hP
  have hP1 : 1 ≤ P := one_le_pow₀ (by norm_num)
  have e2 : (2 : ℝ) ^ (2 * p) = P ^ 2 := by rw [hP, ← pow_mul]; congr 1; ring
  have e3 : (2 : ℝ) ^ (3 * p) = P ^ 3 := by rw [hP, ← pow_mul]; congr 1; ring
  have hE : ((sumError p (absSum x) : ℤ) : ℝ) = 9 * S * (P + 1) := by rw [sumError]; push_cast; rfl
  rw [hE, e2] at h1 h2
  have r1 : |reSum N x k| ≤ 2 * S := sum_abs_le hx fun n => Real.abs_cos_le_one _
  have r2 : |imSum N x k| ≤ 2 * S := sum_abs_le hx fun n => Real.abs_sin_le_one _
  have bound : ∀ (z r : ℝ), |z - P ^ 2 * r| ≤ 9 * S * (P + 1) → |r| ≤ 2 * S → |z| ≤ 2 * S * P ^ 2 + 18 * S * P := by
    intro z r hz hr
    have := abs_add_le (z - P ^ 2 * r) (P ^ 2 * r)
    rw [sub_add_cancel] at this
    rw [abs_mul, abs_of_nonneg (by positivity : (0 : ℝ) ≤ P ^ 2)] at this
    have h3 : P ^ 2 * |r| ≤ P ^ 2 * (2 * S) := by gcongr
    have h4 : S ≤ S * P := le_mul_of_one_le_right hS0 hP1
    nlinarith
  have b1 := bound _ _ h1 r1
  have b2 := bound _ _ h2 r2
  have hw : ((binAt p N x k).hi : ℝ) - (binAt p N x k).lo =
      2 * ((9 * S * (P + 1)) * (2 * |(z.1 : ℝ)| + 9 * S * (P + 1)) +
        (9 * S * (P + 1)) * (2 * |(z.2 : ℝ)| + 9 * S * (P + 1))) := by
    rw [binAt, encloseBin]
    push_cast
    rw [hE, ← hz]
    ring
  rw [hw, e3]
  have hT : 9 * S * (P + 1) ≤ 18 * S * P := by nlinarith
  have hT0 : 0 ≤ 9 * S * (P + 1) := by positivity
  calc _ ≤ 2 * ((18 * S * P) * (2 * (2 * S * P ^ 2 + 18 * S * P) + 18 * S * P) +
        (18 * S * P) * (2 * (2 * S * P ^ 2 + 18 * S * P) + 18 * S * P)) := by gcongr
    _ = S ^ 2 * P ^ 2 * (288 * P + 3888) := by ring
    _ ≤ S ^ 2 * P ^ 2 * (4176 * P) := by gcongr; linarith
    _ = 4176 * S ^ 2 * P ^ 3 := by ring

end Sys2Proof.Machine
end

