-- ==== Sys2Proof/Laws/PerInstr.lean ====
section
/-! SUPPORT. A fact about every command as syntax, one lemma per constructor. -/

namespace Sys2Proof.Laws

/-- The words of a well-formed command are a command word and exactly the operand words that its format calls for
(30_encoding.md R66, R68). -/
def EncodesWhole.Statement (i : Instr) : Prop :=
  i.wf = true → ∃ w ops, encode i = w :: ops ∧ ops.length = operandCount w

theorem EncodesWhole.nop : EncodesWhole.Statement .nop := fun _ => ⟨_, [], rfl, rfl⟩

theorem EncodesWhole.anlz (block : List Sample) : EncodesWhole.Statement (.anlz block) := by
  intro h
  have hl : block.length ≤ 65535 := by simpa [Instr.wf] using h
  refine ⟨_, _, rfl, ?_⟩
  rw [operandCount_of_code (o := .anlz) (fieldOp_wordB 0x10#8 false false block.length), packSamples_length]
  simp only [opFormat, fieldCount_wordB _ _ _ hl]

theorem EncodesWhole.blk (no ovf : Bool) (block : List Sample) : EncodesWhole.Statement (.blk no ovf block) := by
  intro h
  have hl : block.length ≤ 65535 := by simpa [Instr.wf] using h
  refine ⟨_, _, rfl, ?_⟩
  rw [operandCount_of_code (o := .blk) (fieldOp_wordB 0x11#8 no ovf block.length), packSamples_length]
  simp only [opFormat, fieldCount_wordB _ _ _ hl]

theorem EncodesWhole.clsf (no : Bool) (f : Option Word) : EncodesWhole.Statement (.clsf no f) := fun _ =>
  ⟨_, [freqWord f], rfl, (operandCount_of_code (o := .clsf) (fieldOp_wordF 0x20#8 0#8 no f)).symm⟩

theorem EncodesWhole.calw (ch : Chan) (f : Option Word) : EncodesWhole.Statement (.calw ch f) := fun _ =>
  ⟨_, [freqWord f], rfl, (operandCount_of_code (o := .calw) (fieldOp_wordF 0x30#8 ch false f)).symm⟩

theorem EncodesWhole.calt (ch : Chan) (f : Option Word) : EncodesWhole.Statement (.calt ch f) := fun _ =>
  ⟨_, [freqWord f], rfl, (operandCount_of_code (o := .calt) (fieldOp_wordF 0x31#8 ch false f)).symm⟩

theorem EncodesWhole.cclr : EncodesWhole.Statement .cclr := fun _ => ⟨_, [], rfl, rfl⟩

theorem EncodesWhole.cdone : EncodesWhole.Statement .cdone := fun _ => ⟨_, [], rfl, rfl⟩

theorem EncodesWhole.dstep (ch : Chan) (f : Option Word) : EncodesWhole.Statement (.dstep ch f) := fun _ =>
  ⟨_, [freqWord f], rfl, (operandCount_of_code (o := .dstep) (fieldOp_wordF 0x40#8 ch false f)).symm⟩

theorem EncodesWhole.dclr : EncodesWhole.Statement .dclr := fun _ => ⟨_, [], rfl, rfl⟩

theorem EncodesWhole.frst : EncodesWhole.Statement .frst := fun _ => ⟨_, [], rfl, rfl⟩

theorem EncodesWhole.rdreg (idx : BitVec 8) : EncodesWhole.Statement (.rdreg idx) := fun _ =>
  ⟨_, [], rfl, (operandCount_of_code (o := .rdreg) (fieldOp_wordR 0x60#8 idx)).symm⟩

end Sys2Proof.Laws
end

