-- ==== Sys2Proof/Laws/RootSums.lean ====
section
/-! SUPPORT. Sums of roots of unity with integer coefficients: what the comparison of Machine/Spectrum.lean rests on. -/

namespace Sys2Proof.Machine

open Finset

/-- The value of a sum of powers of `ζ`. -/
def evalRoots {R : Type} [CommRing R] (ζ : R) (l : List (Nat × Int)) : R := (l.map fun t => (t.2 : R) * ζ ^ t.1).sum

/-- The sum of the absolute values of the coefficients. -/
def coeffSum (l : List (Nat × Int)) : Nat := (l.map fun t => t.2.natAbs).sum

@[simp] theorem evalRoots_nil {R : Type} [CommRing R] (ζ : R) : evalRoots ζ [] = 0 := rfl
@[simp] theorem evalRoots_cons {R : Type} [CommRing R] (ζ : R) (t : Nat × Int) (l) :
    evalRoots ζ (t :: l) = (t.2 : R) * ζ ^ t.1 + evalRoots ζ l := by simp [evalRoots]
@[simp] theorem evalRoots_append {R : Type} [CommRing R] (ζ : R) (l m : List (Nat × Int)) :
    evalRoots ζ (l ++ m) = evalRoots ζ l + evalRoots ζ m := by simp [evalRoots]
@[simp] theorem coeffSum_nil : coeffSum [] = 0 := rfl
@[simp] theorem coeffSum_cons (t : Nat × Int) (l) : coeffSum (t :: l) = t.2.natAbs + coeffSum l := by simp [coeffSum]
@[simp] theorem coeffSum_append (l m : List (Nat × Int)) : coeffSum (l ++ m) = coeffSum l + coeffSum m := by
  simp [coeffSum]

theorem evalRoots_addTerm {R : Type} [CommRing R] (ζ : R) (e : Nat) (c : Int) (l : RootSum) :
    evalRoots ζ (addTerm e c l) = (c : R) * ζ ^ e + evalRoots ζ l := by
  induction l with
  | nil => by_cases h : c = 0 <;> simp [addTerm, h]
  | cons t l ih =>
    obtain ⟨e', c'⟩ := t
    rw [addTerm]
    split_ifs with h1 h2 h3 h4
    · simp [h2]
    · simp
    · subst h3
      have : (c' : R) = -(c : R) := by
        have h : c' = -c := by omega
        rw [h]; push_cast; ring
      simp [this]
    · subst h3; simp; ring
    · simp [ih]; ring

theorem coeffSum_addTerm (e : Nat) (c : Int) (l : RootSum) : coeffSum (addTerm e c l) ≤ c.natAbs + coeffSum l := by
  induction l with
  | nil => by_cases h : c = 0 <;> simp [addTerm, h]
  | cons t l ih =>
    obtain ⟨e', c'⟩ := t
    rw [addTerm]
    split_ifs with h1 h2 h3 h4 <;> simp only [coeffSum_cons] <;> omega

theorem evalRoots_collect {R : Type} [CommRing R] (ζ : R) (α : Int) (l : List (Nat × Int)) :
    evalRoots ζ (collect α l) = (α : R) * evalRoots ζ l := by
  induction l with
  | nil => simp [collect]
  | cons t l ih =>
    have : collect α (t :: l) = addTerm t.1 (α * t.2) (collect α l) := rfl
    rw [this, evalRoots_addTerm, ih, evalRoots_cons]; push_cast; ring

theorem coeffSum_collect (α : Int) (l : List (Nat × Int)) : coeffSum (collect α l) ≤ α.natAbs * coeffSum l := by
  induction l with
  | nil => simp [collect]
  | cons t l ih =>
    have : collect α (t :: l) = addTerm t.1 (α * t.2) (collect α l) := rfl
    rw [this, coeffSum_cons, Nat.mul_add, ← Int.natAbs_mul]
    exact (coeffSum_addTerm _ _ _).trans (by omega)

theorem coeffSum_conjProduct (D : Nat) (a b : RootSum) : coeffSum (conjProduct D a b) = coeffSum a * coeffSum b := by
  induction a with
  | nil => simp [conjProduct]
  | cons s a ih =>
    have : conjProduct D (s :: a) b = (b.map fun t => ((s.1 + (D - t.1)) % D, s.2 * t.2)) ++ conjProduct D a b := rfl
    rw [this, coeffSum_append, ih, coeffSum_cons, Nat.add_mul]
    congr 1
    clear ih this
    induction b with
    | nil => simp
    | cons t b ihb => simp [ihb, Int.natAbs_mul, Nat.mul_add]

theorem pow_mod_root {ζ : ℂ} {D : ℕ} (h : ζ ^ D = 1) (e : ℕ) : ζ ^ (e % D) = ζ ^ e := by
  conv_rhs => rw [← Nat.mod_add_div e D, pow_add, pow_mul, h, one_pow, mul_one]

theorem evalRoots_conjProduct {ζ : ℂ} {D : ℕ} (h : ζ ^ D = 1) (hn : ‖ζ‖ = 1) (a b : RootSum)
    (hb : ∀ t ∈ b, t.1 ≤ D) :
    evalRoots ζ (conjProduct D a b) = evalRoots ζ a * (starRingEnd ℂ) (evalRoots ζ b) := by
  have hterm : ∀ s : Nat × Int, evalRoots ζ (b.map fun t => ((s.1 + (D - t.1)) % D, s.2 * t.2)) =
      ((s.2 : ℂ) * ζ ^ s.1) * (starRingEnd ℂ) (evalRoots ζ b) := by
    intro s
    induction b with
    | nil => simp
    | cons t b ih =>
      have ht : t.1 ≤ D := hb t (by simp)
      have hinv : (starRingEnd ℂ) ζ = ζ⁻¹ := by
        rw [Complex.inv_def, Complex.normSq_eq_norm_sq, hn]; simp
      have hζ : ζ ≠ 0 := by rintro rfl; simp at hn
      have hp : ζ ^ (D - t.1) = (ζ⁻¹) ^ t.1 := by
        rw [inv_pow]
        exact eq_inv_of_mul_eq_one_left (by rw [← pow_add, Nat.sub_add_cancel ht, h])
      rw [List.map_cons, evalRoots_cons, ih (fun t' h' => hb t' (by simp [h'])), evalRoots_cons, pow_mod_root h,
        pow_add, hp]
      simp [hinv]
      ring
  induction a with
  | nil => simp [conjProduct]
  | cons s a ih =>
    have : conjProduct D (s :: a) b = (b.map fun t => ((s.1 + (D - t.1)) % D, s.2 * t.2)) ++ conjProduct D a b := rfl
    rw [this, evalRoots_append, ih, hterm, evalRoots_cons]; ring

/-- The primitive `D`-th root of unity of the complex numbers. -/
noncomputable def rootOf (D : ℕ) : ℂ := Complex.exp (2 * Real.pi * Complex.I / D)

theorem rootOf_pow (D e : ℕ) : rootOf D ^ e = Complex.exp (((2 * Real.pi * e / D : ℝ) : ℂ) * Complex.I) := by
  rw [rootOf, ← Complex.exp_nat_mul]; congr 1; push_cast; ring

theorem rootOf_pow_self {D : ℕ} (h : 0 < D) : rootOf D ^ D = 1 := (Complex.isPrimitiveRoot_exp D h.ne').pow_eq_one

theorem rootOf_norm (D : ℕ) : ‖rootOf D‖ = 1 := by
  have := rootOf_pow D 1
  rw [pow_one] at this
  rw [this, Complex.norm_exp_ofReal_mul_I]

theorem spectrumTerms_le {N k : ℕ} (hN : 2 ≤ N) (x : List Int) :
    ∀ n, ∀ t ∈ spectrumTerms N k n x, t.1 ≤ N * (N - 1) := by
  have hD : 0 < N * (N - 1) := Nat.mul_pos (by omega) (by omega)
  induction x with
  | nil => intro n t ht; simp [spectrumTerms] at ht
  | cons a x ih =>
    intro n t ht
    rw [spectrumTerms] at ht
    split_ifs at ht
    · exact ih _ t ht
    · simp only [List.mem_cons] at ht
      rcases ht with rfl | rfl | rfl | ht
      · exact (Nat.mod_lt _ hD).le
      · exact (Nat.mod_lt _ hD).le
      · exact (Nat.mod_lt _ hD).le
      · exact ih _ t ht

theorem coeffSum_spectrumTerms (N k : ℕ) (x : List Int) : ∀ n, coeffSum (spectrumTerms N k n x) ≤ 4 * absSum x := by
  induction x with
  | nil => intro n; simp [spectrumTerms]
  | cons a x ih =>
    intro n
    have e : absSum (a :: x) = a.natAbs + absSum x := by simp [absSum]
    have := ih (n + 1)
    rw [spectrumTerms, e]
    split_ifs
    · omega
    · simp only [coeffSum_cons]; omega

theorem evalRoots_term {N k n : ℕ} (hN : 2 ≤ N) (a : ℤ) :
    ((2 * a : ℤ) : ℂ) * rootOf (N * (N - 1)) ^ ((k * (N - 1)) * n % (N * (N - 1))) +
      (((-a : ℤ) : ℂ) * rootOf (N * (N - 1)) ^ ((k * (N - 1) + N) * n % (N * (N - 1))) +
      ((-a : ℤ) : ℂ) * rootOf (N * (N - 1)) ^ ((k * (N - 1) + (N * (N - 1) - N)) * n % (N * (N - 1)))) =
    2 * ((a : ℝ) * hannTwice N n : ℝ) * Complex.exp (((2 * Real.pi * (k * n : ℕ) / N : ℝ) : ℂ) * Complex.I) := by
  have hD : 0 < N * (N - 1) := Nat.mul_pos (by omega) (by omega)
  have h1 := rootOf_pow_self hD
  have hN0 : (N : ℝ) ≠ 0 := by exact_mod_cast (by omega : N ≠ 0)
  have hL : ((N : ℝ) - 1) ≠ 0 := by
    have : (2 : ℝ) ≤ N := by exact_mod_cast hN
    linarith
  have hc1 : ((N - 1 : ℕ) : ℝ) = (N : ℝ) - 1 := by rw [Nat.cast_sub (by omega), Nat.cast_one]
  have hle : N ≤ N * (N - 1) := Nat.le_mul_of_pos_right N (by omega)
  set φ : ℝ := 2 * Real.pi * n / ((N : ℝ) - 1) with hφ
  set ψ : ℝ := 2 * Real.pi * (k * n : ℕ) / N with hψ
  have a0 : rootOf (N * (N - 1)) ^ ((k * (N - 1)) * n) = Complex.exp ((ψ : ℂ) * Complex.I) := by
    rw [rootOf_pow]; congr 3; rw [hψ]; push_cast; rw [hc1]; field_simp
  have a1 : rootOf (N * (N - 1)) ^ ((k * (N - 1) + N) * n) =
      Complex.exp ((ψ : ℂ) * Complex.I) * Complex.exp ((φ : ℂ) * Complex.I) := by
    rw [rootOf_pow, ← Complex.exp_add, ← add_mul, ← Complex.ofReal_add]
    congr 3; rw [hψ, hφ]; push_cast; rw [hc1]; field_simp
  have a2 : rootOf (N * (N - 1)) ^ ((k * (N - 1) + (N * (N - 1) - N)) * n) =
      Complex.exp ((ψ : ℂ) * Complex.I) * Complex.exp (-(φ : ℂ) * Complex.I) := by
    have e : rootOf (N * (N - 1)) ^ ((k * (N - 1) + (N * (N - 1) - N)) * n) *
        (rootOf (N * (N - 1)) ^ (N * n)) = rootOf (N * (N - 1)) ^ ((k * (N - 1)) * n) := by
      rw [← pow_add, ← Nat.add_mul, show k * (N - 1) + (N * (N - 1) - N) + N = k * (N - 1) + N * (N - 1) by omega,
        Nat.add_mul, pow_add, pow_mul _ (N * (N - 1)) n, h1, one_pow, mul_one]
    have e' : rootOf (N * (N - 1)) ^ (N * n) = Complex.exp ((φ : ℂ) * Complex.I) := by
      rw [rootOf_pow]; congr 3; rw [hφ]; push_cast; rw [hc1]; field_simp
    rw [a0, e'] at e
    rw [← e, mul_assoc, ← Complex.exp_add, ← add_mul, add_neg_cancel, zero_mul, Complex.exp_zero, mul_one]
  rw [pow_mod_root h1, pow_mod_root h1, pow_mod_root h1, a0, a1, a2]
  have hcos : Complex.exp ((φ : ℂ) * Complex.I) + Complex.exp (-(φ : ℂ) * Complex.I) = 2 * ((Real.cos φ : ℝ) : ℂ) := by
    rw [Complex.ofReal_cos, Complex.two_cos]
  have hh : hannTwice N n = 1 - Real.cos φ := rfl
  rw [hh]
  push_cast
  rw [← Complex.ofReal_cos]
  linear_combination (-(a : ℂ) * Complex.exp ((ψ : ℂ) * Complex.I)) * hcos

theorem evalRoots_spectrumTerms {N k : ℕ} (hN : 2 ≤ N) (x : List Int) : ∀ n,
    evalRoots (rootOf (N * (N - 1))) (spectrumTerms N k n x) =
      ∑ i ∈ range x.length, 2 * (((x.getD i 0 : ℤ) : ℝ) * hannTwice N (n + i) : ℝ) *
        Complex.exp (((2 * Real.pi * (k * (n + i) : ℕ) / N : ℝ) : ℂ) * Complex.I) := by
  induction x with
  | nil => intro n; simp [spectrumTerms]
  | cons a x ih =>
    intro n
    rw [List.length_cons, sum_range_succ']
    simp only [List.getD_cons_succ, List.getD_cons_zero, add_zero]
    have key := ih (n + 1)
    simp only [show ∀ i, n + 1 + i = n + (i + 1) from fun i => by ring] at key
    rw [← key, spectrumTerms]
    split_ifs with h
    · subst h; simp
    · rw [evalRoots_cons, evalRoots_cons, evalRoots_cons, ← evalRoots_term hN a]; ring

/-- `powerTerms` is `α·16·M[k]²`. -/
theorem evalRoots_powerTerms {N : ℕ} (hN : 2 ≤ N) {x : List Int} (hx : x.length = N) (α k : ℕ) :
    evalRoots (rootOf (N * (N - 1))) (powerTerms N x α k) = ((4 * (α * power N x k) : ℝ) : ℂ) := by
  have hD : 0 < N * (N - 1) := Nat.mul_pos (by omega) (by omega)
  have e : evalRoots (rootOf (N * (N - 1))) (spectrumTerms N k 0 x) =
      2 * ((reSum N x k : ℂ) + (imSum N x k : ℂ) * Complex.I) := by
    rw [evalRoots_spectrumTerms hN, hx, reSum, imSum]
    push_cast
    rw [sum_mul, ← sum_add_distrib, mul_sum]
    refine sum_congr rfl fun n _ => ?_
    rw [zero_add, Complex.exp_mul_I]
    ring_nf
  rw [powerTerms, evalRoots_collect,
    evalRoots_conjProduct (rootOf_pow_self hD) (rootOf_norm _) _ _ (spectrumTerms_le hN x 0), e, power_eq]
  have hI := Complex.I_sq
  simp only [map_mul, map_add, Complex.conj_ofReal, Complex.conj_I]
  push_cast
  rw [show (starRingEnd ℂ) 2 = 2 from Complex.conj_ofNat 2]
  linear_combination (-4 * (α : ℂ) * (imSum N x k : ℂ) ^ 2) * hI

theorem coeffSum_powerTerms (N : ℕ) (x : List Int) (α k : ℕ) :
    coeffSum (powerTerms N x α k) ≤ 16 * α * absSum x ^ 2 := by
  have h := coeffSum_spectrumTerms N k x 0
  calc _ ≤ (α : Int).natAbs * (coeffSum (spectrumTerms N k 0 x) * coeffSum (spectrumTerms N k 0 x)) := by
        rw [← coeffSum_conjProduct (N * (N - 1))]; exact coeffSum_collect _ _
    _ ≤ α * ((4 * absSum x) * (4 * absSum x)) := by
        rw [Int.natAbs_natCast]; exact Nat.mul_le_mul_left _ (Nat.mul_le_mul h h)
    _ = 16 * α * absSum x ^ 2 := by ring

theorem norm_evalRoots_le {ζ : ℂ} (h : ‖ζ‖ = 1) (l : List (Nat × Int)) : ‖evalRoots ζ l‖ ≤ coeffSum l := by
  induction l with
  | nil => simp
  | cons t l ih =>
    rw [evalRoots_cons, coeffSum_cons]
    refine (norm_add_le _ _).trans ?_
    rw [norm_mul, norm_pow, h, one_pow, mul_one, Nat.cast_add]
    refine add_le_add (le_of_eq ?_) ih
    rw [Complex.norm_intCast, Nat.cast_natAbs]; simp

theorem map_evalRoots {R S : Type} [CommRing R] [CommRing S] (σ : R →+* S) (ζ : R) (l : List (Nat × Int)) :
    σ (evalRoots ζ l) = evalRoots (σ ζ) l := by
  induction l with
  | nil => simp
  | cons t l ih => simp [ih]

theorem isIntegral_evalRoots {K : Type} [Field K] {ζ : K} (h : IsIntegral ℤ ζ) (l : List (Nat × Int)) :
    IsIntegral ℤ (evalRoots ζ l) := by
  induction l with
  | nil => simpa using isIntegral_zero
  | cons t l ih =>
    rw [evalRoots_cons]
    exact ((isIntegral_algebraMap (R := ℤ) (x := t.2)).mul (h.pow t.1)).add ih

/-- A sum of `D`-th roots of unity that is not 0 is not small: its norm is a nonzero integer. -/
theorem one_le_norm_evalRoots {D : ℕ} (hD : 0 < D) {l : List (Nat × Int)} {H : ℕ} (hH : coeffSum l ≤ H) (h1 : 1 ≤ H)
    (hne : evalRoots (rootOf D) l ≠ 0) : 1 ≤ ‖evalRoots (rootOf D) l‖ * (H : ℝ) ^ D := by
  classical
  have : NeZero D := ⟨hD.ne'⟩
  have : IsCyclotomicExtension {D} ℚ (CyclotomicField D ℚ) := CyclotomicField.isCyclotomicExtension D ℚ
  have : FiniteDimensional ℚ (CyclotomicField D ℚ) := IsCyclotomicExtension.finiteDimensional {D} ℚ _
  obtain ⟨ζ, hζ⟩ : ∃ ζ : CyclotomicField D ℚ, IsPrimitiveRoot ζ D :=
    ⟨_, IsCyclotomicExtension.zeta_spec D ℚ (CyclotomicField D ℚ)⟩
  have hirr := Polynomial.cyclotomic.irreducible_rat hD
  let E := hζ.embeddingsEquivPrimitiveRoots ℂ hirr
  have hmem : rootOf D ∈ primitiveRoots D ℂ :=
    (mem_primitiveRoots hD).mpr (Complex.isPrimitiveRoot_exp D hD.ne')
  let σ₀ : CyclotomicField D ℚ →ₐ[ℚ] ℂ := E.symm ⟨rootOf D, hmem⟩
  have hσ₀ : σ₀ ζ = rootOf D := by
    have h := congrArg Subtype.val (E.apply_symm_apply ⟨rootOf D, hmem⟩)
    rwa [hζ.embeddingsEquivPrimitiveRoots_apply_coe] at h
  set a : CyclotomicField D ℚ := evalRoots ζ l with ha
  have hev : ∀ σ : CyclotomicField D ℚ →ₐ[ℚ] ℂ, σ a = evalRoots (σ ζ) l := fun σ => map_evalRoots (σ : CyclotomicField D ℚ →+* ℂ) ζ l
  have hnorm : ∀ σ : CyclotomicField D ℚ →ₐ[ℚ] ℂ, ‖σ ζ‖ = 1 := fun σ => by
    have hp : (σ ζ) ^ D = 1 := by rw [← map_pow, hζ.pow_eq_one, map_one]
    exact Complex.norm_eq_one_of_pow_eq_one hp hD.ne'
  have ha0 : a ≠ 0 := by
    intro h0
    apply hne
    rw [← hσ₀, ← hev, h0, map_zero]
  have hint : IsIntegral ℤ (Algebra.norm ℚ a) :=
    Algebra.isIntegral_norm ℚ (isIntegral_evalRoots (hζ.isIntegral hD) l)
  obtain ⟨z, hz⟩ := IsIntegrallyClosed.isIntegral_iff.mp hint
  have hz0 : z ≠ 0 := by
    rintro rfl
    rw [map_zero] at hz
    exact (Algebra.norm_ne_zero_iff.mpr ha0) hz.symm
  have hz1 : (1 : ℝ) ≤ ‖(z : ℂ)‖ := by
    rw [Complex.norm_intCast]
    exact_mod_cast Int.one_le_abs hz0
  have hprod := Algebra.norm_eq_prod_embeddings ℚ ℂ a
  rw [← hz] at hprod
  have hprod' : (z : ℂ) = ∏ σ : CyclotomicField D ℚ →ₐ[ℚ] ℂ, σ a := by rw [← hprod]; simp
  have hcard : (univ.erase σ₀ : Finset (CyclotomicField D ℚ →ₐ[ℚ] ℂ)).card ≤ D := by
    refine (card_le_univ _).trans ?_
    rw [Fintype.card_congr E, Fintype.card_coe]
    exact (Complex.card_primitiveRoots D).trans_le (Nat.totient_le D)
  have hle : ∏ σ ∈ univ.erase σ₀, ‖σ a‖ ≤ (H : ℝ) ^ D := by
    calc ∏ σ ∈ univ.erase σ₀, ‖σ a‖ ≤ ∏ _σ ∈ univ.erase σ₀, (H : ℝ) := by
          refine prod_le_prod (fun _ _ => norm_nonneg _) fun σ _ => ?_
          rw [hev]
          exact (norm_evalRoots_le (hnorm σ) l).trans (by exact_mod_cast hH)
      _ = (H : ℝ) ^ (univ.erase σ₀ : Finset (CyclotomicField D ℚ →ₐ[ℚ] ℂ)).card := prod_const _
      _ ≤ (H : ℝ) ^ D := pow_le_pow_right₀ (by exact_mod_cast h1) hcard
  rw [hprod', norm_prod, ← mul_prod_erase univ _ (mem_univ σ₀)] at hz1
  have e0 : ‖σ₀ a‖ = ‖evalRoots (rootOf D) l‖ := by rw [hev, hσ₀]
  rw [e0] at hz1
  exact hz1.trans (mul_le_mul_of_nonneg_left hle (norm_nonneg _))

/-- The comparison of R90 is exact. -/
theorem powerLe_iff {p N : ℕ} (hN : 2 ≤ N) {x : List Int} (hx : x.length = N) {α β : ℕ} {a b : Bin}
    (ha : Encloses p N x a) (hb : Encloses p N x b) :
    powerLe N x α a β b = true ↔ (α : ℝ) * power N x a.k ≤ β * power N x b.k := by
  have hD : 0 < N * (N - 1) := Nat.mul_pos (by omega) (by omega)
  unfold powerLe
  split
  · rename_i r h
    cases r
    · simp [decideLe_false ha hb h]
    · simp [decideLe_true ha hb h]
  · split_ifs with heq
    · have e1 := evalRoots_powerTerms hN hx α a.k
      rw [heq, evalRoots_powerTerms hN hx β b.k] at e1
      have := Complex.ofReal_injective e1
      simp; linarith
    · simp only
      set q := fullPrecision N x α β with hq
      have ha' := binAt_encloses (p := q) hN hx a.k
      have hb' := binAt_encloses (p := q) hN hx b.k
      have hak : (binAt q N x a.k).k = a.k := rfl
      have hbk : (binAt q N x b.k).k = b.k := rfl
      cases hd : decideLe α (binAt q N x a.k) β (binAt q N x b.k) with
      | some r =>
        cases r
        · have := decideLe_false ha' hb' hd
          rw [hak, hbk] at this
          simp [this]
        · have := decideLe_true ha' hb' hd
          rw [hak, hbk] at this
          simp [this]
      | none =>
        simp only [Option.getD_none, true_iff]
        set S := absSum x with hS
        set H := 16 * (α + β) * S ^ 2 with hH
        rcases Nat.eq_zero_or_pos H with h0 | hpos
        · have hz : ∀ k, S = 0 → power N x k = 0 := by
            intro k h
            have r1 : |reSum N x k| ≤ 2 * (absSum x : ℝ) := sum_abs_le hx fun n => Real.abs_cos_le_one _
            have r2 : |imSum N x k| ≤ 2 * (absSum x : ℝ) := sum_abs_le hx fun n => Real.abs_sin_le_one _
            rw [← hS, h] at r1 r2
            simp at r1 r2
            rw [power_eq, r1, r2]; simp
          have : α + β = 0 ∨ S = 0 := by
            by_contra hc
            push Not at hc
            have : 0 < H := by rw [hH]; have := hc.1; have := hc.2; positivity
            omega
          rcases this with h | h
          · have h1 : α = 0 := by omega
            have h2 : β = 0 := by omega
            simp [h1, h2]
          · simp [hz _ h]
        · by_contra hlt
          push Not at hlt
          -- the difference is a sum of roots of unity, small and not 0
          have wa := binAt_width (p := q) hN hx a.k
          have wb := binAt_width (p := q) hN hx b.k
          rw [← hS] at wa wb
          unfold decideLe at hd
          split_ifs at hd with c1 c2
          push Not at c1 c2
          have c1' : (β : ℝ) * (binAt q N x b.k).lo < α * (binAt q N x a.k).hi := by exact_mod_cast c1
          have c2' : (α : ℝ) * (binAt q N x a.k).lo ≤ β * (binAt q N x b.k).hi := by exact_mod_cast c2
          set P : ℝ := 2 ^ q with hP
          have hP0 : 0 < P := by positivity
          have p3 : (2 : ℝ) ^ (3 * q) = P ^ 3 := by rw [hP, ← pow_mul]; congr 1; ring
          have p4 : (2 : ℝ) ^ (4 * q) = P ^ 4 := by rw [hP, ← pow_mul]; congr 1; ring
          rw [p3] at wa wb
          set v : ℝ := α * power N x a.k - β * power N x b.k with hv
          have hvpos : 0 < v := by rw [hv]; linarith
          have hα : (0 : ℝ) ≤ α := by positivity
          have hβ : (0 : ℝ) ≤ β := by positivity
          have hvle : P ^ 4 * v ≤ 4176 * ((α : ℝ) + β) * (S : ℝ) ^ 2 * P ^ 3 := by
            have u1 := mul_le_mul_of_nonneg_left ha'.2 hα
            have u2 := mul_le_mul_of_nonneg_left hb'.1 hβ
            have u3 := mul_le_mul_of_nonneg_left wa hα
            have u4 := mul_le_mul_of_nonneg_left wb hβ
            rw [p4, hak] at u1
            rw [p4, hbk] at u2
            have e1 : P ^ 4 * v = α * (P ^ 4 * power N x a.k) - β * (P ^ 4 * power N x b.k) := by rw [hv]; ring
            rw [e1]
            nlinarith
          have hvle' : P * v ≤ 4176 * ((α : ℝ) + β) * (S : ℝ) ^ 2 := by
            have : P ^ 3 * (P * v) ≤ P ^ 3 * (4176 * ((α : ℝ) + β) * (S : ℝ) ^ 2) := by nlinarith
            exact le_of_mul_le_mul_left this (by positivity)
          have hHr : (H : ℝ) = 16 * ((α : ℝ) + β) * (S : ℝ) ^ 2 := by rw [hH]; push_cast; ring
          let l : List (Nat × Int) := powerTerms N x α a.k ++ collect (-1) (powerTerms N x β b.k)
          have hl : evalRoots (rootOf (N * (N - 1))) l = ((4 * v : ℝ) : ℂ) := by
            show evalRoots _ (_ ++ _) = _
            rw [evalRoots_append, evalRoots_collect, evalRoots_powerTerms hN hx, evalRoots_powerTerms hN hx, hv]
            push_cast; ring
          have hlc : coeffSum l ≤ H := by
            show coeffSum (_ ++ _) ≤ H
            rw [coeffSum_append]
            have i1 := coeffSum_powerTerms N x α a.k
            have i2 := (coeffSum_collect (-1) (powerTerms N x β b.k)).trans
              (Nat.mul_le_mul_left _ (coeffSum_powerTerms N x β b.k))
            have i3 : H = 16 * α * S ^ 2 + 16 * β * S ^ 2 := by rw [hH]; ring
            rw [i3]
            simp only [Int.natAbs_neg, Int.natAbs_one, one_mul] at i2
            exact Nat.add_le_add i1 i2
          have hne : evalRoots (rootOf (N * (N - 1))) l ≠ 0 := by
            rw [hl]; exact_mod_cast (by linarith : (4 * v) ≠ 0)
          have hbig := one_le_norm_evalRoots hD hlc hpos hne
          rw [hl, Complex.norm_real, Real.norm_of_nonneg (by linarith)] at hbig
          have hqP : (2000 * (H : ℝ) ^ (N * (N - 1) + 1)) < P := by
            have : 2000 * H ^ (N * (N - 1) + 1) < 2 ^ q := by
              rw [hq, fullPrecision]; exact Nat.lt_log2_self
            rw [hP]; exact_mod_cast this
          rw [pow_succ] at hqP
          have hHD : (0 : ℝ) < (H : ℝ) ^ (N * (N - 1)) := by positivity
          have h5 : 4 * (P * v) ≤ 1044 * (H : ℝ) := by rw [hHr]; nlinarith
          have h6 : P ≤ 1044 * (H : ℝ) * (H : ℝ) ^ (N * (N - 1)) := by
            calc P ≤ P * (4 * v * (H : ℝ) ^ (N * (N - 1))) := le_mul_of_one_le_right hP0.le hbig
              _ = 4 * (P * v) * (H : ℝ) ^ (N * (N - 1)) := by ring
              _ ≤ _ := by gcongr
          have hHp : (0 : ℝ) < H := by exact_mod_cast hpos
          nlinarith [mul_pos hHp hHD]

end Sys2Proof.Machine
end

