-- ==== Sys2Proof/Tests/Slice0.lean ====
section
/-! SUPPORT. Tests against 95_test_vectors.md and against hand calculation from the rules, and for each statement of
Obligations.lean with hypotheses a concrete case that meets them. -/

namespace Sys2Proof.Tests

open Sys2Proof Sys2Proof.Machine

/-! ## Builds and states -/

/-- A build with four channels and three samples a block. -/
def tiny : Cfg := { Config.default with nCh := 4, nS := 3 }

/-- The default build with five samples a block. -/
def five : Cfg := { Config.default with nS := 5 }

/-- The default build with a slack of the peak search. -/
def slack : Cfg := { Config.default with nS := 3, epsPeak := 1 / 4 }

/-- The reset state of a build. -/
def fresh (cfg : Cfg) : State := State.resetOf cfg []

/-- A full table that holds `f c` for each channel. -/
def filled (cfg : Cfg) (f : Nat → Nat) : State :=
  { fresh cfg with cal := (List.range cfg.nCh).map fun i => ⟨true, BitVec.ofNat 32 (f (i + 1))⟩ }

/-- The Nominal centres but for channels 4 and 5 (95_test_vectors.md K13). -/
def k13 : State := filled Config.default fun c => if c = 4 then 2900000 else if c = 5 then 2910000 else nom Config.default c

/-- A full history of one channel with a run of it. -/
def running (cfg : Cfg) (c : Chan) (len : Nat) (sum cnt : Nat) : State :=
  { fresh cfg with
    deb := ⟨c, c, c, 3#2, c, BitVec.ofNat 16 len, BitVec.ofNat 48 sum, BitVec.ofNat 16 cnt, false⟩ }

/-- The response of a command and one more value of the state after it. -/
def see {α : Type} (i : Instr) (s : State) (view : State → α) : Option (Response × α) :=
  match exec i s with
  | .next t => t.resp.map fun r => (r, view t)
  | .fault _ => none
  | .refused _ => none

/-- The next state of a step, if it answers one. -/
def nextOf (o : Host.Outcome State Fault Refusal) : Option State :=
  match o with
  | .next t => some t
  | .fault _ => none
  | .refused _ => none

/-! ## Well-formedness -/

/-- The check refuses a block that COUNT cannot count. -/
theorem test_wf_refuses_long_block :
    (Instr.anlz (List.replicate 65536 0#16)).wf = false ∧ (Instr.blk true false (List.replicate 65536 0#16)).wf = false := by
  simp only [Instr.wf, List.length_replicate]; decide

/-- The check refuses a build that breaks any one constraint of 00_scope.md R5. -/
theorem test_wf_refuses_builds :
    [{ Config.default with nCh := 3 }, { Config.default with nCh := 32 }, { Config.default with fminHz := 0 },
      { Config.default with fmaxHz := 10000 }, { Config.default with fmaxHz := 2 ^ 24 },
      { Config.default with fsHz := 0 }, { Config.default with fsHz := 2 ^ 24 }, { Config.default with nS := 2 },
      { Config.default with nS := 65536 }, { Config.default with noiseThr := 32769 },
      { Config.default with tol := 2 ^ 32 }, { Config.default with sanityPermille := 1001 },
      { Config.default with tLong := 0 }, { Config.default with tLong := 65536 }, { Config.default with tShort := 0 },
      { Config.default with tShort := 65536 }, { Config.default with longCh := 0 },
      { Config.default with longCh := 20 }, { Config.default with epsPeak := 1 },
      { Config.default with epsPeak := -1 }].all (fun c => !c.wf) = true ∧
      [Config.default, tiny, five, slack].all Cfg.wf = true := by decide +kernel

/-! ## Decoding: words written out from 30_encoding.md R66 and R70 (the encodings E1 to E13 of 95_test_vectors.md) -/

theorem test_decode_nop : decodeTableWord 32 0b00000000_00000000_00000000_00000000 = some .nop := by decide +kernel
theorem test_decode_anlz :
    decodeTableWord 96 (0b00010000_00000000_00000000_00000011 + 0xFFFF0001 * 2 ^ 32 + 0xABCD0002 * 2 ^ 64) =
      some (.anlz [1#16, 0xFFFF#16, 2#16]) := by decide +kernel
theorem test_decode_blk :
    decodeTableWord 64 (0b00010001_00000010_00000000_00000010 + 0x80007FFF * 2 ^ 32) =
      some (.blk true false [0x7FFF#16, 0x8000#16]) := by decide +kernel
theorem test_decode_clsf :
    decodeTableWord 64 (0b00100000_00000000_00000000_00000011 + 2892800 * 2 ^ 32) = some (.clsf true (some 2892800#32)) ∧
      decodeTableWord 64 (0b00100000_00000000_00000000_00000010 + 0xDEADBEEF * 2 ^ 32) = some (.clsf true none) := by
  decide +kernel
theorem test_decode_calw :
    decodeTableWord 64 (0b00110000_00000001_00000000_00000001 + 2560000 * 2 ^ 32) =
      some (.calw 1#8 (some 2560000#32)) := by decide +kernel
theorem test_decode_calt :
    decodeTableWord 64 (0b00110001_00000101_00000000_00000001 + 3020800 * 2 ^ 32) =
      some (.calt 5#8 (some 3020800#32)) := by decide +kernel
theorem test_decode_cclr : decodeTableWord 32 0b00110010_00000000_00000000_00000000 = some .cclr := by decide +kernel
theorem test_decode_cdone : decodeTableWord 32 0b00110011_00000000_00000000_00000000 = some .cdone := by decide +kernel
theorem test_decode_dstep :
    decodeTableWord 64 (0b01000000_00000101_00000000_00000001 + 3020800 * 2 ^ 32) =
      some (.dstep 5#8 (some 3020800#32)) := by decide +kernel
theorem test_decode_dclr : decodeTableWord 32 0b01000001_00000000_00000000_00000000 = some .dclr := by decide +kernel
theorem test_decode_frst : decodeTableWord 32 0b01010000_00000000_00000000_00000000 = some .frst := by decide +kernel
theorem test_decode_rdreg :
    decodeTableWord 32 0b01100000_01000001_00000000_00000000 = some (.rdreg 0x41#8) := by decide +kernel

/-- X1, X2, X3, X4, X5, X13 of 95_test_vectors.md: unassigned opcodes and reserved bits are refused. -/
theorem test_decode_refuses :
    [(32, 0x7F000000), (32, 0x00000001), (64, 0x20050001), (64, 0x40050003), (96, 0x10010003), (32, 0x60110001)].all
      (fun p => decodeTableWord p.1 p.2 == none) = true := by decide +kernel

/-- E2 and E3: how many words a block takes, and the packing of the A7 block's first samples. -/
theorem test_encode_block :
    (encode (.blk false false (List.replicate 441 0#16))).length = 222 ∧
      (encode (.blk false false (List.replicate 441 0#16))).head? = some 0x110001B9#32 ∧
      packSamples [16384#16, BitVec.ofInt 16 (-642), BitVec.ofInt 16 (-16334), 1921#16] = [0xFD7E4000#32, 0x0781C032#32] := by
  decide +kernel

/-! ## The commands -/

/-- E1: NOP answers 0, 0, 0 and leaves LASTERR (R155). -/
theorem test_nop : see .nop { State.reset with lastErr := 5#8 } State.lastErr = some (⟨0#32, 0#32, 0#32⟩, 5#8) := by
  decide +kernel

/-- A1 and A14: silence answers none; a block of another length is BAD_LENGTH. -/
theorem test_anlz_silence_and_length :
    see (.anlz (List.replicate 441 0#16)) State.reset State.errCnt = some (⟨0#32, 0#32, 0#32⟩, 0#16) ∧
      see (.anlz (List.replicate 440 0#16)) State.reset State.errCnt = some (⟨0x02000000#32, 0#32, 0#32⟩, 1#16) := by
  decide +kernel

/-- By hand from R88: with N_S = 5 the window is 0, 1/2, 1, 1/2, 0, so the block 0, 1000, −1000, 1000, 0 has
M[k] = 1000·|cos(2πk/5) − 1|, which is greatest at bin 2: BINFREQ(2) = 4515840. R93 (d): a single sample ties all
bins, and bin 1 wins: BINFREQ(1) = 2257920. R93 (e): a constant block has M[k] = 164·(1 + cos (2πk/5)), so bin 1 wins. -/
theorem test_anlz_peak :
    see (.anlz [0#16, 1000#16, BitVec.ofInt 16 (-1000), 1000#16, 0#16]) (fresh five) State.errCnt =
        some (⟨2#32, 4515840#32, 0#32⟩, 0#16) ∧
      see (.anlz [0#16, 20000#16, 0#16, 0#16, 0#16]) (fresh five) State.errCnt =
        some (⟨2#32, 2257920#32, 0#32⟩, 0#16) ∧
      see (.anlz (List.replicate 5 164#16)) (fresh five) State.errCnt =
        some (⟨2#32, 2257920#32, 0#32⟩, 0#16) := by decide +kernel

/-- E4: a silent block with OVF is counted (R153). -/
theorem test_blk_overflow :
    see (.blk true true (List.replicate 441 0#16)) State.reset (fun t => (t.ovfCnt, t.deb.histFill)) =
      some (⟨0#32, 0#32, 0#32⟩, 1#16, 1#2) := by decide +kernel

/-- By hand: the block of test_anlz_peak is 21618 from NOM[18] = 4494222, so BLK classifies it as 18; the run of 18 that
is one block long is then two long (T_SHORT), and the mean of 4515842 and 4515840 is reported (R136, R151). -/
theorem test_blk_event :
    see (.blk false false [0#16, 1000#16, BitVec.ofInt 16 (-1000), 1000#16, 0#16]) (running five 18#8 1 4515842 1)
      (fun t => (t.ovfCnt, t.deb.runLen)) = some (⟨0x00121203#32, 4515840#32, 4515841#32⟩, 0#16, 2#16) := by
  decide +kernel

/-- K3, K4, K8: strict tolerance, and no wrap. -/
theorem test_clsf_tolerance :
    [2926933, 2926932, 2875733, 2875734, 4294967295, 0].map (fun f =>
        (see (.clsf false (some (BitVec.ofNat 32 f))) State.reset fun _ => ()).map fun p => p.1.r0) =
      [some 0#32, some 0x00040000#32, some 0#32, some 0x00040000#32, some 0#32, some 0#32] := by decide +kernel

/-- K13, K14, K16: the lower channel wins a tie in a full table; NO forces Nominal. -/
theorem test_clsf_tie :
    [(false, 2905000), (false, 2905001), (false, 2904999), (true, 2905000)].map (fun p =>
        (see (.clsf p.1 (some (BitVec.ofNat 32 p.2))) k13 fun _ => ()).map fun q => q.1.r0) =
      [some 0x00040000#32, some 0x00050000#32, some 0x00040000#32, some 0x00040000#32] := by decide +kernel

/-- T1: an entry is written; the others stay. -/
theorem test_calw :
    see (.calw 1#8 (some 2560000#32)) State.reset (fun t => (calEntry t 1, calEntry t 2, statusWord t)) =
      some (⟨4#32, 0#32, 0#32⟩, ⟨true, 2560000#32⟩, ⟨false, 0#32⟩, 0x00000100#32) := by decide +kernel

/-- X7 to X10: BAD_CHANNEL before BAD_FREQ. -/
theorem test_calw_errors :
    [(0, some 2560000#32), (20, some 2560000#32), (0, none), (1, none)].map (fun p =>
        (see (.calw (BitVec.ofNat 8 p.1) p.2) State.reset State.errCnt).map fun q => (q.1.r0, q.2)) =
      [some (0x03000000#32, 1#16), some (0x03000000#32, 1#16), some (0x03000000#32, 1#16), some (0x04000000#32, 1#16)] := by
  decide +kernel

/-- T2 to T7: the verdicts, inclusive at the sanity bound. -/
theorem test_calt :
    [(5, 3020800), (5, 3300000), (1, 2752000), (1, 2752001), (1, 2368000), (1, 2367999), (5, 3123200)].map (fun p =>
        (see (.calt (BitVec.ofNat 8 p.1) (some (BitVec.ofNat 32 p.2))) State.reset calCount).map fun q => (q.1.r0, q.2)) =
      [some (0x00050004#32, 1), some (0x18#32, 0), some (0x08#32, 0), some (0x18#32, 0), some (0x08#32, 0),
        some (0x18#32, 0), some (0x00060008#32, 0)] := by decide +kernel

/-- T11: the table and CAL_DONE go, the debouncer stays. -/
theorem test_cclr :
    see .cclr { k13 with calDone := true, deb := (running Config.default 5#8 1 7 1).deb }
      (fun t => (calEntry t 4, calvMap t, t.calDone, t.deb.runCand)) =
      some (⟨0#32, 0#32, 0#32⟩, ⟨false, 0#32⟩, 0#32, false, 5#8) := by decide +kernel

/-- T8 and T9: CDONE sets CAL_DONE on a full table only. -/
theorem test_cdone :
    see .cdone { k13 with cal := k13.cal.set 6 CalEntry.empty } State.calDone = some (⟨0#32, 0#32, 0#32⟩, false) ∧
      see .cdone k13 (fun t => (statusWord t).extractLsb' 0 2) = some (⟨4#32, 0#32, 0#32⟩, 3#2) := by decide +kernel

/-- D4, step 72: the long tone's threshold and mean. -/
theorem test_dstep_long :
    see (.dstep 1#8 (some 2560000#32)) (running Config.default 1#8 69 176648960 69)
      (fun t => (t.deb.runLen, t.deb.runSum, t.deb.runRep)) =
      some (⟨0x00000101#32, 0#32, 2560128#32⟩, 70#16, 179208960#48, true) := by decide +kernel

/-- D8, step 6: a vote that changes starts a new run, seeded with this block's frequency. -/
theorem test_dstep_new_run :
    see (.dstep 8#8 (some 3353600#32))
      { State.reset with deb := ⟨5#8, 5#8, 8#8, 3#2, 5#8, 3#16, 9395200#48, 3#16, true⟩ } State.deb =
      some (⟨0#32, 0#32, 0#32⟩, ⟨5#8, 8#8, 8#8, 3#2, 8#8, 1#16, 3353600#48, 1#16, false⟩) := by decide +kernel

/-- D9: DCLR forgets the run. -/
theorem test_dclr :
    see .dclr (running Config.default 5#8 2 6041600 2) (fun t => (t.deb, statusWord t)) =
      some (⟨0#32, 0#32, 0#32⟩, ⟨0#8, 0#8, 0#8, 0#2, 0#8, 0#16, 0#48, 0#16, false⟩, 0#32) := by decide +kernel

/-- R154: FRST clears the session and keeps the counters. -/
theorem test_frst :
    see .frst { k13 with calDone := true, deb := (running Config.default 5#8 1 7 1).deb, errCnt := 3#16, ovfCnt := 2#16 }
      (fun t => (calCount t, t.calDone, t.deb.histFill, t.errCnt, t.ovfCnt)) =
      some (⟨0#32, 0#32, 0#32⟩, 0, false, 0#2, 3#16, 2#16) := by decide +kernel

/-- X12: the unassigned indices. -/
theorem test_rdreg_unassigned :
    [0x3F, 0x40, 0x54, 0x80, 0x94, 0x0D, 0x1B].all (fun n =>
      see (.rdreg (BitVec.ofNat 8 n)) State.reset State.lastErr == some (⟨0x05000000#32, 0#32, 0#32⟩, 5#8)) = true := by
  decide +kernel

/-- P1's end state: STATUS = 00001303 and CALVMAP = 000FFFFE. -/
theorem test_rdreg_status :
    see (.rdreg 0x10#8) { k13 with calDone := true } (fun _ => ()) = some (⟨0#32, 0x00001303#32, 0#32⟩, ()) ∧
      see (.rdreg 0x1A#8) k13 (fun _ => ()) = some (⟨0#32, 0x000FFFFE#32, 0#32⟩, ()) := by decide +kernel

/-! ## The step -/

/-- X3: the operand word of an illegal CLSF is consumed, and the next command is the NOP after it. -/
theorem test_step_illegal :
    nextOf (step { State.reset with input := [.word 0x20050001#32, .word 5#32, .word 0#32] }) =
      some { State.reset with
        input := [.word 0#32], lastErr := 1#8, errCnt := 1#16, resp := some ⟨0x01000000#32, 0#32, 0#32⟩ } := by
  decide +kernel

/-- `withFetchWord` makes the next step run the instruction. -/
theorem test_withFetchWord :
    nextOf (step (State.reset.withFetchWord 64 (0x30010001 + 2560000 * 2 ^ 32))) =
      nextOf (exec (.calw 1#8 (some 2560000#32)) State.reset) := by decide +kernel

/-- R190: RST inside a command. -/
theorem test_step_reset :
    nextOf (step { k13 with input := [.word 0x20000001#32, .rst, .word 0#32], errCnt := 9#16 }) =
      some { State.reset with input := [.word 0#32] } := by decide +kernel

/-! ## Cases that meet the hypotheses of the statements -/

theorem witness_DecodeOfEncodeIsTheCommand :
    (Instr.anlz (List.replicate 65535 0#16)).wf = true ∧ (Instr.blk true true []).wf = true ∧
      (Instr.clsf true none).wf = true ∧ (Instr.dstep 255#8 (some 0xFFFFFFFF#32)).wf = true := by
  simp only [Instr.wf, List.length_replicate]; decide

theorem witness_DecodedWordsAreTheEncoding :
    decode [0x20000000#32, 0xDEADBEEF#32, 7#32] = .ok (.clsf false none, [7#32]) ∧
      decode [0x10000003#32, 0xFFFF0001#32, 0xBEEF0002#32] = .ok (.anlz [1#16, 0xFFFF#16, 2#16], []) := ⟨rfl, rfl⟩

theorem witness_OpcodeRowsAreDisjoint :
    0x20000003#32 &&& opMask .clsf = opMatch .clsf ∧ 0x601A0000#32 &&& opMask .rdreg = opMatch .rdreg := by decide

theorem witness_SamplesArePackedEarlierLow :
    (65535 ≤ 65535 ∧ (List.replicate 32768 0#32).length = (65535 + 1) / 2) ∧
      (0 ≤ 65535 ∧ ([] : List Word).length = (0 + 1) / 2) ∧ (3 ≤ 65535 ∧ [1#32, 2#32].length = (3 + 1) / 2) := by
  simp only [List.length_replicate]; decide

theorem witness_StepRunsTheDecodedCommand :
    (fresh tiny).cfg.wf = true ∧ decode [0x20000000#32, 5#32, 0#32] = .ok (.clsf false none, [0#32]) ∧
      { fresh tiny with input := [.word 0x20000000#32, .word 5#32, .word 0#32, .rst] }.input =
        [0x20000000#32, 5#32, 0#32].map PortEvent.word ++ [.rst] := ⟨by decide +kernel, rfl, rfl⟩

theorem witness_UnassignedOpcodeIsIllegal :
    Config.default.wf = true ∧ ∀ w ∈ [0x7F000000#32, 0xFF000000#32, 0x01000000#32],
      w.extractLsb' 24 8 ∉
        [0x00#8, 0x10#8, 0x11#8, 0x20#8, 0x30#8, 0x31#8, 0x32#8, 0x33#8, 0x40#8, 0x41#8, 0x50#8, 0x60#8] := by
  simp only [List.forall_mem_cons, List.not_mem_nil, false_implies, implies_true, and_true]; decide +kernel

/-- One word of each format with a reserved bit, with the operand words of its format, and the channels just outside
the ranges. -/
theorem witness_ReservedBitIsIllegal :
    (0x00000001#32 &&& opMask .nop ≠ opMatch .nop ∧ (0x00000001#32).extractLsb' 24 8 = opCode .nop) ∧
      (0x60110001#32 &&& opMask .rdreg ≠ opMatch .rdreg ∧ (0x60110001#32).extractLsb' 24 8 = opCode .rdreg) ∧
      (0x40050003#32 &&& opMask .dstep ≠ opMatch .dstep ∧ (0x40050003#32).extractLsb' 24 8 = opCode .dstep ∧
        [0#32].length = 1) ∧
      (0x10010003#32 &&& opMask .anlz ≠ opMatch .anlz ∧ (0x10010003#32).extractLsb' 24 8 = opCode .anlz ∧
        [0#32, 0#32].length = (((0x10010003#32).extractLsb' 0 16).toNat + 1) / 2) ∧
      Config.default.wf = true ∧ (0#8).toNat = 0 ∧ Config.default.nCh < (20#8).toNat ∧
      Config.default.nCh < (255#8).toNat := by decide +kernel

theorem witness_IncompleteCommandWaits :
    Config.default.wf = true ∧ decode [] = .error .incomplete ∧ decode [0x20000001#32] = .error .incomplete ∧
      decode [0x110001B9#32, 0#32] = .error .incomplete := ⟨by decide +kernel, rfl, rfl, rfl⟩

theorem witness_ResetPutsEveryStateBack :
    k13.cfg.wf = true ∧ decode [0x20000001#32] = .error .incomplete ∧
      { k13 with input := [.word 0x20000001#32, .rst, .word 0#32] }.input =
        [0x20000001#32].map PortEvent.word ++ .rst :: [.word 0#32] := ⟨by decide +kernel, rfl, rfl⟩

theorem witness_IllFormedBuildIsRefused :
    { Config.default with nS := 2 }.wf = false ∧ Config.default.wf = true := by decide +kernel

theorem witness_ErrorsAreRecordedAndPrecise :
    (∃ t r, exec (.calw 0#8 none) State.reset = .next t ∧ t.resp = some r ∧ respErr r ≠ 0#8) ∧
      ∃ t r, exec .nop State.reset = .next t ∧ t.resp = some r ∧ respErr r = 0#8 :=
  ⟨⟨_, _, rfl, rfl, by decide⟩, ⟨_, _, rfl, rfl, by decide⟩⟩

/-- A block of the wrong length, a block just below the noise floor, and one that reaches it. -/
theorem witness_AnlzAnswersThePeakFrequency :
    0 < (fresh tiny).cfg.nS ∧ [0#16].length ≠ (fresh tiny).cfg.nS ∧
      ([163#16, BitVec.ofInt 16 (-163), 0#16].length = (fresh tiny).cfg.nS ∧
        ∀ a ∈ [163#16, BitVec.ofInt 16 (-163), 0#16], a.toInt.natAbs < (fresh tiny).cfg.noiseThr) ∧
      [0#16, BitVec.ofInt 16 (-164), 0#16].length = (fresh tiny).cfg.nS ∧
        ∃ a ∈ [0#16, BitVec.ofInt 16 (-164), 0#16], (fresh tiny).cfg.noiseThr ≤ a.toInt.natAbs := by
  simp only [List.forall_mem_cons, List.exists_mem_cons_iff, List.not_mem_nil, false_implies, implies_true, and_true,
    false_and, exists_false, or_false]
  decide +kernel

theorem witness_PeakSearchMeetsItsConstraint :
    (five.wf = true ∧ [0, 1000, -1000, 1000, (0 : Int)].length = five.nS ∧ five.epsPeak = 0) ∧
      slack.wf = true ∧ [1, 2, (3 : Int)].length = slack.nS ∧ slack.epsPeak ≠ 0 := by decide +kernel

theorem witness_EveryPeakWithinSlackIsAllowed :
    slack.wf = true ∧ [1, 2, (3 : Int)].length = slack.nS ∧ slack.epsPeak ≠ 0 := by decide +kernel

/-- The second build is one whose lowest bin has a frequency below one unit: the premise of the last clause fails. -/
theorem witness_AudibleBlockHasAFrequency :
    ((fresh tiny).cfg.wf = true ∧ [0#16, 164#16, 0#16].length = (fresh tiny).cfg.nS ∧
      (∃ a ∈ [0#16, 164#16, 0#16], (fresh tiny).cfg.noiseThr ≤ a.toInt.natAbs) ∧
      (fresh tiny).cfg.nS ≤ 256 * (fresh tiny).cfg.fsHz) ∧
      { Config.default with nS := 256, fsHz := 1 }.wf = true ∧ 256 ≤ 256 * 1 ∧
      { Config.default with nS := 257, fsHz := 1 }.wf = true ∧ ¬257 ≤ 256 * 1 := by
  simp only [List.exists_mem_cons_iff, List.not_mem_nil, false_and, exists_false, or_false]; decide +kernel

theorem witness_TiedSpectraPeakAtBinOne :
    (fresh five).cfg.wf = true ∧ (fresh five).cfg.epsPeak = 0 ∧
      ([500#16, 0#16, 0#16, 0#16, 400#16].length = 5 ∧ ∃ a ∈ [500#16, 0#16, 0#16, 0#16, 400#16], 164 ≤ a.toInt.natAbs) ∧
      (∀ n, 0 < n → n < 5 - 1 → [500#16, 0#16, 0#16, 0#16, 400#16].getD n 0#16 = 0#16) ∧
      ([0#16, 0#16, 200#16, 0#16, 0#16].length = 5 ∧ ∃ a ∈ [0#16, 0#16, 200#16, 0#16, 0#16], 164 ≤ a.toInt.natAbs) ∧
      ∃ m, ∀ n, n ≠ m → [0#16, 0#16, 200#16, 0#16, 0#16].getD n 0#16 = 0#16 := by
  refine ⟨by decide +kernel, by decide, ⟨rfl, 500#16, by simp, by decide⟩, fun n h1 h2 => ?_,
    ⟨rfl, 200#16, by simp, by decide⟩, 2, fun n h => ?_⟩
  · rcases n with _ | _ | _ | _ | n
    · omega
    · rfl
    · rfl
    · rfl
    · omega
  · rcases n with _ | _ | _ | _ | _ | n
    · rfl
    · rfl
    · exact absurd rfl h
    · rfl
    · rfl
    · rfl

theorem witness_ConstantBlockPeaksAtBinOne :
    ((fresh five).cfg.wf = true ∧ (fresh five).cfg.epsPeak = 0 ∧ (fresh five).cfg.noiseThr ≤ (164#16).toInt.natAbs) ∧
      (fresh five).cfg.noiseThr ≤ (0x8000#16).toInt.natAbs := by decide +kernel

/-- With the factor −2, and with 3/2. -/
theorem witness_ScalingKeepsThePeak :
    (fresh tiny).cfg.wf = true ∧ (fresh tiny).cfg.epsPeak = 0 ∧ [0#16, 164#16, 8#16].length = 3 ∧
      (-2 : Int) ≠ 0 ∧ (1 : Int) ≠ 0 ∧ (3 : Int) ≠ 0 ∧ (2 : Int) ≠ 0 ∧
      [0#16, BitVec.ofInt 16 (-328), BitVec.ofInt 16 (-16)].map (fun v => 1 * v.toInt) =
        [0#16, 164#16, 8#16].map (fun v => -2 * v.toInt) ∧
      [0#16, 246#16, 12#16].map (fun v => 2 * v.toInt) = [0#16, 164#16, 8#16].map (fun v => 3 * v.toInt) ∧
      (∃ v ∈ [0#16, 164#16, 8#16], 164 ≤ v.toInt.natAbs) ∧ (∃ v ∈ [0#16, 246#16, 12#16], 164 ≤ v.toInt.natAbs) ∧
      ∃ v ∈ [0#16, BitVec.ofInt 16 (-328), BitVec.ofInt 16 (-16)], 164 ≤ v.toInt.natAbs := by
  simp only [List.exists_mem_cons_iff, List.not_mem_nil, false_and, exists_false, or_false]; decide +kernel

theorem witness_NominalTableIsLinear :
    (Config.default.wf = true ∧ 1 ≤ 1 ∧ 1 < Config.default.nCh ∧ 1 ≤ 18 ∧ 18 < Config.default.nCh ∧
      19 ≤ Config.default.nCh) ∧ { Config.default with nCh := 31, fminHz := 1, fmaxHz := 2 }.wf = true := by
  decide +kernel

theorem witness_LookupSelectsTheTable :
    ((1 : Nat) ≤ 19 ∧ 19 ≤ State.reset.cfg.nCh ∧ (calEntry State.reset 19).valid = false) ∧
      ∀ e, 1 ≤ e → e ≤ k13.cfg.nCh → (calEntry k13 e).valid = true := by
  refine ⟨by decide, fun e h1 h2 => ?_⟩
  have h3 : e < 20 := Nat.lt_succ_of_le h2
  revert e
  decide +kernel

theorem witness_ClsfFindsTheNearestChannel : State.reset.cfg.wf = true ∧ k13.cfg.wf = true := by decide +kernel

/-- The first and the last channel; the table of K15, in which channels 4 and 5 have one centre. -/
theorem witness_CentreClassifiesToItsChannel :
    State.reset.cfg.wf = true ∧ 0 < State.reset.cfg.tol ∧ (1 ≤ 1 ∧ 1 ≤ State.reset.cfg.nCh) ∧
      (1 ≤ 19 ∧ 19 ≤ State.reset.cfg.nCh) ∧
      ((List.range 20).all fun e => e = 0 ∨
        (calEntry (filled Config.default fun c => if c = 5 then 2900000 else if c = 4 then 2900000 else nom Config.default c)
          e).valid = true) = true ∧
      (calEntry (filled Config.default fun c => if c = 5 then 2900000 else if c = 4 then 2900000 else nom Config.default c)
        5).value =
        (calEntry (filled Config.default fun c => if c = 5 then 2900000 else if c = 4 then 2900000 else nom Config.default c)
          4).value := by decide +kernel

theorem witness_PartialTableIsNeverUsed :
    ((1 : Nat) ≤ 1 ∧ 1 ≤ State.reset.cfg.nCh ∧ (calEntry State.reset 1).valid = false) ∧
      (1 : Nat) ≤ 19 ∧ (calEntry { State.reset with cal := k13.cal.take 18 } 19).valid = false ∧
      (calEntry { State.reset with cal := k13.cal.take 18 } 18).valid = true := by decide +kernel

theorem witness_CalwWritesOneEntry :
    State.reset.cal.length = State.reset.cfg.nCh ∧ (0#8).toNat = 0 ∧ State.reset.cfg.nCh < (20#8).toNat ∧
      (1 ≤ (1#8).toNat ∧ (1#8).toNat ≤ State.reset.cfg.nCh) ∧ 1 ≤ (19#8).toNat ∧
      (19#8).toNat ≤ State.reset.cfg.nCh := by decide +kernel

/-- An accepted and a rejected frequency, at the inclusive bound of the sanity check (T2, T4, T5). -/
theorem witness_CaltAcceptsOrRejects :
    State.reset.cal.length = State.reset.cfg.nCh ∧ (1 ≤ (1#8).toNat ∧ (1#8).toNat ≤ State.reset.cfg.nCh) ∧
      (classify State.reset (some 3020800#32) true = 5#8 ∧ saneTraining Config.default 5#8 3020800#32 = true) ∧
      (classify State.reset (some 2752000#32) true = 0#8 ∧ saneTraining Config.default 1#8 2752000#32 = true) ∧
      saneTraining Config.default 1#8 2752001#32 = false := by decide +kernel

theorem witness_CaltVerdictIsTheSameInEveryState : State.reset.cfg = k13.cfg ∧ State.reset ≠ k13 := by decide +kernel

theorem witness_CdoneMarksAFullTable :
    (∀ e, e < 20 → 1 ≤ e → (calEntry k13 e).valid = true) ∧ k13.cfg.nCh = 19 ∧
      (calEntry { k13 with cal := k13.cal.take 18 } 19).valid = false := by decide +kernel

theorem witness_CclrEmptiesTheTable : 0 < k13.cfg.nCh := by decide

theorem witness_CalcountChangesOnlyByOneOrToZero :
    State.reset.cal.length = State.reset.cfg.nCh ∧ ∃ t, exec (.calw 1#8 (some 5#32)) State.reset = .next t ∧
      calCount t = 1 := ⟨by decide, _, rfl, by decide +kernel⟩

theorem witness_AnchorLeavesOneEntry : k13.cfg.wf = true := by decide +kernel

theorem witness_DstepAppendsToTheHistory :
    (19#8).toNat ≤ State.reset.cfg.nCh ∧ (0#8).toNat ≤ State.reset.cfg.nCh ∧ State.reset.deb.histFill = 0#2 ∧
      (after (.dstep 5#8 none) State.reset).deb.histFill = 1#2 ∧
      (afterAll [.dstep 5#8 none, .dstep 0#8 none] State.reset).deb.histFill = 2#2 ∧
      (running Config.default 5#8 1 0 0).deb.histFill = 3#2 := by decide +kernel

theorem witness_VoteIsTwoOfThree :
    (5#8 ≠ 0#8 ∧ stable (running Config.default 5#8 1 0 0).deb = 5#8) ∧ stable Debouncer.empty = 0#8 := by decide

/-- A run that is extended, up to the last counted sample, and one that a new candidate ends. -/
theorem witness_RunIsExtendedOrStarted :
    ((5#8).toNat ≤ Config.default.nCh ∧ 2 ≤ (running Config.default 5#8 1 0 0).deb.histFill.toNat ∧
      stable (after (.dstep 5#8 (some 9#32)) (running Config.default 5#8 1 0 0)).deb =
        (running Config.default 5#8 1 0 0).deb.runCand) ∧
      ((running Config.default 5#8 1 (65534 * 4294967295) 65534).deb.runCnt.toNat < 65535 ∧
        (running Config.default 5#8 1 (65534 * 4294967295) 65534).deb.runSum.toNat ≤
          (running Config.default 5#8 1 (65534 * 4294967295) 65534).deb.runCnt.toNat * (2 ^ 32 - 1)) ∧
      (running Config.default 5#8 1 7 65535).deb.runCnt.toNat = 65535 ∧
      stable (after (.dstep 8#8 none) { State.reset with deb := ⟨5#8, 5#8, 8#8, 3#2, 5#8, 3#16, 0#48, 0#16, true⟩ }).deb =
        8#8 := by decide +kernel

/-- At the threshold, one below it, and a run already reported. -/
theorem witness_EventAtTheThreshold :
    (2 ≤ (running Config.default 1#8 69 0 0).deb.histFill.toNat ∧
      (after (.dstep 1#8 none) (running Config.default 1#8 69 0 0)).deb.runLen.toNat = Config.default.tLong ∧
      (after (.dstep 1#8 none) (running Config.default 1#8 69 0 0)).deb.runCand = 1#8) ∧
      (after (.dstep 1#8 none) (running Config.default 1#8 68 0 0)).deb.runLen.toNat + 1 = Config.default.tLong ∧
      { (running Config.default 5#8 2 0 0).deb with runRep := true }.runRep = true := by decide +kernel

theorem witness_NoEventInTheFirstTwoSteps :
    [Instr.dstep 5#8 none, .nop, .blk false false [], .cclr].countP isBlockStep ≤ 2 := by decide

/-- A run of channel 7 that begins at the first step and passes its threshold of two, with one disagreeing block. -/
theorem witness_ExactlyOneEventPerRun :
    Config.default.wf = true ∧ 7#8 ≠ 0#8 ∧
      (∀ p ∈ [(7#8, some 3#32), (5#8, none), (7#8, some 4#32)], p.1.toNat ≤ Config.default.nCh) ∧
      2 ≤ (Debouncer.mk 0#8 7#8 7#8 3#2 0#8 0#16 0#48 0#16 false).histFill.toNat ∧
      (Debouncer.mk 0#8 7#8 7#8 3#2 0#8 0#16 0#48 0#16 false).runCand ≠ 7#8 ∧
      (∀ t ∈ statesOf (dsteps [(7#8, some 3#32), (5#8, none), (7#8, some 4#32)])
          { State.reset with deb := ⟨0#8, 7#8, 7#8, 3#2, 0#8, 0#16, 0#48, 0#16, false⟩ }, stable t.deb = 7#8) ∧
      (statesOf (dsteps [(7#8, some 3#32), (5#8, none), (7#8, some 4#32)])
          { State.reset with deb := ⟨0#8, 7#8, 7#8, 3#2, 0#8, 0#16, 0#48, 0#16, false⟩ }).map toneOut =
        [none, some (7#8, 3#32), none] := by
  simp only [List.forall_mem_cons, List.not_mem_nil, false_implies, implies_true, and_true]; decide +kernel

theorem witness_EventFrequencyIsTheMeanOfTheRun :
    (∀ t ∈ statesOf (dsteps [(7#8, some 3#32), (5#8, some 8#32)])
        { State.reset with deb := ⟨0#8, 7#8, 7#8, 3#2, 0#8, 0#16, 0#48, 0#16, false⟩ }, stable t.deb = 7#8) ∧
      ((statesOf (dsteps [(7#8, some 3#32), (5#8, some 8#32)])
        { State.reset with deb := ⟨0#8, 7#8, 7#8, 3#2, 0#8, 0#16, 0#48, 0#16, false⟩ }).getLast?.bind toneOut =
          some (7#8, 5#32)) ∧
      ((statesOf (dsteps [(5#8, none), (5#8, none)])
        { State.reset with deb := ⟨0#8, 5#8, 5#8, 3#2, 0#8, 0#16, 0#48, 0#16, false⟩ }).getLast?.bind toneOut =
          some (5#8, 3015111#32)) := by decide +kernel

/-- The default build, whose thresholds are at least two, and a build with T_SHORT = 1. -/
theorem witness_AlternationGivesNoEvent :
    State.reset.cfg.wf = true ∧ (5#8).toNat ≤ 19 ∧ (0#8).toNat ≤ 19 ∧ 5#8 ≠ 0#8 ∧
      State.reset.deb = Debouncer.empty ∧ 2 ≤ threshold Config.default 5#8 ∧
      { Config.default with tShort := 1 }.wf = true ∧ threshold { Config.default with tShort := 1 } 5#8 < 2 := by
  decide +kernel

theorem witness_ToneIsReportedAfterThresholdPlusTwo :
    State.reset.cfg.wf = true ∧ 5#8 ≠ 0#8 ∧ (5#8).toNat ≤ State.reset.cfg.nCh ∧ State.reset.deb = Debouncer.empty ∧
      (statesOf ([some 1#32, none, none, some 2#32, none].map fun f => .dstep 5#8 f) State.reset).map
        (fun t => (toneOut t).isSome) = [false, false, false, true, false] := by decide +kernel

theorem witness_TwoDisagreeingBlocksEndARun :
    5#8 ≠ 0#8 ∧ 0#8 ≠ 5#8 ∧ (0#8).toNat ≤ Config.default.nCh ∧ 19#8 ≠ 5#8 ∧ (19#8).toNat ≤ Config.default.nCh ∧
      (running Config.default 5#8 3 0 0).deb.hist0 = 5#8 ∧ (running Config.default 5#8 3 0 0).deb.hist1 = 5#8 ∧
      (running Config.default 5#8 3 0 0).deb.hist2 = 5#8 ∧ (running Config.default 5#8 3 0 0).deb.histFill = 3#2 ∧
      (running Config.default 5#8 3 0 0).deb.runCand = 5#8 := by decide +kernel

theorem witness_BlkIsAnlzThenClsfThenDstep :
    (fresh tiny).cfg.wf = true ∧ [0#16].length ≠ (fresh tiny).cfg.nS ∧
      [0#16, 200#16, 0#16].length = (fresh tiny).cfg.nS := by decide +kernel

theorem witness_OverflowFlagOnlyCounts :
    [0#16, 200#16, 0#16].length = (fresh tiny).cfg.nS ∧ { fresh tiny with ovfCnt := 65535#16 }.cfg.nS = 3 := by
  decide +kernel

theorem witness_NopOnlyAnswers : (0x00000001#32).extractLsb' 24 8 = 0#8 ∧ 0x00000001#32 ≠ 0#32 := by decide

theorem witness_RdregReadsARegister :
    1#16 ≠ 0#16 ∧ regRead State.reset 0x00#8 = some 0x42504607#32 ∧ regRead State.reset 0x93#8 = some 0#32 ∧
      regRead State.reset 0x94#8 = none ∧ regRead State.reset 0x0D#8 = none := by decide +kernel

theorem witness_RegisterMap : k13.cfg.wf = true ∧ { Config.default with nCh := 31 }.wf = true := by decide +kernel

theorem witness_StatusAndValidBits : k13.cfg.wf = true ∧ { Config.default with nCh := 31 }.wf = true := by decide +kernel

theorem witness_CommandFrames :
    (∃ t, exec (.clsf true none) k13 = .next t) ∧ ∃ t, exec (.dstep 5#8 none) k13 = .next t := ⟨⟨_, rfl⟩, ⟨_, rfl⟩⟩

/-- A rejected CALT, and a CALW that is performed. -/
theorem witness_RepeatableCommands :
    (∃ t r, exec (.calt 5#8 (some 3300000#32)) State.reset = .next t ∧ t.resp = some r ∧ respErr r = 0#8 ∧
        r.r0.getLsbD 2 = false) ∧
      ∃ t r, exec (.calw 5#8 (some 1#32)) State.reset = .next t ∧ t.resp = some r ∧ respErr r = 0#8 :=
  ⟨⟨_, _, rfl, rfl, by decide +kernel, by decide +kernel⟩, ⟨_, _, rfl, rfl, by decide +kernel⟩⟩

/-- A state in mid-session: a full table that is marked done, a run that was reported. -/
def session : State :=
  { filled tiny fun c => 100 * c with
    calDone := true, deb := ⟨2#8, 2#8, 0#8, 3#2, 2#8, 3#16, 12#48, 2#16, true⟩, input := [.word 0#32] }

theorem witness_StepKeepsTheInvariants : Inv session ∧ ∃ t, step session = .next t := by
  refine ⟨⟨by decide, by decide, by decide, fun c => ?_, by decide, by decide, by decide, by decide⟩, ?_⟩
  · rcases c with _ | _ | _ | _ | _ | c <;> intro h <;> first | rfl | exact absurd h (by decide)
  · have hw : session.cfg.wf = true := by decide +kernel
    exact ⟨_, by simp only [step, hw, if_true]; rfl⟩

theorem witness_ResponsesHoldChannels :
    session.cfg.wf = true ∧ ∃ t r, exec (.dstep 4#8 none) session = .next t ∧ t.resp = some r :=
  ⟨by decide +kernel, _, _, rfl, rfl⟩

end Sys2Proof.Tests
end

section
/-! What one step can do (00_scope.md R5, 30_encoding.md R65, 70_reset_and_hazards.md R190). -/

namespace Sys2Proof.Machine

/-- Every command answers a next state (60_exceptions.md R168). -/
theorem exec_eq_next_after (i : Instr) (s : State) : exec i s = .next (after i s) := by
  obtain ⟨t, ht, -⟩ := exec_cases i s
  simp only [after, ht]

theorem step_of_not_wf {s : State} (h : s.cfg.wf = false) : step s = .refused .buildNotWellFormed := by
  simp [step, h]

/-- A step of a well-formed build is one of four: waiting, RST, an illegal command, a command. -/
theorem step_cases {s : State} (h : s.cfg.wf = true) :
    ∃ t, step s = .next t ∧
      ((fetch s.input = .wait ∧ t = s) ∨
        (∃ rest, fetch s.input = .reset rest ∧ t = hardReset s rest) ∨
        (∃ rest, fetch s.input = .illegal rest ∧ t = raiseErr .illegalOp { s with input := rest }) ∨
        ∃ i rest, fetch s.input = .command i rest ∧ t = after i { s with input := rest }) := by
  cases hf : fetch s.input with
  | wait => exact ⟨s, by simp [step, h, hf], .inl ⟨rfl, rfl⟩⟩
  | reset rest => exact ⟨_, by simp only [step, h, hf, if_true], .inr (.inl ⟨rest, rfl, rfl⟩)⟩
  | illegal rest => exact ⟨_, by simp only [step, h, hf, if_true], .inr (.inr (.inl ⟨rest, rfl, rfl⟩))⟩
  | command i rest =>
    exact ⟨_, by simp only [step, h, hf, if_true, exec_eq_next_after],
      .inr (.inr (.inr ⟨i, rest, rfl, rfl⟩))⟩

/-- Settles O12: a build outside R5 is refused at once; on any other, `step_cases` gives a next state, which is no
refusal. -/
theorem illFormedBuildIsRefused : Obligations.IllFormedBuildIsRefused := by
  intro s
  have next_of_wf (h : s.cfg.wf = true) : ∃ t, step s = .next t :=
    let ⟨t, ht, _⟩ := step_cases h
    ⟨t, ht⟩
  refine ⟨⟨fun hr => ?_, step_of_not_wf⟩, next_of_wf⟩
  by_contra hwf
  obtain ⟨t, ht⟩ := next_of_wf (Bool.eq_true_of_not_eq_false hwf)
  rw [ht] at hr
  cases hr

end Sys2Proof.Machine
end

section
/-! The invariants of 10_state.md R37, table and debouncer apart: no operation touches both but FRST and RST. -/

namespace Sys2Proof.Machine

/-- What R37 and R34 say of the Calibrated table and its flag: clauses (c) and (d). -/
structure TableInv (s : State) : Prop where
  size : s.cal.length = s.cfg.nCh
  invalid_zero : ∀ c, (calEntry s c).valid = false → (calEntry s c).value = 0#32
  done_full : s.calDone = true → calFull s = true

/-- What R37 and R22 say of the debouncer of a build with `n` channels: clauses (a), (b), (e), (f) and (g). -/
structure DebInv (n : Nat) (d : Debouncer) : Prop where
  unused_slots : (d.histFill.toNat ≤ 0 → d.hist0 = 0#8) ∧ (d.histFill.toNat ≤ 1 → d.hist1 = 0#8) ∧
    (d.histFill.toNat ≤ 2 → d.hist2 = 0#8)
  channels : d.hist0.toNat ≤ n ∧ d.hist1.toNat ≤ n ∧ d.hist2.toNat ≤ n ∧ d.runCand.toNat ≤ n
  sum_bound : d.runSum.toNat ≤ d.runCnt.toNat * (2 ^ 32 - 1)
  none_unreported : d.runCand = 0#8 → d.runRep = false
  unfilled_run : d.histFill.toNat < 3 →
    d.runCand = 0#8 ∧ d.runLen = 0#16 ∧ d.runSum = 0#48 ∧ d.runCnt = 0#16 ∧ d.runRep = false

theorem inv_iff (s : State) : Inv s ↔ TableInv s ∧ DebInv s.cfg.nCh s.deb :=
  ⟨fun ⟨size, slots, chans, zero, full, sum, rep, run⟩ => ⟨⟨size, zero, full⟩, ⟨slots, chans, sum, rep, run⟩⟩,
    fun ⟨⟨size, zero, full⟩, ⟨slots, chans, sum, rep, run⟩⟩ => ⟨size, slots, chans, zero, full, sum, rep, run⟩⟩

/-! ### The table -/

theorem tableInv_congr {s t : State} (h : TableInv s) (hcfg : t.cfg = s.cfg) (hcal : t.cal = s.cal)
    (hdone : t.calDone = s.calDone) : TableInv t where
  size := by rw [hcal, hcfg, h.size]
  invalid_zero c := by rw [calEntry_congr hcal]; exact h.invalid_zero c
  done_full := by rw [hdone, calFull_congr hcal hcfg]; exact h.done_full

/-- CCLR, FRST, RST: an empty table that is not marked done. -/
theorem tableInv_of_empty {s : State} (hcal : s.cal = List.replicate s.cfg.nCh CalEntry.empty)
    (hdone : s.calDone = false) : TableInv s where
  size := by rw [hcal, List.length_replicate]
  invalid_zero c _ := by rw [calEntry_replicate hcal]
  done_full h := by simp [hdone] at h

/-- A write makes an entry valid and none invalid, so a full table stays full (41_calibration.md R109). -/
theorem tableInv_writeCal {s : State} {ch : Chan} (hch : isChannel s.cfg ch = true) (w : Word) (h : TableInv s) :
    TableInv (writeCal ch w s) := by
  rw [isChannel_iff] at hch
  have hentry := calEntry_writeCal (s := s) (ch := ch) (w := w) (by omega) (by rw [h.size]; omega)
  refine ⟨by simp [h.size], fun c hc => ?_, fun hdone => ?_⟩
  · rw [hentry] at hc ⊢
    split_ifs at hc ⊢
    exact h.invalid_zero c hc
  · have hfull := (calFull_iff s).mp (h.done_full hdone)
    refine (calFull_iff _).mpr fun e h1 h2 => ?_
    rw [hentry]
    split_ifs
    · rfl
    · exact hfull e h1 h2

theorem tableInv_setDone {s : State} (hfull : calFull s = true) (h : TableInv s) :
    TableInv { s with calDone := true } where
  size := h.size
  invalid_zero := h.invalid_zero
  done_full _ := hfull

/-! ### The debouncer -/

theorem debInv_empty (n : Nat) : DebInv n Debouncer.empty := by
  constructor <;> simp [Debouncer.empty]

/-- A push fills the first unused slot or drops the oldest, and leaves the run (43_debouncer.md R132). -/
theorem debInv_pushHist {n : Nat} {c : Chan} {d : Debouncer} (hc : c.toNat ≤ n) (h : DebInv n d) :
    DebInv n (pushHist c d) := by
  obtain ⟨⟨u0, u1, u2⟩, ⟨c0, c1, c2, c3⟩, sum, rep, run⟩ := h
  have hfill := pushHist_fill c d
  obtain ⟨r1, r2, r3, r4, r5⟩ := pushHist_run c d
  refine ⟨?_, ?_, by rw [r3, r4]; exact sum, by rw [r1, r5]; exact rep, ?_⟩
  · unfold pushHist
    split <;> simp_all
    omega
  · rw [r1]
    unfold pushHist
    split <;> exact ⟨by assumption, by assumption, by assumption, c3⟩
  · rw [r1, r2, r3, r4, r5]
    exact fun hlt => run (by omega)

/-- The counted samples bound the sum (10_state.md R22), also where a sample beyond the 65535th is dropped. -/
theorem extendRun_sum_bound {f : Option Word} {d : Debouncer}
    (h : d.runSum.toNat ≤ d.runCnt.toNat * (2 ^ 32 - 1)) :
    (extendRun f d).runSum.toNat ≤ (extendRun f d).runCnt.toNat * (2 ^ 32 - 1) := by
  cases f with
  | none => exact h
  | some w =>
    simp only [extendRun]
    split_ifs with hcnt
    · have := w.isLt
      simp only [BitVec.toNat_ofNat]
      omega
    · exact h

theorem startRun_sum_bound (v : Chan) (f : Option Word) (d : Debouncer) :
    (startRun v f d).runSum.toNat ≤ (startRun v f d).runCnt.toNat * (2 ^ 32 - 1) := by
  cases f with
  | none => simp [startRun]
  | some w =>
    have := w.isLt
    simp only [startRun]
    split_ifs
    · simp only [BitVec.toNat_setWidth, BitVec.toNat_ofNat]
      omega
    · simp

theorem voteRun_sum_bound {f : Option Word} {d : Debouncer}
    (h : d.runSum.toNat ≤ d.runCnt.toNat * (2 ^ 32 - 1)) :
    (voteRun f d).runSum.toNat ≤ (voteRun f d).runCnt.toNat * (2 ^ 32 - 1) := by
  unfold voteRun
  split_ifs
  · exact extendRun_sum_bound h
  · exact startRun_sum_bound ..

/-- A run of none is not reported: a run goes on with its own flag, and a new one is not reported yet. -/
theorem voteRun_none_unreported {f : Option Word} {d : Debouncer} (h : d.runCand = 0#8 → d.runRep = false) :
    (voteRun f d).runCand = 0#8 → (voteRun f d).runRep = false := by
  unfold voteRun
  split_ifs
  · rw [extendRun_eq]; exact h
  · rw [startRun_eq]; exact fun _ => rfl

theorem stable_le {n : Nat} {d : Debouncer} (h0 : d.hist0.toNat ≤ n) (h1 : d.hist1.toNat ≤ n) :
    (stable d).toNat ≤ n := by
  obtain h | h | h := stable_mem d <;> rw [h]
  · simp
  · exact h0
  · exact h1

/-- Steps 2 to 4 run on a full history only, so they may fill the run (43_debouncer.md R131). -/
theorem debInv_voteRun {n : Nat} {d : Debouncer} (f : Option Word) (hfull : d.histFill.toNat = 3) (h : DebInv n d) :
    DebInv n (voteRun f d) := by
  obtain ⟨h0, h1, h2, hfill⟩ := voteRun_hist f d
  obtain ⟨-, ⟨c0, c1, c2, -⟩, sum, rep, -⟩ := h
  refine ⟨by rw [hfill, hfull]; simp, ?_, voteRun_sum_bound sum, voteRun_none_unreported rep, by rw [hfill]; omega⟩
  rw [h0, h1, h2, voteRun_cand]
  exact ⟨c0, c1, c2, stable_le c0 c1⟩

/-- Emission reports a run of a channel only (43_debouncer.md R136). -/
theorem debInv_emit {n : Nat} {s : State} (hfull : s.deb.histFill.toNat = 3) (h : DebInv n s.deb) :
    DebInv n (emit s).1.deb := by
  unfold emit
  split_ifs with hskip
  · exact h
  · exact h
  · push Not at hskip
    obtain ⟨hcand, -⟩ := hskip
    exact ⟨h.unused_slots, h.channels, h.sum_bound, fun hc => absurd hc hcand,
      fun hlt => by simp only at hlt; omega⟩

theorem debInv_debounce {n : Nat} {c : Chan} {s : State} (f : Option Word) (hc : c.toNat ≤ n)
    (h : DebInv n s.deb) : DebInv n (debounce c f s).1.deb := by
  have hpush := debInv_pushHist hc h
  rcases Nat.lt_or_ge s.deb.histFill.toNat 2 with hfill | hfill
  · rw [debounce_filling hfill]; exact hpush
  · have hfull : (pushHist c s.deb).histFill.toNat = 3 := by rw [pushHist_fill]; omega
    obtain ⟨-, -, -, hvote⟩ := voteRun_hist f (pushHist c s.deb)
    rw [debounce_full hfill]
    exact debInv_emit (by rw [hvote, hfull]) (debInv_voteRun f hfull hpush)

/-! ### The machine -/

theorem inv_congr {s t : State} (h : Inv s) (hcfg : t.cfg = s.cfg) (hcal : t.cal = s.cal)
    (hdone : t.calDone = s.calDone) (hdeb : t.deb = s.deb) : Inv t := by
  rw [inv_iff] at h ⊢
  rw [hcfg, hdeb]
  exact ⟨tableInv_congr h.1 hcfg hcal hdone, h.2⟩

theorem inv_debounce {c : Chan} {s : State} (f : Option Word) (hc : c.toNat ≤ s.cfg.nCh) (h : Inv s) :
    Inv (debounce c f s).1 := by
  rw [inv_iff] at h ⊢
  rw [debounce_cfg]
  exact ⟨tableInv_congr h.1 (by simp) (by simp) (by simp), debInv_debounce f hc h.2⟩

theorem inv_writeCal {s : State} {ch : Chan} (hch : isChannel s.cfg ch = true) (w : Word) (h : Inv s) :
    Inv (writeCal ch w s) := by
  rw [inv_iff] at h ⊢
  exact ⟨tableInv_writeCal hch w h.1, h.2⟩

theorem inv_setDone {s : State} (hfull : calFull s = true) (h : Inv s) : Inv { s with calDone := true } := by
  rw [inv_iff] at h ⊢
  exact ⟨tableInv_setDone hfull h.1, h.2⟩

theorem inv_clearCal {s : State} (h : Inv s) : Inv (clearCal s) := by
  rw [inv_iff] at h ⊢
  exact ⟨tableInv_of_empty rfl rfl, h.2⟩

theorem inv_clearDeb {s : State} (h : Inv s) : Inv (clearDeb s) := by
  rw [inv_iff] at h ⊢
  exact ⟨tableInv_congr h.1 rfl rfl rfl, debInv_empty _⟩

theorem inv_resetOf (cfg : Cfg) (inp : List PortEvent) : Inv (State.resetOf cfg inp) :=
  (inv_iff _).mpr ⟨tableInv_of_empty rfl rfl, debInv_empty _⟩

/-- R5 bounds the number of channels by the width of CALVMAP. -/
theorem nCh_bounds {cfg : Cfg} (h : cfg.wf = true) : 4 ≤ cfg.nCh ∧ cfg.nCh ≤ 31 :=
  (of_decide_eq_true h).1

theorem effect_keeps_inv {i : Instr} {s u : State} (hwf : s.cfg.wf = true) (h : Inv s) (he : Effect i s u) :
    Inv u := by
  obtain ⟨hn4, hn31⟩ := nCh_bounds hwf
  cases i <;> simp only [Effect] at he
  case nop | anlz | clsf | rdreg => exact he ▸ h
  case blk no ovf block =>
    have hs : Inv (countOverflow ovf s) := inv_congr h (by simp) (by simp) (by simp) (by simp)
    rw [he]
    exact inv_debounce _ (classify_le _ _ _ (by rw [countOverflow_cfg]; omega) (by rw [countOverflow_cfg]; omega)) hs
  case calw =>
    obtain ⟨w, -, hch, rfl⟩ := he
    exact inv_writeCal hch w h
  case calt =>
    obtain rfl | ⟨w, -, hch, rfl⟩ := he
    · exact h
    · exact inv_writeCal hch w h
  case cclr => exact he ▸ inv_clearCal h
  case cdone =>
    obtain rfl | ⟨hfull, rfl⟩ := he
    · exact h
    · exact inv_setDone hfull h
  case dstep =>
    obtain ⟨hch, rfl⟩ := he
    exact inv_debounce _ (not_lt.mp ((isChanOpt_iff _ _).mp hch)) h
  case dclr => exact he ▸ inv_clearDeb h
  case frst => exact he ▸ inv_clearDeb (inv_clearCal h)

theorem after_keeps_inv {s : State} (i : Instr) (hwf : s.cfg.wf = true) (h : Inv s) : Inv (after i s) := by
  obtain ⟨e, he⟩ | ⟨F, u, he, -, -, heff⟩ := after_cases i s <;> rw [he]
  · exact inv_congr h rfl rfl rfl rfl
  · exact inv_congr (effect_keeps_inv hwf h heff) rfl rfl rfl rfl

/-- Settles O56: a refused build has no next state, and on any other a step waits, resets, raises ILLEGAL_OP or
performs a command. -/
theorem stepKeepsTheInvariants : Obligations.StepKeepsTheInvariants := by
  intro s t h hst
  cases hwf : s.cfg.wf with
  | false => rw [step_of_not_wf hwf] at hst; cases hst
  | true =>
    obtain ⟨t', ht', hcases⟩ := step_cases hwf
    obtain rfl := Host.Outcome.next.inj (ht'.symm.trans hst)
    have taken (rest : List PortEvent) : Inv { s with input := rest } := inv_congr h rfl rfl rfl rfl
    obtain ⟨-, rfl⟩ | ⟨rest, -, rfl⟩ | ⟨rest, -, rfl⟩ | ⟨i, rest, -, rfl⟩ := hcases
    · exact h
    · exact inv_resetOf ..
    · exact inv_congr (taken rest) rfl rfl rfl rfl
    · exact after_keeps_inv i hwf (taken rest)

/-- Settles O55: `inv_resetOf`, and the default build is one of the builds. -/
theorem resetMeetsTheInvariants : Obligations.ResetMeetsTheInvariants :=
  ⟨inv_resetOf .., inv_resetOf⟩

end Sys2Proof.Machine
end

section
/-! The register space (10_state.md R26 to R32). -/

namespace Sys2Proof.Machine

theorem toNat_append_eq_add {m n : Nat} (x : BitVec m) (y : BitVec n) :
    (x ++ y).toNat = 2 ^ n * x.toNat + y.toNat := by
  rw [BitVec.toNat_append, ← Nat.shiftLeft_add_eq_or_of_lt y.isLt, Nat.shiftLeft_eq, Nat.mul_comm]

/-- R101 interpolates between FMIN_HZ and FMAX_HZ. -/
theorem nom_le {cfg : Cfg} {c : Nat} (h : cfg.fminHz ≤ cfg.fmaxHz) (hc : c ≤ cfg.nCh) :
    nom cfg c ≤ 256 * cfg.fmaxHz := by
  obtain ⟨d, hd⟩ := Nat.exists_eq_add_of_le h
  rw [nom, hd, Nat.add_sub_cancel_left]
  refine Nat.div_le_of_le_mul ?_
  calc 256 * cfg.fminHz * (cfg.nCh - 1) + 256 * (c - 1) * d
      ≤ 256 * cfg.fminHz * (cfg.nCh - 1) + 256 * (cfg.nCh - 1) * d := by gcongr
    _ = (cfg.nCh - 1) * (256 * (cfg.fminHz + d)) := by ring

/-- R5 bounds FMAX_HZ by 2^24, so a nominal centre fits its register. -/
theorem nom_lt {cfg : Cfg} {c : Nat} (hwf : cfg.wf = true) (hc : c ≤ cfg.nCh) : nom cfg c < 2 ^ 32 := by
  obtain ⟨-, ⟨-, hlt, hmax⟩, -⟩ := of_decide_eq_true hwf
  have := nom_le hlt.le hc
  omega

/-! ### The windows and the unassigned indices -/

/-- Every index but those of R27 to R30 lies in a window of R31 or R32 or is unassigned. -/
theorem regRead_of_not_fixed (s : State) {n : Nat} (hn : n < 256) (h : 0x0C < n ∧ n < 0x10 ∨ 0x1A < n) :
    regRead s (BitVec.ofNat 8 n) =
      if 0x41 ≤ n && n ≤ 0x40 + s.cfg.nCh then some (BitVec.ofNat 32 (nom s.cfg (n - 0x40)))
      else if 0x81 ≤ n && n ≤ 0x80 + s.cfg.nCh then some (calEntry s (n - 0x80)).value
      else none := by
  rw [regRead, BitVec.toNat_ofNat, Nat.mod_eq_of_lt hn]
  split
  case h_25 => rfl
  all_goals omega

theorem regRead_nominal {s : State} {c : Nat} (hwf : s.cfg.wf = true) (h1 : 1 ≤ c) (h2 : c ≤ s.cfg.nCh) :
    regRead s (BitVec.ofNat 8 (0x40 + c)) = some (BitVec.ofNat 32 (nom s.cfg c)) := by
  have := nCh_bounds hwf
  rw [regRead_of_not_fixed s (by omega) (by omega), if_pos (by simp; omega), Nat.add_sub_cancel_left]

theorem regRead_calibrated {s : State} {c : Nat} (hwf : s.cfg.wf = true) (h1 : 1 ≤ c) (h2 : c ≤ s.cfg.nCh) :
    regRead s (BitVec.ofNat 8 (0x80 + c)) = some (calEntry s c).value := by
  have := nCh_bounds hwf
  rw [regRead_of_not_fixed s (by omega) (by omega), if_neg (by simp; omega), if_pos (by simp; omega),
    Nat.add_sub_cancel_left]

theorem regRead_unassigned (s : State) {n : Nat} (hn : n < 256) (h : 0x0C < n ∧ n < 0x10 ∨ 0x1A < n)
    (hnom : n ≤ 0x40 ∨ 0x40 + s.cfg.nCh < n) (hcal : n ≤ 0x80 ∨ 0x80 + s.cfg.nCh < n) :
    regRead s (BitVec.ofNat 8 n) = none := by
  rw [regRead_of_not_fixed s hn h, if_neg (by simp; omega), if_neg (by simp; omega)]

/-! ### The fixed indices -/

/-- The rows of R27 after the identification: index and parameter. -/
def parameterRows (cfg : Cfg) : List (Nat × Nat) :=
  [(0x01, cfg.nCh), (0x02, cfg.fsHz), (0x03, cfg.nS), (0x04, cfg.noiseThr), (0x05, cfg.tol),
    (0x06, cfg.sanityPermille), (0x07, cfg.tLong), (0x08, cfg.tShort), (0x09, cfg.longCh),
    (0x0A, cfg.fminHz), (0x0B, cfg.fmaxHz), (0x0C, (cfg.nS - 1) / 2)]

/-- The rows of R29 and R30 but CALVMAP: index and value. -/
def registerRows (s : State) : List (Nat × Nat) :=
  [(0x11, s.lastErr.toNat), (0x12, s.errCnt.toNat), (0x13, s.ovfCnt.toNat),
    (0x14, s.deb.hist0.toNat + 2 ^ 8 * s.deb.hist1.toNat + 2 ^ 16 * s.deb.hist2.toNat),
    (0x15, s.deb.runCand.toNat), (0x16, s.deb.runLen.toNat), (0x17, s.deb.runCnt.toNat),
    (0x18, s.deb.runSum.toNat % 2 ^ 32), (0x19, s.deb.runSum.toNat / 2 ^ 32)]

theorem regRead_parameterRows (s : State) :
    ∀ p ∈ parameterRows s.cfg, regRead s (BitVec.ofNat 8 p.1) = some (BitVec.ofNat 32 p.2) := by
  simp only [parameterRows, List.forall_mem_cons, List.not_mem_nil, false_implies, implies_true, and_true]
  and_intros <;> rfl

theorem parameterRows_lt {cfg : Cfg} (hwf : cfg.wf = true) : ∀ p ∈ parameterRows cfg, p.2 < 2 ^ 32 := by
  have := of_decide_eq_true hwf
  simp only [parameterRows, List.forall_mem_cons, List.not_mem_nil, false_implies, implies_true, and_true]
  omega

theorem toNat_histWord (d : Debouncer) :
    (0#8 ++ d.hist2 ++ d.hist1 ++ d.hist0).toNat =
      d.hist0.toNat + 2 ^ 8 * d.hist1.toNat + 2 ^ 16 * d.hist2.toNat := by
  simp only [toNat_append_eq_add, BitVec.toNat_ofNat]
  omega

/-- The two halves of the 48-bit RUN_SUM (R30). -/
theorem toNat_sumWords (n : BitVec 48) :
    (n.extractLsb' 0 32).toNat = n.toNat % 2 ^ 32 ∧
      ((n.extractLsb' 32 16).setWidth 32).toNat = n.toNat / 2 ^ 32 := by
  have := n.isLt
  rw [BitVec.toNat_setWidth_of_le (by decide), BitVec.extractLsb'_toNat, BitVec.extractLsb'_toNat,
    Nat.shiftRight_eq_div_pow]
  omega

theorem regRead_registerRows (s : State) :
    ∀ p ∈ registerRows s, ∃ v : Word, regRead s (BitVec.ofNat 8 p.1) = some v ∧ v.toNat = p.2 := by
  have widened {n : Nat} (x : BitVec n) (h : n ≤ 32) : (x.setWidth 32).toNat = x.toNat :=
    BitVec.toNat_setWidth_of_le h
  obtain ⟨hlow, hhigh⟩ := toNat_sumWords s.deb.runSum
  simp only [registerRows, List.forall_mem_cons, List.not_mem_nil, false_implies, implies_true, and_true]
  exact ⟨⟨_, rfl, widened _ (by decide)⟩, ⟨_, rfl, widened _ (by decide)⟩, ⟨_, rfl, widened _ (by decide)⟩,
    ⟨_, rfl, toNat_histWord s.deb⟩, ⟨_, rfl, widened _ (by decide)⟩, ⟨_, rfl, widened _ (by decide)⟩,
    ⟨_, rfl, widened _ (by decide)⟩, ⟨_, rfl, hlow⟩, ⟨_, rfl, hhigh⟩⟩

/-- Settles O50: the parameters and the nominal centres fit their registers by R5, the other registers by their
widths. -/
theorem registerMap : Obligations.RegisterMap := by
  intro s hwf
  refine ⟨rfl, ?_, fun c h1 h2 => ⟨?_, regRead_calibrated hwf h1 h2⟩,
    fun n hn h1 h2 => regRead_unassigned s hn (by omega)⟩
  · refine (List.forall_mem_append (l₁ := parameterRows s.cfg) (l₂ := registerRows s)).mpr
      ⟨fun p hp => ?_, regRead_registerRows s⟩
    exact ⟨_, regRead_parameterRows s p hp,
      (BitVec.toNat_ofNat ..).trans (Nat.mod_eq_of_lt (parameterRows_lt hwf p hp))⟩
  · exact ⟨_, regRead_nominal hwf h1 h2, (BitVec.toNat_ofNat ..).trans (Nat.mod_eq_of_lt (nom_lt hwf h2))⟩

/-! ### STATUS and CALVMAP -/

theorem statusWord_flags (s : State) :
    (statusWord s).getLsbD 0 = s.calDone ∧ (statusWord s).getLsbD 1 = calFull s ∧
      (statusWord s).getLsbD 20 = s.deb.runRep := by
  refine ⟨?_, ?_, ?_⟩ <;> simp only [statusWord, BitVec.getLsbD_append, bit, BitVec.getLsbD_ofBool] <;> simp

theorem statusWord_fields (s : State) :
    (statusWord s).extractLsb' 8 5 = BitVec.ofNat 5 (calCount s) ∧
      (statusWord s).extractLsb' 16 2 = s.deb.histFill := by
  constructor <;>
    simp (disch := decide) only [statusWord, BitVec.extractLsb'_append_eq_of_le,
      BitVec.extractLsb'_append_eq_of_add_le, Nat.reduceSub, BitVec.extractLsb'_eq_self]

theorem statusWord_reserved (s : State) :
    (statusWord s).extractLsb' 2 6 = 0#6 ∧ (statusWord s).extractLsb' 13 3 = 0#3 ∧
      (statusWord s).extractLsb' 18 2 = 0#2 ∧ (statusWord s).extractLsb' 21 11 = 0#11 := by
  refine ⟨?_, ?_, ?_, ?_⟩ <;>
    simp (disch := decide) only [statusWord, BitVec.extractLsb'_append_eq_of_le,
      BitVec.extractLsb'_append_eq_of_add_le, Nat.reduceSub, BitVec.extractLsb'_eq_self]

/-- There is no channel 0, so bit 0 is 0. -/
theorem calvMap_bit (s : State) {c : Nat} (h : c < 32) :
    (calvMap s).getLsbD c = (decide (1 ≤ c) && decide (c ≤ s.cfg.nCh) && (calEntry s c).valid) := by
  rw [calvMap, BitVec.getLsbD_ofFnLE, dif_pos h]
  cases c with
  | zero => simp [calEntry, CalEntry.empty]
  | succ i => simp

/-- Settles O51: CALCOUNT fits its five bits since R5 allows at most 31 channels. -/
theorem statusAndValidBits : Obligations.StatusAndValidBits := by
  intro s hwf
  obtain ⟨hdone, hfull, hrep⟩ := statusWord_flags s
  obtain ⟨hcount, hfill⟩ := statusWord_fields s
  obtain ⟨z2, z13, z18, z21⟩ := statusWord_reserved s
  have hlt : calCount s < 2 ^ 5 := by
    have := calCount_le s
    have := nCh_bounds hwf
    omega
  exact ⟨statusWord s, calvMap s, rfl, rfl, hdone, by rw [hfull, calFull_iff], z2,
    by rw [hcount, BitVec.toNat_ofNat, Nat.mod_eq_of_lt hlt], z13, hfill, z18, hrep, z21,
    fun c hc => calvMap_bit s hc⟩

/-- Settles O11: the default build evaluated right after reset; the table is empty there. -/
theorem resetRegistersRead : Obligations.ResetRegistersRead := by
  have hwf : State.reset.cfg.wf = true := by decide +kernel
  refine ⟨by decide +kernel, by decide +kernel, by decide +kernel, by decide +kernel, by decide +kernel,
    fun n h1 h2 => ?_⟩
  obtain ⟨c, rfl⟩ := Nat.exists_eq_add_of_le (show 0x80 ≤ n by omega)
  have hc : c ≤ State.reset.cfg.nCh := show c ≤ 19 by omega
  rw [regRead_calibrated hwf (by omega) hc, calEntry_replicate rfl]

end Sys2Proof.Machine
end

section
/-! Which commands can change which state (10_state.md R21, R22, R25, R29, R34; 44_pipeline_system.md R158). -/

namespace Sys2Proof.Machine

/-- The state each effect can write, by the command: table, CAL_DONE, debouncer, OVFCNT. -/
theorem effect_leaves {i : Instr} {s u : State} (h : Effect i s u) :
    ((∀ ch f, i ≠ .calw ch f ∧ i ≠ .calt ch f) → i ≠ .cclr → i ≠ .frst → u.cal = s.cal) ∧
      (i ≠ .cdone → i ≠ .cclr → i ≠ .frst → u.calDone = s.calDone) ∧
      (isBlockStep i = false → i ≠ .dclr → i ≠ .frst → u.deb = s.deb) ∧
      ((∀ no ovf block, i ≠ .blk no ovf block) → u.ovfCnt = s.ovfCnt) := by
  cases i <;> simp only [Effect] at h
  case nop | anlz | clsf | rdreg => simp [h]
  case blk => simp [h, isBlockStep]
  case calw =>
    obtain ⟨w, -, -, rfl⟩ := h
    simp
  case calt => obtain rfl | ⟨w, -, -, rfl⟩ := h <;> simp
  case cclr | dclr | frst => simp [h]
  case cdone => obtain rfl | ⟨-, rfl⟩ := h <;> simp
  case dstep =>
    obtain ⟨-, rfl⟩ := h
    simp [isBlockStep]

/-- Settles O52: an error writes its record and the response only, and a performed command writes what its effect
does. -/
theorem commandFrames : Obligations.CommandFrames := by
  intro i s t ht
  obtain ⟨t', ht', hcases⟩ := exec_cases i s
  obtain rfl := Host.Outcome.next.inj (ht'.symm.trans ht)
  obtain ⟨e, rfl⟩ | ⟨F, u, rfl, -, -, heff⟩ := hcases
  · simp
  · obtain ⟨hcal, hdone, hdeb, hovf⟩ := effect_leaves heff
    obtain ⟨hcfg, hinput, -, -⟩ := effect_frame heff
    exact ⟨hcal, hdone, hdeb, hovf, hcfg, hinput⟩

end Sys2Proof.Machine
end

section
/-! Sample packing (20_memory.md R53): the words of a format B command decode to the samples in their halves. -/

namespace Sys2Proof

/-- Sample 2j is the low half of word j and sample 2j+1 its high half; past the last word both sides are 0. -/
theorem flatMap_wordSamples_getD (ops : List Word) (j : Nat) :
    (ops.flatMap wordSamples).getD j 0#16 = (ops.getD (j / 2) 0#32).extractLsb' (16 * (j % 2)) 16 := by
  induction ops generalizing j with
  | nil => simp
  | cons w ops ih =>
    match j with
    | 0 => rfl
    | 1 => rfl
    | j + 2 =>
      rw [Nat.add_div_right j two_pos, Nat.add_mod_right]
      exact ih j

theorem length_unpackSamples {count : Nat} {ops : List Word} (h : count ≤ 2 * ops.length) :
    (unpackSamples count ops).length = count := by
  have hlen : (ops.flatMap wordSamples).length = 2 * ops.length := by
    simp [List.length_flatMap, wordSamples, Nat.mul_comm]
  rw [unpackSamples, List.length_take, hlen, Nat.min_eq_left h]

theorem unpackSamples_getD {count j : Nat} (h : j < count) (ops : List Word) :
    (unpackSamples count ops).getD j 0#16 = (ops.getD (j / 2) 0#32).extractLsb' (16 * (j % 2)) 16 := by
  rw [← flatMap_wordSamples_getD, unpackSamples, List.getD_eq_getElem?_getD, List.getElem?_take_of_lt h,
    List.getD_eq_getElem?_getD]

/-- A mask without the COUNT field clears it. -/
theorem wordB_and_mask (op : BitVec 8) (no ovf : Bool) (n : Nat) (m : BitVec 16) :
    wordB op no ovf n &&& (m ++ 0#16) = ((op ++ 0#6 ++ bit no ++ bit ovf) &&& m) ++ 0#16 := by
  rw [wordB, BitVec.and_append, BitVec.and_zero]

theorem anlz_word_matches (n : Nat) : wordB 0x10#8 false false n &&& opMask .anlz = opMatch .anlz :=
  wordB_and_mask 0x10#8 false false n 0xFFFF#16

theorem blk_word_matches (no ovf : Bool) (n : Nat) : wordB 0x11#8 no ovf n &&& opMask .blk = opMatch .blk := by
  refine (wordB_and_mask 0x11#8 no ovf n 0xFFFC#16).trans ?_
  cases no <;> cases ovf <;> rfl

/-- A format B command word without reserved bits and the operand words of its COUNT decode to its row's command. -/
theorem decode_wordB {o : Op} {no ovf : Bool} {count : Nat} {ops : List Word} (hformat : opFormat o = .b)
    (hmatch : wordB (opCode o) no ovf count &&& opMask o = opMatch o) (hcount : count ≤ 65535)
    (hlen : ops.length = (count + 1) / 2) :
    decode (wordB (opCode o) no ovf count :: ops) =
      .ok (buildInstr o (wordB (opCode o) no ovf count) ops, []) := by
  have hop := fieldOp_wordB (opCode o) no ovf count
  have hops : operandCount (wordB (opCode o) no ovf count) = ops.length := by
    rw [operandCount_of_code hop, hformat, hlen, fieldCount_wordB _ _ _ hcount]
  simp [decode, decodeCommand, hops, opOf_of_code hop, hmatch]

/-- Settles O5: the block is the halves of the operand words up to COUNT. -/
theorem samplesArePackedEarlierLow : Obligations.SamplesArePackedEarlierLow := by
  intro no ovf count ops hcount hlen
  refine ⟨unpackSamples count ops, length_unpackSamples (by omega), fun j hj => unpackSamples_getD hj ops, ?_, ?_⟩
  · refine (decode_wordB (o := .anlz) rfl (anlz_word_matches count) hcount hlen).trans ?_
    rw [buildInstr, fieldCount_wordB _ _ _ hcount]
  · refine (decode_wordB (o := .blk) rfl (blk_word_matches no ovf count) hcount hlen).trans ?_
    obtain ⟨hno, hovf⟩ := wordB_bits (opCode .blk) no ovf count
    rw [buildInstr, fieldCount_wordB _ _ _ hcount, hno, hovf]

end Sys2Proof
end

section
/-! Commands that change nothing but the response, and commands that may be repeated (20_memory.md R57). -/

namespace Sys2Proof.Machine

theorem errCode_ne_zero (e : Err) : errCode e ≠ 0#8 := by cases e <;> decide

/-- A command answered with ERR = 0 raised no error. -/
theorem not_raiseErr_of_respErr_zero {t : State} {r : Response} (hr : t.resp = some r) (hok : respErr r = 0#8)
    (e : Err) (s : State) : t ≠ raiseErr e s := by
  rintro rfl
  obtain rfl := Option.some.inj hr
  exact errCode_ne_zero e ((respErr_err e).symm.trans hok)

/-- A command answered with ERR = 0 was performed: it had its effect and answered. -/
theorem exec_performed {i : Instr} {s t : State} {r : Response} (h : exec i s = .next t) (hr : t.resp = some r)
    (hok : respErr r = 0#8) : ∃ u, t = { u with resp := some r } ∧ Effect i s u := by
  obtain ⟨t', ht', hcases⟩ := exec_cases i s
  obtain rfl := Host.Outcome.next.inj (ht'.symm.trans h)
  obtain ⟨e, he⟩ | ⟨F, u, rfl, -, -, heff⟩ := hcases
  · exact absurd he (not_raiseErr_of_respErr_zero hr hok e s)
  · exact ⟨u, by rw [← hr]; rfl, heff⟩

/-- CALT raises an error or answers, and writes only where it answers ACC = 1 (41_calibration.md R104). -/
theorem exec_calt_cases (ch : Chan) (f : Option Word) (s : State) :
    (∃ e, exec (.calt ch f) s = .next (raiseErr e s)) ∨
      ∃ F u, exec (.calt ch f) s = .next (respond F u) ∧ (F.acc = false → u = s) := by
  simp only [exec, execCalt]
  split_ifs
  · exact .inl ⟨_, rfl⟩
  · cases f with
    | none => exact .inl ⟨_, rfl⟩
    | some w =>
      simp only
      split_ifs
      · exact .inr ⟨_, _, rfl, fun hacc => nomatch hacc⟩
      · exact .inr ⟨_, s, rfl, fun _ => rfl⟩

theorem calt_rejected_changes_response_only {ch : Chan} {f : Option Word} {s t : State} {r : Response}
    (h : exec (.calt ch f) s = .next t) (hr : t.resp = some r) (hok : respErr r = 0#8)
    (hacc : r.r0.getLsbD 2 = false) : t = { s with resp := some r } := by
  obtain ⟨e, he⟩ | ⟨F, u, he, hu⟩ := exec_calt_cases ch f s <;> obtain rfl := Host.Outcome.next.inj (h.symm.trans he)
  · exact absurd rfl (not_raiseErr_of_respErr_zero hr hok e s)
  · obtain rfl := Option.some.inj hr
    obtain ⟨-, -, hbit, -⟩ := okResponse_bit F
    rw [hu (hbit.symm.trans hacc)]
    rfl

/-- CDONE sets a flag that it does not read, so CALFULL holds the second time as it did the first. -/
theorem exec_cdone_repeat {s t : State} (h : exec .cdone s = .next t) : exec .cdone t = .next t := by
  simp only [exec, execCdone] at h ⊢
  split_ifs at h with hfull <;> obtain rfl := Host.Outcome.next.inj h
  · exact if_pos ((calFull_congr rfl rfl).trans hfull)
  · exact if_neg fun hs => hfull ((calFull_congr rfl rfl).trans hs)

theorem exec_calw_of_isChannel {ch : Chan} {s : State} (hch : isChannel s.cfg ch = true) (w : Word) :
    exec (.calw ch (some w)) s = .next (respond { acc := true } (writeCal ch w s)) := by
  simp [exec, execCalw, hch]

/-- A CALW that is performed has a channel and a frequency, and its second write finds the entry it writes. -/
theorem exec_calw_repeat {ch : Chan} {f : Option Word} {s t : State} {r : Response}
    (h : exec (.calw ch f) s = .next t) (hr : t.resp = some r) (hok : respErr r = 0#8) :
    exec (.calw ch f) t = .next t := by
  obtain ⟨-, -, w, rfl, hch, -⟩ := exec_performed h hr hok
  obtain rfl := Host.Outcome.next.inj ((exec_calw_of_isChannel hch w).symm.trans h)
  rw [exec_calw_of_isChannel (by simpa using hch)]
  simp [respond, writeCal]

/-- Settles O53: a command whose effect is none leaves the state with its response, and clearing, marking or writing
again finds what it leaves. -/
theorem repeatableCommands : Obligations.RepeatableCommands := by
  intro i s t r h hr hok
  obtain ⟨u, ht, heff⟩ := exec_performed h hr hok
  constructor
  · rintro (rfl | ⟨b, rfl⟩ | ⟨no, f, rfl⟩ | ⟨n, rfl⟩ | ⟨⟨ch, f, rfl⟩, hacc⟩)
    case inr.inr.inr.inr => exact calt_rejected_changes_response_only h hr hok hacc
    all_goals
      obtain rfl : u = s := heff
      exact ht
  · rintro (rfl | rfl | rfl | rfl | ⟨ch, f, rfl⟩)
    case inr.inr.inr.inl => exact exec_cdone_repeat h
    case inr.inr.inr.inr => exact exec_calw_repeat h hr hok
    all_goals
      obtain rfl := Host.Outcome.next.inj h
      rfl

end Sys2Proof.Machine
end

section
/-! The decoder as a relation: what a stream that decodes looks like (30_encoding.md R65, R66, R70). -/

namespace Sys2Proof

/-- A stream decodes exactly where it begins with a command word and its operand words, and these make a command. -/
theorem decode_eq_ok_iff {ws rest : List Word} {i : Instr} :
    decode ws = .ok (i, rest) ↔
      ∃ w ops, ws = w :: (ops ++ rest) ∧ ops.length = operandCount w ∧ decodeCommand w ops = .ok i := by
  constructor
  · intro h
    cases ws with
    | nil => cases h
    | cons w ws =>
      simp only [decode] at h
      split_ifs at h with hlen
      cases hd : decodeCommand w (ws.take (operandCount w)) with
      | error e => rw [hd] at h; cases h
      | ok i' =>
        rw [hd] at h
        cases h
        exact ⟨w, _, by rw [List.take_append_drop], by rw [List.length_take]; omega, hd⟩
  · rintro ⟨w, ops, rfl, hlen, hd⟩
    have hlong : ¬(ops ++ rest).length < ops.length := by rw [List.length_append]; omega
    simp only [decode, ← hlen, if_neg hlong, List.take_left, List.drop_left, hd]

/-- Every mask of R70 covers the opcode field. -/
theorem fieldOp_of_match {w : Word} {o : Op} (h : w &&& opMask o = opMatch o) : fieldOp w = opCode o := by
  have hmask : fieldOp (opMask o) = BitVec.allOnes 8 := by cases o <;> rfl
  have hmatch : fieldOp (opMatch o) = opCode o := by cases o <;> rfl
  calc fieldOp w = fieldOp w &&& fieldOp (opMask o) := by rw [hmask, BitVec.and_allOnes]
    _ = fieldOp (w &&& opMask o) := BitVec.extractLsb'_and.symm
    _ = opCode o := by rw [h, hmatch]

theorem decodeCommand_eq_ok_iff {w : Word} {ops : List Word} {i : Instr} :
    decodeCommand w ops = .ok i ↔ ∃ o, w &&& opMask o = opMatch o ∧ buildInstr o w ops = i := by
  constructor
  · intro h
    unfold decodeCommand at h
    split at h
    · cases h
    · next o _ =>
      split_ifs at h with hm
      exact ⟨o, hm, Except.ok.inj h⟩
  · rintro ⟨o, hm, rfl⟩
    rw [decodeCommand, opOf_of_code (fieldOp_of_match hm)]
    exact if_pos hm

/-- Settles O3: the row is the one of the opcode field, which every mask covers. -/
theorem opcodeRowsAreDisjoint : Obligations.OpcodeRowsAreDisjoint := by
  intro w o₁ o₂ h₁ h₂
  have h := (opOf_of_code (fieldOp_of_match h₁)).symm.trans (opOf_of_code (fieldOp_of_match h₂))
  exact Option.some.inj h

/-- Settles O4: the decoder evaluated on each vector. -/
theorem listedWordsDecode : Obligations.ListedWordsDecode := by
  unfold Obligations.ListedWordsDecode
  and_intros <;> rfl

end Sys2Proof
end

section
/-! The command words of each row, field by field (30_encoding.md R66, R70, R73). -/

namespace Sys2Proof

open Sys2Proof.Machine (extract_above extract_high extract_low)

theorem bit_getLsbD {n : Nat} (x : BitVec n) (k : Nat) : bit (x.getLsbD k) = x.extractLsb' k 1 := by
  rw [BitVec.getLsbD_eq_extractLsb']
  generalize x.extractLsb' k 1 = y
  revert y
  decide

theorem wordB_reserved (op : BitVec 8) (no ovf : Bool) (n : Nat) : (wordB op no ovf n).extractLsb' 18 6 = 0#6 :=
  (extract_above _ _ 2 6).trans ((extract_above _ _ 1 6).trans ((extract_above _ _ 0 6).trans (extract_low ..)))

theorem wordF_reserved (op ch : BitVec 8) (no : Bool) (f : Option Word) : (wordF op ch no f).extractLsb' 2 14 = 0#14 :=
  (extract_above _ _ 1 14).trans ((extract_above _ _ 0 14).trans (extract_low ..))

/-- The fields of format B make up the word. -/
theorem eq_wordB_iff {w : Word} {op : BitVec 8} {no ovf : Bool} {n : Nat} :
    w = wordB op no ovf n ↔ fieldOp w = op ∧ w.extractLsb' 18 6 = 0#6 ∧ w.getLsbD 17 = no ∧ w.getLsbD 16 = ovf ∧
      fieldCount w = BitVec.ofNat 16 n := by
  constructor
  · rintro rfl
    obtain ⟨hno, hovf⟩ := wordB_bits op no ovf n
    exact ⟨fieldOp_wordB .., wordB_reserved .., hno, hovf, extract_low ..⟩
  · rintro ⟨hop, hres, hno, hovf, hcount⟩
    rw [wordB, ← hop, ← hres, ← hno, ← hovf, ← hcount, bit_getLsbD, bit_getLsbD, fieldOp, fieldCount]
    simp (disch := decide) only [BitVec.extractLsb'_append_extractLsb'_eq_extractLsb', BitVec.extractLsb'_eq_self]

/-- The fields of format F make up the word. -/
theorem eq_wordF_iff {w : Word} {op ch : BitVec 8} {no : Bool} {f : Option Word} :
    w = wordF op ch no f ↔ fieldOp w = op ∧ fieldByte w = ch ∧ w.extractLsb' 2 14 = 0#14 ∧ w.getLsbD 1 = no ∧
      w.getLsbD 0 = f.isSome := by
  constructor
  · rintro rfl
    exact ⟨fieldOp_wordF .., fieldByte_wordF .., wordF_reserved .., wordF_bits op ch no f⟩
  · rintro ⟨hop, hch, hres, hno, hfv⟩
    rw [wordF, ← hop, ← hch, ← hres, ← hno, ← hfv, bit_getLsbD, bit_getLsbD, fieldOp, fieldByte]
    simp (disch := decide) only [BitVec.extractLsb'_append_extractLsb'_eq_extractLsb', BitVec.extractLsb'_eq_self]

theorem eq_wordR_iff {w : Word} {op idx : BitVec 8} :
    w = op ++ idx ++ 0#16 ↔ fieldOp w = op ∧ fieldByte w = idx ∧ w.extractLsb' 0 16 = 0#16 := by
  constructor
  · rintro rfl
    exact ⟨fieldOp_wordR .., fieldByte_wordR .., extract_low ..⟩
  · rintro ⟨hop, hidx, hres⟩
    rw [← hop, ← hidx, ← hres, fieldOp, fieldByte]
    simp (disch := decide) only [BitVec.extractLsb'_append_extractLsb'_eq_extractLsb', BitVec.extractLsb'_eq_self]

/-! ### Which words match a row -/

theorem extractLsb'_and_of_ones {n k l : Nat} {m : BitVec n} (h : m.extractLsb' k l = BitVec.allOnes l)
    (w : BitVec n) : (w &&& m).extractLsb' k l = w.extractLsb' k l := by
  rw [BitVec.extractLsb'_and, h, BitVec.and_allOnes]

theorem extractLsb'_and_of_zeros {n k l : Nat} {m : BitVec n} (h : m.extractLsb' k l = 0#l) (w : BitVec n) :
    (w &&& m).extractLsb' k l = 0#l := by
  rw [BitVec.extractLsb'_and, h, BitVec.and_zero]

theorem isSome_freqOperand (w : Word) (ops : List Word) : (freqOperand w ops).isSome = w.getLsbD 0 := by
  unfold freqOperand
  split_ifs with hfv
  · exact hfv.symm
  · exact (Bool.eq_false_of_not_eq_true hfv).symm

theorem match_anlz_iff {w : Word} :
    w &&& opMask .anlz = opMatch .anlz ↔ w = wordB 0x10#8 false false (fieldCount w).toNat := by
  rw [show opMatch .anlz = wordB 0x10#8 false false 0 from rfl, eq_wordB_iff, eq_wordB_iff, BitVec.ofNat_toNat,
    BitVec.setWidth_eq]
  simp (disch := decide) only [fieldOp, fieldCount, extractLsb'_and_of_ones, extractLsb'_and_of_zeros,
    BitVec.getLsbD_and]
  simp [opMask]

theorem match_blk_iff {w : Word} :
    w &&& opMask .blk = opMatch .blk ↔ w = wordB 0x11#8 (w.getLsbD 17) (w.getLsbD 16) (fieldCount w).toNat := by
  rw [show opMatch .blk = wordB 0x11#8 false false 0 from rfl, eq_wordB_iff, eq_wordB_iff, BitVec.ofNat_toNat,
    BitVec.setWidth_eq]
  simp (disch := decide) only [fieldOp, fieldCount, extractLsb'_and_of_ones, extractLsb'_and_of_zeros,
    BitVec.getLsbD_and]
  simp [opMask]

theorem match_clsf_iff {w : Word} (ops : List Word) :
    w &&& opMask .clsf = opMatch .clsf ↔ w = wordF 0x20#8 0#8 (w.getLsbD 1) (freqOperand w ops) := by
  rw [show opMatch .clsf = wordF 0x20#8 0#8 false none from rfl, eq_wordF_iff, eq_wordF_iff, isSome_freqOperand]
  simp (disch := decide) only [fieldOp, fieldByte, extractLsb'_and_of_ones, BitVec.getLsbD_and]
  simp [opMask]

/-- CALW, CALT and DSTEP: the rows of format F with a channel. -/
theorem match_channel_iff {o : Op} {op : BitVec 8} (hmask : opMask o = 0xFF00FFFE#32)
    (hmatch : opMatch o = wordF op 0#8 false none) {w : Word} (ops : List Word) :
    w &&& opMask o = opMatch o ↔ w = wordF op (fieldByte w) false (freqOperand w ops) := by
  rw [hmask, hmatch, eq_wordF_iff, eq_wordF_iff, isSome_freqOperand]
  simp (disch := decide) only [fieldOp, fieldByte, extractLsb'_and_of_ones, extractLsb'_and_of_zeros,
    BitVec.getLsbD_and]
  simp

theorem match_rdreg_iff {w : Word} :
    w &&& opMask .rdreg = opMatch .rdreg ↔ w = 0x60#8 ++ fieldByte w ++ 0#16 := by
  rw [show opMatch .rdreg = 0x60#8 ++ 0#8 ++ 0#16 from rfl, eq_wordR_iff, eq_wordR_iff]
  simp (disch := decide) only [fieldOp, fieldByte, extractLsb'_and_of_ones, extractLsb'_and_of_zeros, true_and]

end Sys2Proof
end

section
/-! Decoding an encoded command (30_encoding.md R75). -/

namespace Sys2Proof

theorem encodesWhole : ∀ i : Instr, Laws.EncodesWhole.Statement i
  | .nop => Laws.EncodesWhole.nop
  | .anlz block => Laws.EncodesWhole.anlz block
  | .blk no ovf block => Laws.EncodesWhole.blk no ovf block
  | .clsf no f => Laws.EncodesWhole.clsf no f
  | .calw ch f => Laws.EncodesWhole.calw ch f
  | .calt ch f => Laws.EncodesWhole.calt ch f
  | .cclr => Laws.EncodesWhole.cclr
  | .cdone => Laws.EncodesWhole.cdone
  | .dstep ch f => Laws.EncodesWhole.dstep ch f
  | .dclr => Laws.EncodesWhole.dclr
  | .frst => Laws.EncodesWhole.frst
  | .rdreg idx => Laws.EncodesWhole.rdreg idx

/-- The encoder's words of CALW, CALT and DSTEP match their rows, whatever the channel (R73). -/
theorem wordF_channel_match {o : Op} {op : BitVec 8} (hmask : opMask o = 0xFF00FFFE#32)
    (hmatch : opMatch o = wordF op 0#8 false none) (ch : Chan) (f : Option Word) :
    wordF op ch false f &&& opMask o = opMatch o := by
  rw [match_channel_iff hmask hmatch [freqWord f], fieldByte_wordF, freqOperand_wordF]

theorem wordF_clsf_match (no : Bool) (f : Option Word) :
    wordF 0x20#8 0#8 no f &&& opMask .clsf = opMatch .clsf := by
  rw [match_clsf_iff [freqWord f], (wordF_bits ..).1, freqOperand_wordF]

theorem decodeCommand_encode {i : Instr} {w : Word} {ops : List Word} (hwf : i.wf = true) (he : encode i = w :: ops) :
    decodeCommand w ops = .ok i := by
  rw [decodeCommand_eq_ok_iff]
  cases i <;> cases he
  case nop => exact ⟨.nop, rfl, rfl⟩
  case cclr => exact ⟨.cclr, rfl, rfl⟩
  case cdone => exact ⟨.cdone, rfl, rfl⟩
  case dclr => exact ⟨.dclr, rfl, rfl⟩
  case frst => exact ⟨.frst, rfl, rfl⟩
  case anlz block =>
    have hlen : block.length ≤ 65535 := of_decide_eq_true hwf
    exact ⟨.anlz, anlz_word_matches _, by rw [buildInstr, fieldCount_wordB _ _ _ hlen, unpack_pack]⟩
  case blk no ovf block =>
    have hlen : block.length ≤ 65535 := of_decide_eq_true hwf
    obtain ⟨hno, hovf⟩ := wordB_bits 0x11#8 no ovf block.length
    exact ⟨.blk, blk_word_matches .., by rw [buildInstr, fieldCount_wordB _ _ _ hlen, unpack_pack, hno, hovf]⟩
  case clsf no f =>
    exact ⟨.clsf, wordF_clsf_match no f, by rw [buildInstr, (wordF_bits ..).1, freqOperand_wordF]⟩
  case calw ch f =>
    exact ⟨.calw, wordF_channel_match rfl rfl ch f, by rw [buildInstr, fieldByte_wordF, freqOperand_wordF]⟩
  case calt ch f =>
    exact ⟨.calt, wordF_channel_match rfl rfl ch f, by rw [buildInstr, fieldByte_wordF, freqOperand_wordF]⟩
  case dstep ch f =>
    exact ⟨.dstep, wordF_channel_match rfl rfl ch f, by rw [buildInstr, fieldByte_wordF, freqOperand_wordF]⟩
  case rdreg idx =>
    exact ⟨.rdreg, match_rdreg_iff.mpr (by rw [fieldByte_wordR]), by rw [buildInstr, fieldByte_wordR]⟩

/-- Settles O1: the words of a command are its command word and the operand words of its format, and their fields are
its operands. -/
theorem decodeOfEncodeIsTheCommand : Obligations.DecodeOfEncodeIsTheCommand := by
  intro i rest hwf
  obtain ⟨w, ops, he, hlen⟩ := encodesWhole i hwf
  exact decode_eq_ok_iff.mpr ⟨w, ops, by rw [he]; rfl, hlen, decodeCommand_encode hwf he⟩

end Sys2Proof
end

section
/-! Encoding a decoded command (30_encoding.md R73, R74). -/

namespace Sys2Proof

open Sys2Proof.Machine (ignoredBits)

/-- The padding halfword of a block of `count` samples, among the bits of word `j` of its command (R74). -/
def paddingBits (count j : Nat) : Word := if count % 2 = 1 ∧ j = (count + 1) / 2 then 0xFFFF0000#32 else 0#32

/-- The operand words that the encoder writes for the command of row `o` in a word and its operand words. -/
def operandWords (o : Op) (w : Word) (ops : List Word) : List Word :=
  match opFormat o with
  | .z => []
  | .b => packSamples (unpackSamples (fieldCount w).toNat ops)
  | .f => [freqWord (freqOperand w ops)]
  | .r => []

theorem wf_buildInstr (o : Op) (w : Word) (ops : List Word) : (buildInstr o w ops).wf = true := by
  have hblock : (unpackSamples (fieldCount w).toNat ops).length ≤ 65535 := by
    have hle : (unpackSamples (fieldCount w).toNat ops).length ≤ (fieldCount w).toNat := List.length_take_le ..
    have := (fieldCount w).isLt
    omega
  cases o
  case anlz | blk => exact decide_eq_true hblock
  all_goals rfl

/-- The operand words of a block hold all of its samples (20_memory.md R53). -/
theorem count_le_of_format_b {o : Op} {w : Word} {ops : List Word} (hop : fieldOp w = opCode o)
    (hlen : ops.length = operandCount w) (hf : opFormat o = .b) : (fieldCount w).toNat ≤ 2 * ops.length := by
  rw [operandCount_of_code hop, hf] at hlen
  change ops.length = ((fieldCount w).toNat + 1) / 2 at hlen
  omega

theorem encode_buildInstr {o : Op} {w : Word} {ops : List Word} (hm : w &&& opMask o = opMatch o)
    (hlen : ops.length = operandCount w) : encode (buildInstr o w ops) = w :: operandWords o w ops := by
  have hblock (hf : opFormat o = .b) : (unpackSamples (fieldCount w).toNat ops).length = (fieldCount w).toNat :=
    length_unpackSamples (count_le_of_format_b (fieldOp_of_match hm) hlen hf)
  have hword (hmask : opMask o = BitVec.allOnes 32) : opMatch o = w := by
    rw [← hm, hmask, BitVec.and_allOnes]
  cases o
  case nop | cclr | cdone | dclr | frst => exact congrArg (· :: []) (hword rfl)
  case anlz => rw [buildInstr, encode, hblock rfl, ← match_anlz_iff.mp hm]; rfl
  case blk => rw [buildInstr, encode, hblock rfl, ← match_blk_iff.mp hm]; rfl
  case clsf => rw [buildInstr, encode, ← (match_clsf_iff ops).mp hm]; rfl
  case calw | calt | dstep => exact congrArg (· :: _) ((match_channel_iff rfl rfl ops).mp hm).symm
  case rdreg => exact congrArg (· :: _) (match_rdreg_iff.mp hm).symm

theorem and_not_padding (a b : BitVec 16) : (b ++ a) &&& ~~~paddingBits 1 1 = 0#16 ++ a := by
  calc (b ++ a) &&& ~~~paddingBits 1 1 = (b ++ a) &&& (0#16 ++ BitVec.allOnes 16) := rfl
    _ = 0#16 ++ a := by rw [BitVec.and_append, BitVec.and_zero, BitVec.and_allOnes]

theorem paddingBits_add_two (n j : Nat) : paddingBits (n + 2) (j + 2) = paddingBits n (j + 1) := by
  unfold paddingBits
  congr 1
  apply propext
  omega

/-- Packing again the samples of operand words gives these back but for the padding (20_memory.md R53). -/
theorem packSamples_unpackSamples {count : Nat} {ops : List Word} (hlen : ops.length = (count + 1) / 2) {j : Nat}
    {v w : Word} (hv : ops[j]? = some v) (hw : (packSamples (unpackSamples count ops))[j]? = some w) :
    v &&& ~~~paddingBits count (j + 1) = w &&& ~~~paddingBits count (j + 1) := by
  induction ops generalizing count j with
  | nil => cases hv
  | cons x ops ih =>
    have hx : x.extractLsb' 16 16 ++ x.extractLsb' 0 16 = x := BitVec.extractLsb'_append_extractLsb'
    match count, j with
    | 0, _ => cases hlen
    | 1, 0 =>
      cases hv
      cases hw
      rw [and_not_padding, ← hx, and_not_padding, hx]
    | 1, j + 1 => cases hw
    | n + 2, 0 =>
      cases hv
      cases hw
      rw [hx]
    | n + 2, j + 1 =>
      rw [paddingBits_add_two]
      exact ih (by simp only [List.length_cons] at hlen; omega) hv hw

theorem ignoredBits_of_format_b {o : Op} (hf : opFormat o = .b) {w : Word} {ops : List Word}
    (hlen : (fieldCount w).toNat ≤ 2 * ops.length) (j : Nat) :
    ignoredBits (buildInstr o w ops) j = paddingBits (fieldCount w).toNat j := by
  cases o <;> cases hf <;> simp only [buildInstr, ignoredBits, length_unpackSamples hlen, paddingBits]

theorem ignoredBits_of_format_f {o : Op} (hf : opFormat o = .f) {w : Word} {ops : List Word}
    (hnone : freqOperand w ops = none) : ignoredBits (buildInstr o w ops) 1 = BitVec.allOnes 32 := by
  cases o <;> cases hf <;> simp only [buildInstr, hnone] <;> rfl

/-- A frequency operand is its operand word, and an absent one leaves the whole word ignored (R67, R74). -/
theorem freqWord_agrees {o : Op} (hf : opFormat o = .f) (w x : Word) :
    x &&& ~~~ignoredBits (buildInstr o w [x]) 1 =
      freqWord (freqOperand w [x]) &&& ~~~ignoredBits (buildInstr o w [x]) 1 := by
  by_cases hfv : w.getLsbD 0 = true
  · rw [freqOperand, if_pos hfv]
    rfl
  · rw [ignoredBits_of_format_f hf (if_neg hfv), BitVec.not_allOnes, BitVec.and_zero, BitVec.and_zero]

theorem operandWords_agree {o : Op} {w : Word} {ops : List Word} (hop : fieldOp w = opCode o)
    (hlen : ops.length = operandCount w) {j : Nat} {x y : Word} (hx : ops[j]? = some x)
    (hy : (operandWords o w ops)[j]? = some y) :
    x &&& ~~~ignoredBits (buildInstr o w ops) (j + 1) = y &&& ~~~ignoredBits (buildInstr o w ops) (j + 1) := by
  have hle := count_le_of_format_b hop hlen
  rw [operandCount_of_code hop] at hlen
  cases hf : opFormat o <;> simp only [operandWords, hf] at hlen hy
  case z | r => cases hy
  case b =>
    rw [ignoredBits_of_format_b hf (hle hf)]
    exact packSamples_unpackSamples hlen hx hy
  case f =>
    obtain ⟨x', rfl⟩ := List.length_eq_one_iff.mp hlen
    cases j with
    | succ j => cases hy
    | zero =>
      cases hx
      cases hy
      exact freqWord_agrees hf w x

/-- Settles O2: the command word is the encoder's own, since its row fixes every bit outside the operand fields, and
the operand words are the encoder's but for the ignored bits. -/
theorem decodedWordsAreTheEncoding : Obligations.DecodedWordsAreTheEncoding := by
  intro ws rest i h
  obtain ⟨w, ops, rfl, hlen, hd⟩ := decode_eq_ok_iff.mp h
  obtain ⟨o, hm, rfl⟩ := decodeCommand_eq_ok_iff.mp hd
  have henc := encode_buildInstr hm hlen
  have hwf := wf_buildInstr o w ops
  obtain ⟨w', ops', he, hlen'⟩ := encodesWhole _ hwf
  obtain ⟨rfl, rfl⟩ := List.cons.inj (henc.symm.trans he)
  refine ⟨hwf, w :: ops, rfl, by rw [henc, List.length_cons, List.length_cons, hlen, hlen'], fun j x y hx hy => ?_⟩
  rw [henc] at hy
  cases j with
  | zero =>
    cases hx
    cases hy
    rfl
  | succ j => exact operandWords_agree (fieldOp_of_match hm) hlen hx hy

end Sys2Proof
end

section
/-! One step over a command of the port, legal or not (30_encoding.md R65, R72, R73). -/

namespace Sys2Proof

/-- The opcode field is looked up among the codes of R70. -/
theorem opOf_eq_none {w : Word} (h : fieldOp w ∉ opRows.map opCode) : opOf w = none := by
  refine List.find?_eq_none.mpr fun o ho hcode => h ?_
  rw [← beq_iff_eq.mp hcode]
  exact List.mem_map_of_mem ho

end Sys2Proof

namespace Sys2Proof.Machine

theorem step_illegal {s : State} {w : Word} {ops : List Word} {inp : List PortEvent} {e : Reject}
    (hwf : s.cfg.wf = true) (hlen : ops.length = operandCount w) (hd : decodeCommand w ops = .error e)
    (hin : s.input = .word w :: (ops.map PortEvent.word ++ inp)) :
    step s = .next (raiseErr .illegalOp { s with input := inp }) := by
  simp only [step, hwf, if_true, hin, fetch_words w ops inp hlen, hd]

/-- Settles O7: an unassigned opcode calls for no operand words, and no row makes a command of it. -/
theorem unassignedOpcodeIsIllegal : Obligations.UnassignedOpcodeIsIllegal := by
  intro s w inp hwf hop hin
  have hnone : opOf w = none := opOf_eq_none hop
  have hlen : ([] : List Word).length = operandCount w := by rw [operandCount, hnone]; rfl
  have hd : decodeCommand w [] = .error .unassignedOpcode := by rw [decodeCommand, hnone]
  exact step_illegal hwf hlen hd hin

/-- A channel outside 1..N_CH, or 0..N_CH for DSTEP, is an error of the command and none of its encoding (R170). -/
theorem exec_bad_channel {s : State} {ch : Chan} {f : Option Word} {i : Instr}
    (h : (i = .calw ch f ∨ i = .calt ch f) ∧ (ch.toNat = 0 ∨ s.cfg.nCh < ch.toNat) ∨
      i = .dstep ch f ∧ s.cfg.nCh < ch.toNat) : exec i s = .next (raiseErr .badChannel s) := by
  obtain ⟨hi, hch⟩ | ⟨rfl, hch⟩ := h
  · have hbad : ¬isChannel s.cfg ch = true := fun hok => (isChannel_iff _ _).mp hok hch
    obtain rfl | rfl := hi
    · simp [exec, execCalw, hbad]
    · simp [exec, execCalt, hbad]
  · have hbad : ¬isChanOpt s.cfg ch = true := fun hok => (isChanOpt_iff _ _).mp hok hch
    simp [exec, execDstep, hbad]

/-- Settles O8: a word of an assigned opcode that does not match its row is refused with its operand words; the
channel field of CALW, CALT and DSTEP is no part of their match. -/
theorem reservedBitIsIllegal : Obligations.ReservedBitIsIllegal := by
  refine ⟨fun s o w ops inp hwf hop hm hlen hin => ?_, fun s ch f i _ h => ⟨?_, exec_bad_channel h⟩⟩
  · have hcount : ops.length = operandCount w := by
      rw [hlen, operandCount_of_code hop]
      cases opFormat o <;> rfl
    have hd : decodeCommand w ops = .error .reservedBit := by
      rw [decodeCommand, opOf_of_code hop]
      exact if_neg hm
    exact step_illegal hwf hcount hd hin
  · have hwf : i.wf = true := by obtain ⟨rfl | rfl, -⟩ | ⟨rfl, -⟩ := h <;> rfl
    rw [← decodeOfEncodeIsTheCommand i [] hwf, List.append_nil]

/-- Settles O6: the port holds the words that decode, so the step takes them. -/
theorem stepRunsTheDecodedCommand : Obligations.StepRunsTheDecodedCommand := by
  intro s ws rest inp i hwf h hin
  obtain ⟨w, ops, rfl, hlen, hd⟩ := decode_eq_ok_iff.mp h
  have hfetch : fetch s.input = .command i (rest.map PortEvent.word ++ inp) := by
    rw [hin, List.map_cons, List.map_append, List.cons_append, List.append_assoc, fetch_words w ops _ hlen, hd]
  simp only [step, hwf, if_true, hfetch]

/-- Settles O13: both outcomes of `exec_cases` answer, and neither touches the port or the build. -/
theorem everyCommandIsAnswered : Obligations.EveryCommandIsAnswered := by
  intro i s
  obtain ⟨t, ht, ⟨e, rfl⟩ | ⟨F, u, rfl, -, -, heff⟩⟩ := exec_cases i s
  · exact ⟨_, _, ht, rfl, rfl, rfl⟩
  · obtain ⟨hcfg, hinput, -, -⟩ := effect_frame heff
    exact ⟨_, _, ht, rfl, hinput, hcfg⟩

end Sys2Proof.Machine
end

section
/-! The pseudo-command ANCHOR (30_encoding.md R76). -/

namespace Sys2Proof.Machine

/-- ANCHOR writes one entry of an emptied table. -/
theorem afterAll_pseudoAnchor {s : State} (hch : isChannel s.cfg (BitVec.ofNat 8 s.cfg.longCh) = true) (f : Word) :
    afterAll (pseudoAnchor s.cfg f) s =
      respond { acc := true } (writeCal (BitVec.ofNat 8 s.cfg.longCh) f (respond {} (clearCal s))) :=
  Host.Outcome.next.inj ((exec_eq_next_after _ _).symm.trans
    (exec_calw_of_isChannel (s := respond {} (clearCal s)) hch f))

/-- Settles O33: CALW writes LONG_CH, a channel by R5, into the table that CCLR emptied. -/
theorem anchorLeavesOneEntry : Obligations.AnchorLeavesOneEntry := by
  intro s f hwf
  have hn := nCh_bounds hwf
  obtain ⟨-, -, -, -, -, -, -, hlong, -⟩ := of_decide_eq_true hwf
  have hnat : (BitVec.ofNat 8 s.cfg.longCh).toNat = s.cfg.longCh :=
    (BitVec.toNat_ofNat ..).trans (Nat.mod_eq_of_lt (by omega))
  have hch : isChannel s.cfg (BitVec.ofNat 8 s.cfg.longCh) = true := by rw [isChannel_iff, hnat]; omega
  rw [afterAll_pseudoAnchor hch]
  refine ⟨fun c => ?_, rfl, rfl⟩
  rw [calEntry_congr (respond_cal ..), calEntry_writeCal (by omega) (by simp; omega), hnat,
    calEntry_replicate (n := s.cfg.nCh) rfl]

end Sys2Proof.Machine
end

section
/-! The peak search computes PEAK of 40_analyzer.md R90: its comparison `powerLe` is exact (`powerLe_iff`), so its fold
keeps the lowest bin of greatest magnitude. -/

namespace Sys2Proof.Machine

theorem nS_bounds {cfg : Cfg} (h : cfg.wf = true) : 3 ≤ cfg.nS ∧ cfg.nS ≤ 65535 := by
  obtain ⟨-, -, -, hnS, -⟩ := of_decide_eq_true h
  exact hnS

theorem epsPeak_bounds {cfg : Cfg} (h : cfg.wf = true) : 0 ≤ cfg.epsPeak ∧ cfg.epsPeak < 1 := by
  obtain ⟨-, -, -, -, -, -, -, -, heps⟩ := of_decide_eq_true h
  exact heps

/-- There is a bin to search. -/
theorem one_le_kMax {cfg : Cfg} (h : cfg.wf = true) : 1 ≤ kMax cfg := by
  have := nS_bounds h
  unfold kMax
  omega

/-! ### The greatest magnitude -/

theorem magnitude_nonneg (N : ℕ) (x : List Int) (k : ℕ) : 0 ≤ magnitude N x k := norm_nonneg _

theorem isPeakIdeal_unique {N : ℕ} {x : List Int} {K k j : ℕ} (hk : IsPeakIdeal N x K k) (hj : IsPeakIdeal N x K j) :
    k = j := by
  obtain ⟨hk1, hkK, hkmax, hklow⟩ := hk
  obtain ⟨hj1, hjK, hjmax, hjlow⟩ := hj
  rcases Nat.lt_trichotomy k j with h | h | h
  · exact absurd (hkmax j hj1 hjK) (hjlow k hk1 h).not_ge
  · exact h
  · exact absurd (hjmax k hk1 hkK) (hklow j hj1 h).not_ge

/-- One more bin takes over exactly if its magnitude is strictly greater. -/
theorem isPeakIdeal_succ {N : ℕ} {x : List Int} {K k : ℕ} (h : IsPeakIdeal N x K k) :
    IsPeakIdeal N x (K + 1) (if magnitude N x (K + 1) ≤ magnitude N x k then k else K + 1) := by
  obtain ⟨h1, hK, hmax, hlow⟩ := h
  split_ifs with hle
  · refine ⟨h1, by omega, fun j hj1 hjK => ?_, hlow⟩
    rcases Nat.le_succ_iff.mp hjK with hj | rfl
    · exact hmax j hj1 hj
    · exact hle
  · have hlt : ∀ j, 1 ≤ j → j ≤ K → magnitude N x j < magnitude N x (K + 1) :=
      fun j hj1 hjK => (hmax j hj1 hjK).trans_lt (not_le.mp hle)
    refine ⟨by omega, le_rfl, fun j hj1 hjK => ?_, fun j hj1 hjK => hlt j hj1 (by omega)⟩
    rcases Nat.le_succ_iff.mp hjK with hj | rfl
    · exact (hlt j hj1 hj).le
    · exact le_rfl

/-- A lower bound on PEAK_ideal's own magnitude is one on the greatest magnitude. -/
theorem meetsSlack_iff_of_isPeakIdeal {N : ℕ} {x : List Int} {K i k : ℕ} {ε : ℚ} (hε : ε < 1)
    (hi : IsPeakIdeal N x K i) :
    MeetsSlack N x K ε k ↔ 1 ≤ k ∧ k ≤ K ∧ (1 - (ε : ℝ)) * magnitude N x i ≤ magnitude N x k := by
  obtain ⟨hi1, hiK, hmax, -⟩ := hi
  have hε' : (0 : ℝ) ≤ 1 - ε := by
    have : (ε : ℝ) < 1 := by exact_mod_cast hε
    linarith
  refine and_congr_right fun _ => and_congr_right fun _ => ⟨fun h => h i hi1 hiK, fun h j hj1 hjK => ?_⟩
  exact (mul_le_mul_of_nonneg_left (hmax j hj1 hjK) hε').trans h

theorem meetsSlack_of_isPeakIdeal {N : ℕ} {x : List Int} {K k : ℕ} {ε : ℚ} (h0 : 0 ≤ ε) (h1 : ε < 1)
    (h : IsPeakIdeal N x K k) : MeetsSlack N x K ε k := by
  refine (meetsSlack_iff_of_isPeakIdeal h1 h).mpr ⟨h.1, h.2.1, ?_⟩
  have : (0 : ℝ) ≤ ε := by exact_mod_cast h0
  nlinarith [magnitude_nonneg N x k]

/-! ### The fold over the bins -/

/-- The comparison of R90 on squares is the one of the magnitudes. -/
theorem powerLe_sq_iff {p N : ℕ} (hN : 2 ≤ N) {x : List Int} (hx : x.length = N) (α β : ℕ) {a b : Bin}
    (ha : Encloses p N x a) (hb : Encloses p N x b) :
    powerLe N x (α ^ 2) a (β ^ 2) b = true ↔ α * magnitude N x a.k ≤ β * magnitude N x b.k := by
  have hsq (γ k : ℕ) : ((γ ^ 2 : ℕ) : ℝ) * power N x k = 4 * (γ * magnitude N x k) ^ 2 := by
    rw [power]; push_cast; ring
  have hnn (γ k : ℕ) : 0 ≤ (γ : ℝ) * magnitude N x k := mul_nonneg γ.cast_nonneg (magnitude_nonneg N x k)
  rw [powerLe_iff hN hx ha hb, hsq, hsq, mul_le_mul_iff_right₀ (by norm_num), sq_le_sq₀ (hnn ..) (hnn ..)]

@[simp] theorem binAt_k (p N : ℕ) (x : List Int) (k : ℕ) : (binAt p N x k).k = k := rfl

theorem idealBin_succ (N : ℕ) (x : List Int) {K : ℕ} (hK : 1 ≤ K) :
    idealBin N x (K + 1) =
      if powerLe N x 1 (binAt workPrecision N x (K + 1)) 1 (idealBin N x K) then idealBin N x K
      else binAt workPrecision N x (K + 1) := by
  obtain ⟨K, rfl⟩ := Nat.exists_eq_add_of_le' hK
  have hcons : ∃ b bs, binsTo workPrecision N x (K + 1) = b :: bs := by
    rw [binsTo_eq, List.range_succ_eq_map]
    exact ⟨_, _, rfl⟩
  obtain ⟨b, bs, hbs⟩ := hcons
  have hsucc : binsTo workPrecision N x (K + 1 + 1) = b :: (bs ++ [binAt workPrecision N x (K + 1 + 1)]) := by
    rw [binsTo_eq, List.range_succ, List.map_append, ← binsTo_eq, hbs]
    rfl
  simp only [idealBin, hbs, hsucc, List.foldl_append, List.foldl_cons, List.foldl_nil]

/-- `idealBin` finds PEAK_ideal, with an enclosure of its magnitude. -/
theorem idealBin_spec {N : ℕ} (hN : 2 ≤ N) {x : List Int} (hx : x.length = N) {K : ℕ} (hK : 1 ≤ K) :
    Encloses workPrecision N x (idealBin N x K) ∧ IsPeakIdeal N x K (idealBin N x K).k := by
  induction K, hK using Nat.le_induction with
  | base =>
    refine ⟨binAt_encloses hN hx 1, le_rfl, le_rfl, fun j hj1 hjK => ?_, fun j hj1 hj => ?_⟩
    · rw [le_antisymm hjK hj1]; exact le_rfl
    · exact absurd hj1 hj.not_ge
  | succ K hK ih =>
    obtain ⟨henc, hpeak⟩ := ih
    have hnew := binAt_encloses (p := workPrecision) hN hx (K + 1)
    have hle := powerLe_sq_iff hN hx 1 1 hnew henc
    have hsucc := isPeakIdeal_succ hpeak
    simp only [one_pow, Nat.cast_one, one_mul, binAt_k] at hle
    rw [idealBin_succ N x hK]
    split_ifs with h
    · rw [if_pos (hle.mp h)] at hsucc
      exact ⟨henc, hsucc⟩
    · rw [if_neg (fun h' => h (hle.mpr h'))] at hsucc
      exact ⟨hnew, hsucc⟩

/-! ### The slack -/

/-- The numerator of `1 − ε` in the search is its value over ε's own denominator. -/
theorem den_sub_num_cast {ε : ℚ} (h0 : 0 ≤ ε) (h1 : ε < 1) :
    ((ε.den - ε.num.natAbs : ℕ) : ℝ) = ε.den * (1 - ε) := by
  have hnum : (ε.num.natAbs : ℤ) = ε.num := Int.natAbs_of_nonneg (Rat.num_nonneg.mpr h0)
  have hle : ε.num.natAbs ≤ ε.den := by have := Rat.num_lt_denom_iff.mpr h1; omega
  have hmul : (ε.num.natAbs : ℝ) = ε.den * ε := by
    rw [← Int.cast_natCast, hnum, mul_comm]
    exact_mod_cast (Rat.mul_den_eq_num ε).symm
  rw [Nat.cast_sub hle, hmul]
  ring

theorem withinSlack_iff {N : ℕ} (hN : 2 ≤ N) {x : List Int} (hx : x.length = N) {K k : ℕ} (hK : 1 ≤ K) {ε : ℚ}
    (h0 : 0 ≤ ε) (h1 : ε < 1) :
    withinSlack N x K ε k = true ↔ (1 - (ε : ℝ)) * magnitude N x (idealBin N x K).k ≤ magnitude N x k := by
  have hden : (0 : ℝ) < ε.den := by exact_mod_cast ε.den_pos
  rw [withinSlack, powerLe_sq_iff hN hx _ _ (idealBin_spec hN hx hK).1 (binAt_encloses hN hx k), den_sub_num_cast h0 h1,
    mul_assoc, mul_le_mul_iff_right₀ hden, binAt_k]

section
variable {cfg : Cfg} {x : List Int} (hwf : cfg.wf = true) (hx : x.length = cfg.nS)
include hwf hx

theorem idealBin_isPeakIdeal : IsPeakIdeal cfg.nS x (kMax cfg) (idealBin cfg.nS x (kMax cfg)).k :=
  (idealBin_spec (by have := nS_bounds hwf; omega) hx (one_le_kMax hwf)).2

/-- The test of `peakFrom` is R90's constraint. -/
theorem meetsSlack_iff_withinSlack (k : ℕ) :
    MeetsSlack cfg.nS x (kMax cfg) cfg.epsPeak k ↔
      1 ≤ k ∧ k ≤ kMax cfg ∧ withinSlack cfg.nS x (kMax cfg) cfg.epsPeak k = true := by
  obtain ⟨h0, h1⟩ := epsPeak_bounds hwf
  have hN : 2 ≤ cfg.nS := by have := nS_bounds hwf; omega
  rw [withinSlack_iff hN hx (one_le_kMax hwf) h0 h1, meetsSlack_iff_of_isPeakIdeal h1 (idealBin_isPeakIdeal hwf hx)]

/-- Whatever bin it prefers, the search meets R90's constraint. -/
theorem meetsSlack_peakFrom (k : ℕ) : MeetsSlack cfg.nS x (kMax cfg) cfg.epsPeak (peakFrom cfg x k) := by
  obtain ⟨h0, h1⟩ := epsPeak_bounds hwf
  rw [peakFrom]
  split_ifs with h
  · exact (meetsSlack_iff_withinSlack hwf hx k).mpr h.2
  · exact meetsSlack_of_isPeakIdeal h0 h1 (idealBin_isPeakIdeal hwf hx)

/-- With EPS_PEAK > 0 the search returns the bin it prefers wherever R90 allows that bin. -/
theorem peakFrom_of_meetsSlack {k : ℕ} (hε : cfg.epsPeak ≠ 0) (h : MeetsSlack cfg.nS x (kMax cfg) cfg.epsPeak k) :
    peakFrom cfg x k = k :=
  if_pos ⟨hε, (meetsSlack_iff_withinSlack hwf hx k).mp h⟩

theorem peak_isPeakIdeal (hε : cfg.epsPeak = 0) : IsPeakIdeal cfg.nS x (kMax cfg) (peak cfg x) := by
  have hpeak : peak cfg x = (idealBin cfg.nS x (kMax cfg)).k := if_neg fun h => h.1 hε
  rw [hpeak]
  exact idealBin_isPeakIdeal hwf hx

end

/-- Settles O17: `meetsSlack_peakFrom` at the free value, and `peak_isPeakIdeal`. -/
theorem peakSearchMeetsItsConstraint : Obligations.PeakSearchMeetsItsConstraint :=
  fun _ _ hwf hx => ⟨meetsSlack_peakFrom hwf hx _, peak_isPeakIdeal hwf hx⟩

/-- Settles O18: the search returns a bin that meets R90's constraint, and every such bin is returned when preferred. -/
theorem everyPeakWithinSlackIsAllowed : Obligations.EveryPeakWithinSlackIsAllowed :=
  fun _ _ k hwf hx hε =>
    ⟨⟨peakFrom_of_meetsSlack hwf hx hε, fun h => h ▸ meetsSlack_peakFrom hwf hx k⟩, rfl⟩

end Sys2Proof.Machine
end

section
/-! Spectra that 40_analyzer.md R93 compares: blocks with one windowed sample at most, and blocks in a fixed ratio. -/

namespace Sys2Proof.Machine

/-- The window is symmetric: it ends at 0 too. -/
theorem hannWeight_last {N : ℕ} (hN : 2 ≤ N) : hannWeight N (N - 1) = 0 := by
  have hpos : (N : ℝ) - 1 ≠ 0 := by
    have : (2 : ℝ) ≤ N := by exact_mod_cast hN
    linarith
  rw [hannWeight, Nat.cast_sub (by omega), Nat.cast_one, mul_div_assoc, div_self hpos]
  simp

/-- A windowed block with one sample at most has the same magnitude at every bin (R93 (c), (d)). -/
theorem magnitude_of_single {N m : ℕ} {x : List Int} (hx : x.length = N)
    (h : ∀ n, n < N → n ≠ m → hannWeight N n = 0 ∨ x.getD n 0 = 0) (k : ℕ) :
    magnitude N x k = ‖(hannWeight N m : ℂ) * (x.getD m 0 : ℂ)‖ := by
  have hsum : spectrum N x k =
      (hannWeight N m : ℂ) * (x.getD m 0 : ℂ) * Complex.exp (-2 * Real.pi * Complex.I * k * m / N) := by
    refine Finset.sum_eq_single m (fun n hn hne => ?_) (fun hm => ?_)
    · obtain h0 | h0 := h n (Finset.mem_range.mp hn) hne <;> rw [h0] <;> simp
    · have h0 : x.getD m 0 = 0 := List.getD_eq_default _ _ (by simpa [hx] using hm)
      rw [h0]
      simp
  have hexp : (-2 * Real.pi * Complex.I * k * m / N : ℂ) = ((-2 * Real.pi * k * m / N : ℝ) : ℂ) * Complex.I := by
    push_cast; ring
  rw [magnitude, hsum, norm_mul, hexp, Complex.norm_exp_ofReal_mul_I, mul_one]

/-- Samples in a fixed ratio give magnitudes in that ratio (R88 is linear). -/
theorem magnitude_scale {N : ℕ} {x y : List Int} {p q : ℤ} (h : ∀ n, q * y.getD n 0 = p * x.getD n 0) (k : ℕ) :
    |(q : ℝ)| * magnitude N y k = |(p : ℝ)| * magnitude N x k := by
  have hspec : (q : ℂ) * spectrum N y k = p * spectrum N x k := by
    rw [spectrum, spectrum, Finset.mul_sum, Finset.mul_sum]
    refine Finset.sum_congr rfl fun n _ => ?_
    have hn : (q : ℂ) * (y.getD n 0 : ℂ) = p * (x.getD n 0 : ℂ) := by exact_mod_cast h n
    linear_combination (hannWeight N n : ℂ) * Complex.exp (-2 * Real.pi * Complex.I * k * n / N) * hn
  have hnorm := congrArg norm hspec
  rwa [norm_mul, norm_mul, Complex.norm_intCast, Complex.norm_intCast] at hnorm

/-- A factor other than 0 does not change which of two bins is greater (R93 (g)). -/
theorem magnitude_le_iff_of_scale {N : ℕ} {x y : List Int} {p q : ℤ} (hp : p ≠ 0) (hq : q ≠ 0)
    (h : ∀ n, q * y.getD n 0 = p * x.getD n 0) (i j : ℕ) :
    magnitude N y i ≤ magnitude N y j ↔ magnitude N x i ≤ magnitude N x j := by
  have hp' : 0 < |(p : ℝ)| := abs_pos.mpr (by exact_mod_cast hp)
  have hq' : 0 < |(q : ℝ)| := abs_pos.mpr (by exact_mod_cast hq)
  rw [← mul_le_mul_iff_right₀ hq', magnitude_scale h, magnitude_scale h, mul_le_mul_iff_right₀ hp']

/-- PEAK_ideal depends on the order of the magnitudes only. -/
theorem isPeakIdeal_congr {N : ℕ} {x y : List Int}
    (h : ∀ i j, magnitude N y i ≤ magnitude N y j ↔ magnitude N x i ≤ magnitude N x j) (K k : ℕ) :
    IsPeakIdeal N y K k ↔ IsPeakIdeal N x K k := by
  simp only [IsPeakIdeal, ← not_le, h]

end Sys2Proof.Machine
end

section
/-! ANLZ (40_analyzer.md R92): the noise gate, the answer, and the answers that R93 lists. -/

namespace Sys2Proof.Machine

theorem sampleInts_length (block : List Sample) : (sampleInts block).length = block.length := List.length_map _

theorem sampleInts_getD (block : List Sample) (n : ℕ) : (sampleInts block).getD n 0 = (block.getD n 0#16).toInt :=
  List.getD_map block 0#16 BitVec.toInt

/-- The noise gate's peak is the largest absolute value (R87); it is 0 for no samples. -/
theorem peakAmplitude_lt_iff (x : List Int) (n : ℕ) : peakAmplitude x < n ↔ 0 < n ∧ ∀ a ∈ x, a.natAbs < n := by
  induction x with
  | nil => simp [peakAmplitude]
  | cons a x ih =>
    have hcons : peakAmplitude (a :: x) = max a.natAbs (peakAmplitude x) := rfl
    rw [hcons, max_lt_iff, ih, List.forall_mem_cons]
    tauto

theorem analyze_of_audible {cfg : Cfg} {block : List Sample} (h : ∃ a ∈ block, cfg.noiseThr ≤ a.toInt.natAbs) :
    analyze cfg block = some (BitVec.ofNat 32 (binFreq cfg (peak cfg (sampleInts block)))) := by
  obtain ⟨a, ha, hle⟩ := h
  refine if_neg fun hlt => ?_
  have hall := ((peakAmplitude_lt_iff _ _).mp hlt).2 a.toInt (List.mem_map_of_mem ha)
  omega

theorem analyze_of_silent {cfg : Cfg} {block : List Sample} (hne : block ≠ [])
    (h : ∀ a ∈ block, a.toInt.natAbs < cfg.noiseThr) : analyze cfg block = none := by
  obtain ⟨b, hb⟩ := List.exists_mem_of_ne_nil block hne
  refine if_pos ((peakAmplitude_lt_iff _ _).mpr ⟨(Nat.zero_le _).trans_lt (h b hb), fun a ha => ?_⟩)
  obtain ⟨c, hc, rfl⟩ := List.mem_map.mp ha
  exact h c hc

/-- The response carries the analyzer's result (R92). -/
@[simp] theorem respFreq_freqFields (f : Option Word) : respFreq (okResponse (freqFields f)) = f := by
  rw [respFreq, (okResponse_bit _).2.1]
  cases f <;> rfl

theorem respond_freqFields_none (s : State) :
    respond (freqFields none) s = { s with resp := some ⟨0#32, 0#32, 0#32⟩ } := by
  have hresp : okResponse (freqFields none) = ⟨0#32, 0#32, 0#32⟩ := by decide
  rw [respond, hresp]

theorem respond_freqFields_some (w : Word) (s : State) :
    respond (freqFields (some w)) s = { s with resp := some ⟨2#32, w, 0#32⟩ } := by
  have hr0 : (okResponse { fv := true }).r0 = 2#32 := by decide
  have hresp : okResponse (freqFields (some w)) = ⟨2#32, w, 0#32⟩ := congrArg (Response.mk · w 0#32) hr0
  rw [respond, hresp]

theorem exec_anlz_of_length {block : List Sample} {s : State} (hlen : block.length = s.cfg.nS) :
    exec (.anlz block) s = .next (respond (freqFields (analyze s.cfg block)) s) :=
  if_neg (not_not.mpr hlen)

theorem exec_anlz_of_audible {block : List Sample} {s : State} (hlen : block.length = s.cfg.nS)
    (h : ∃ a ∈ block, s.cfg.noiseThr ≤ a.toInt.natAbs) :
    exec (.anlz block) s =
      .next { s with resp := some ⟨2#32, BitVec.ofNat 32 (binFreq s.cfg (peak s.cfg (sampleInts block))), 0#32⟩ } := by
  rw [exec_anlz_of_length hlen, analyze_of_audible h, respond_freqFields_some]

/-- Settles O16: the length check, then the noise gate. -/
theorem anlzAnswersThePeakFrequency : Obligations.AnlzAnswersThePeakFrequency := by
  refine fun block s hpos => ⟨fun hlen => if_pos hlen, fun hlen hsilent => ?_, exec_anlz_of_audible⟩
  have hne : block ≠ [] := List.ne_nil_of_length_pos (hlen ▸ hpos)
  rw [exec_anlz_of_length hlen, analyze_of_silent hne hsilent, respond_freqFields_none]

theorem fsHz_lt {cfg : Cfg} (h : cfg.wf = true) : cfg.fsHz < 2 ^ 24 := by
  obtain ⟨-, -, ⟨-, hfs⟩, -⟩ := of_decide_eq_true h
  exact hfs

/-- A searched bin lies below the sample rate, so its frequency fits its word (R91). -/
theorem binFreq_lt {cfg : Cfg} (h : cfg.wf = true) {k : ℕ} (hk : k ≤ kMax cfg) : binFreq cfg k < 2 ^ 32 := by
  have hfs := fsHz_lt h
  have hk2 : k ≤ cfg.nS := by unfold kMax at hk; omega
  calc binFreq cfg k = k * (cfg.fsHz * 256) / cfg.nS := by rw [binFreq, mul_assoc]
    _ ≤ cfg.fsHz * 256 := Nat.div_le_of_le_mul (Nat.mul_le_mul_right _ hk2)
    _ < 2 ^ 32 := by omega

theorem binFreq_pos {cfg : Cfg} {k : ℕ} (hpos : 0 < cfg.nS) (hk : 1 ≤ k) (hle : cfg.nS ≤ 256 * cfg.fsHz) :
    0 < binFreq cfg k := by
  refine Nat.div_pos (hle.trans ?_) hpos
  rw [mul_assoc, mul_comm 256]
  exact Nat.le_mul_of_pos_left _ hk

/-- Settles O19: the peak is a searched bin, and `binFreq_lt` and `binFreq_pos` bound its frequency. -/
theorem audibleBlockHasAFrequency : Obligations.AudibleBlockHasAFrequency := by
  intro block s hwf hlen haud
  obtain ⟨hk1, hkK, -⟩ := meetsSlack_peakFrom hwf ((sampleInts_length block).trans hlen)
    (Config.peakChoice s.cfg (sampleInts block))
  have hF := (BitVec.toNat_ofNat _ 32).trans (Nat.mod_eq_of_lt (binFreq_lt hwf hkK))
  refine ⟨_, _, peak s.cfg (sampleInts block), exec_anlz_of_length hlen, rfl, respErr_ok _, hk1, hkK, _,
    (respFreq_freqFields _).trans (analyze_of_audible haud), hF, fun hle h0 => ?_⟩
  have hpos := binFreq_pos (by have := nS_bounds hwf; omega) hk1 hle
  exact hpos.ne ((congrArg BitVec.toNat h0).symm.trans hF)

/-! ### Answers that R93 lists -/

/-- An audible block is answered BINFREQ(1) if no bin beats bin 1. -/
theorem exec_anlz_peak_one {block : List Sample} {s : State} (hwf : s.cfg.wf = true) (hε : s.cfg.epsPeak = 0)
    (hlen : block.length = s.cfg.nS) (haud : ∃ a ∈ block, s.cfg.noiseThr ≤ a.toInt.natAbs)
    (hmax : ∀ k, 1 ≤ k → k ≤ kMax s.cfg →
      magnitude s.cfg.nS (sampleInts block) k ≤ magnitude s.cfg.nS (sampleInts block) 1) :
    exec (.anlz block) s = .next { s with resp := some ⟨2#32, BitVec.ofNat 32 (binFreq s.cfg 1), 0#32⟩ } := by
  have hone : IsPeakIdeal s.cfg.nS (sampleInts block) (kMax s.cfg) 1 :=
    ⟨le_rfl, one_le_kMax hwf, hmax, fun j hj1 hj => absurd hj1 hj.not_ge⟩
  have hpeak := peak_isPeakIdeal hwf ((sampleInts_length block).trans hlen) hε
  rw [exec_anlz_of_audible hlen haud, isPeakIdeal_unique hpeak hone]

/-- Settles O20: in both cases the window leaves one sample at most, so all bins tie. -/
theorem tiedSpectraPeakAtBinOne : Obligations.TiedSpectraPeakAtBinOne := by
  intro block s hwf hε hlen haud hcases
  have hx : (sampleInts block).length = s.cfg.nS := (sampleInts_length block).trans hlen
  have hN := nS_bounds hwf
  have hzero {n : ℕ} (h : block.getD n 0#16 = 0#16) : (sampleInts block).getD n 0 = 0 := by
    rw [sampleInts_getD, h]
    rfl
  have hsingle : ∃ m, ∀ n, n < s.cfg.nS → n ≠ m →
      hannWeight s.cfg.nS n = 0 ∨ (sampleInts block).getD n 0 = 0 := by
    obtain hends | ⟨m, hm⟩ := hcases
    · refine ⟨0, fun n hn h0 => ?_⟩
      rcases Nat.lt_or_ge n (s.cfg.nS - 1) with hlt | hge
      · exact .inr (hzero (hends n (by omega) hlt))
      · obtain rfl : n = s.cfg.nS - 1 := by omega
        exact .inl (hannWeight_last (by omega))
    · exact ⟨m, fun n _ hne => .inr (hzero (hm n hne))⟩
  obtain ⟨m, hm⟩ := hsingle
  refine exec_anlz_peak_one hwf hε hlen haud fun k _ _ => ?_
  rw [magnitude_of_single hx hm k, magnitude_of_single hx hm 1]

/-- Settles O57, by `magnitude_constant_le`. -/
theorem constantBlockPeaksAtBinOne : Obligations.ConstantBlockPeaksAtBinOne := by
  intro a s hwf hε ha
  have hN := nS_bounds hwf
  have haud : ∃ b ∈ List.replicate s.cfg.nS a, s.cfg.noiseThr ≤ b.toInt.natAbs :=
    ⟨a, List.mem_replicate.mpr ⟨by omega, rfl⟩, ha⟩
  refine exec_anlz_peak_one hwf hε List.length_replicate haud fun k hk1 hkK => ?_
  refine magnitude_constant_le (a := a.toInt) hN.1 hk1 hkK fun n hn => ?_
  rw [sampleInts_getD, List.getD_replicate _ hn]

/-- Settles O21: a common factor keeps the order of the magnitudes, and the lowest bin of greatest magnitude is unique. -/
theorem scalingKeepsThePeak : Obligations.ScalingKeepsThePeak := by
  intro a b s p q hwf hε hlen hp hq hab ha hb
  have hlen' : b.length = s.cfg.nS := by simpa [hlen] using congrArg List.length hab
  have hratio (n : ℕ) : q * (sampleInts b).getD n 0 = p * (sampleInts a).getD n 0 := by
    have hmul (r : ℤ) (l : List Sample) :
        (l.map fun v => r * v.toInt).getD n 0 = r * (sampleInts l).getD n 0 := by
      rw [sampleInts_getD, ← List.getD_map l 0#16 (fun v : Sample => r * v.toInt), BitVec.toInt_zero, mul_zero]
    rw [← hmul, ← hmul, hab]
  have hpa := peak_isPeakIdeal hwf ((sampleInts_length a).trans hlen) hε
  have hpb := peak_isPeakIdeal hwf ((sampleInts_length b).trans hlen') hε
  rw [isPeakIdeal_congr (magnitude_le_iff_of_scale hp hq hratio)] at hpb
  rw [exec_anlz_of_audible hlen ha, exec_anlz_of_audible hlen' hb, isPeakIdeal_unique hpa hpb]
  exact ⟨rfl, _, rfl, rfl⟩

end Sys2Proof.Machine
end

section
/-! The two tables (41_calibration.md R101, R102, R109): the Nominal centres and the selection. -/

namespace Sys2Proof.Machine

/-! ### The Nominal table -/

theorem nom_one {cfg : Cfg} (h : 1 < cfg.nCh) : nom cfg 1 = 256 * cfg.fminHz := by
  simp [nom, Nat.mul_div_cancel _ (Nat.sub_pos_of_lt h)]

theorem nom_nCh {cfg : Cfg} (h : 1 < cfg.nCh) (hle : cfg.fminHz ≤ cfg.fmaxHz) :
    nom cfg cfg.nCh = 256 * cfg.fmaxHz := by
  refine Nat.div_eq_of_eq_mul_left (Nat.sub_pos_of_lt h) ?_
  obtain ⟨d, hd⟩ := Nat.exists_eq_add_of_le hle
  rw [hd, Nat.add_sub_cancel_left]
  ring

/-- The one division of R101 loses less than one step of 1/256 Hz. -/
theorem nom_bounds {cfg : Cfg} (h : 1 < cfg.nCh) (c : Nat) :
    nom cfg c * (cfg.nCh - 1) ≤ 256 * cfg.fminHz * (cfg.nCh - 1) + 256 * (c - 1) * (cfg.fmaxHz - cfg.fminHz) ∧
      256 * cfg.fminHz * (cfg.nCh - 1) + 256 * (c - 1) * (cfg.fmaxHz - cfg.fminHz) <
        (nom cfg c + 1) * (cfg.nCh - 1) :=
  ⟨Nat.div_mul_le_self .., (Nat.div_lt_iff_lt_mul (Nat.sub_pos_of_lt h)).mp (Nat.lt_succ_self _)⟩

/-- From one channel to the next the dividend of R101 grows by 256 times the width of the band. -/
theorem nom_succ {cfg : Cfg} {c : Nat} (hc : 1 ≤ c) :
    nom cfg (c + 1) = (256 * cfg.fminHz * (cfg.nCh - 1) + 256 * (c - 1) * (cfg.fmaxHz - cfg.fminHz) +
      256 * (cfg.fmaxHz - cfg.fminHz)) / (cfg.nCh - 1) := by
  obtain ⟨b, rfl⟩ := Nat.exists_eq_add_of_le' hc
  simp only [nom, Nat.add_sub_cancel]
  ring_nf

/-- That growth is at least the divisor, N_CH - 1 ≤ 30. -/
theorem nom_lt_nom_succ {cfg : Cfg} {c : Nat} (hwf : cfg.wf = true) (hc : 1 ≤ c) : nom cfg c < nom cfg (c + 1) := by
  obtain ⟨⟨hn4, hn31⟩, ⟨-, hlt, -⟩, -⟩ := of_decide_eq_true hwf
  have hstep : cfg.nCh - 1 ≤ 256 * (cfg.fmaxHz - cfg.fminHz) := by omega
  calc nom cfg c
      < nom cfg c + 1 := Nat.lt_succ_self _
    _ = (256 * cfg.fminHz * (cfg.nCh - 1) + 256 * (c - 1) * (cfg.fmaxHz - cfg.fminHz) + (cfg.nCh - 1)) /
          (cfg.nCh - 1) := (Nat.add_div_right _ (by omega)).symm
    _ ≤ nom cfg (c + 1) := by rw [nom_succ hc]; exact Nat.div_le_div_right (Nat.add_le_add_left hstep _)

/-- In the default build the growth is 2048000, and 2048000 / 18 lies between 113777 and 113778. -/
theorem nom_default_succ {c : Nat} (hc : 1 ≤ c) :
    nom Config.default (c + 1) = nom Config.default c + 113777 ∨
      nom Config.default (c + 1) = nom Config.default c + 113778 := by
  rw [nom_succ hc, nom]
  simp only [Config.default]
  omega

/-- Settles O22: the bounds of the division, its two exact ends, and the growth from a channel to the next. -/
theorem nominalTableIsLinear : Obligations.NominalTableIsLinear := by
  intro cfg hwf
  obtain ⟨⟨hn4, -⟩, ⟨-, hlt, -⟩, -⟩ := of_decide_eq_true hwf
  have hn : 1 < cfg.nCh := by omega
  refine ⟨fun c _ hc => ?_, nom_one hn, nom_nCh hn hlt.le, fun c hc _ => nom_lt_nom_succ hwf hc, ?_⟩
  · obtain ⟨hlow, hhigh⟩ := nom_bounds hn c
    exact ⟨hlow, hhigh, nom_lt hwf hc⟩
  · rintro rfl c hc -
    exact nom_default_succ hc

/-! ### The selection -/

theorem lookup_nominal_only (s : State) (c : Nat) : lookup s true c = nom s.cfg c := rfl

theorem lookup_of_not_calFull {s : State} (h : calFull s = false) (no : Bool) (c : Nat) :
    lookup s no c = nom s.cfg c := by
  simp [lookup, h]

theorem lookup_of_calFull {s : State} (h : calFull s = true) (c : Nat) :
    lookup s false c = (calEntry s c).value.toNat := by
  simp [lookup, h]

/-- Settles O23: `calFull` is that every entry is valid, and `lookup` reads it and NO. -/
theorem lookupSelectsTheTable : Obligations.LookupSelectsTheTable := by
  refine fun s no c => ⟨?_, ?_, fun b => lookup_congr rfl rfl no c⟩
  · rintro (rfl | hmissing)
    · exact lookup_nominal_only s c
    · exact lookup_of_not_calFull ((calFull_eq_false_iff s).mpr hmissing) no c
  · rintro ⟨rfl, hall⟩
    exact lookup_of_calFull ((calFull_iff s).mpr hall) c

/-- With an entry missing, every classification is one under Nominal alone. -/
theorem classify_of_not_calFull {s : State} (h : calFull s = false) (f : Option Word) (no : Bool) :
    classify s f no = classify s f true := by
  have htable : lookup s no = lookup s true := funext fun c => lookup_of_not_calFull h no c
  cases f with
  | none => rfl
  | some w => simp only [classify, htable]

/-- Settles O26: both tables miss an entry, so both classifications are those of the Nominal table of one build. -/
theorem partialTableIsNeverUsed : Obligations.PartialTableIsNeverUsed := by
  intro s cal' no f hmissing hmissing'
  have hcls : classify { s with cal := cal' } f no = classify s f no := by
    rw [classify_of_not_calFull ((calFull_eq_false_iff _).mpr hmissing'),
      classify_of_not_calFull ((calFull_eq_false_iff s).mpr hmissing)]
    exact classify_nominal_congr rfl f
  refine ⟨_, rfl, ?_⟩
  simp only [exec, execClsf, hcls]
  rfl

end Sys2Proof.Machine
end

section
/-! The commands of the Calibration Manager (41_calibration.md R103 to R108). -/

namespace Sys2Proof.Machine

/-! ### Their responses -/

/-- A response without event and frequency holds the class and three flags (30_encoding.md R69). -/
theorem okResponse_of_cls (c : Chan) (fsan fcls acc : Bool) :
    okResponse { cls := c, fsan := fsan, fcls := fcls, acc := acc } =
      ⟨0#8 ++ c ++ (0#11 ++ bit fsan ++ bit fcls ++ bit acc ++ 0#2), 0#32, 0#32⟩ := by
  refine congrArg (Response.mk · 0#32 0#32) (BitVec.eq_of_toNat_eq ?_)
  have hbit : (bit false).toNat = 0 := rfl
  simp only [toNat_append_eq_add, BitVec.toNat_ofNat, hbit]
  ring

theorem respond_cls (c : Chan) (s : State) :
    respond { cls := c } s = { s with resp := some ⟨0#8 ++ c ++ 0#16, 0#32, 0#32⟩ } := by
  rw [respond, okResponse_of_cls]
  rfl

/-- ACC = 1 with the class. -/
theorem respond_accepted (c : Chan) (s : State) :
    respond { acc := true, cls := c } s = { s with resp := some ⟨0#8 ++ c ++ 4#16, 0#32, 0#32⟩ } := by
  rw [respond, okResponse_of_cls]
  rfl

theorem respond_acc (s : State) : respond { acc := true } s = { s with resp := some ⟨4#32, 0#32, 0#32⟩ } :=
  respond_accepted 0#8 s

theorem respond_empty (s : State) : respond {} s = { s with resp := some ⟨0#32, 0#32, 0#32⟩ } :=
  respond_cls 0#8 s

/-- Beside the class, the response of a rejected CALT sets its verdict bits only. -/
theorem okResponse_verdict (c : Chan) (fcls fsan : Bool) :
    let r := okResponse { cls := c, fcls := fcls, fsan := fsan }
    r.r0.extractLsb' 5 11 = 0#11 ∧ r.r0.extractLsb' 0 3 = 0#3 ∧ r.r0.getLsbD 3 = fcls ∧ r.r0.getLsbD 4 = fsan := by
  intro r
  have low {k l : Nat} (h : k + l ≤ 16) :
      r.r0.extractLsb' k l = (0#11 ++ bit fsan ++ bit fcls ++ bit false ++ 0#2).extractLsb' k l := by
    rw [show r = _ from okResponse_of_cls .., BitVec.extractLsb'_append_eq_of_add_le h]
  have hflags : ∀ fcls fsan : Bool,
      (0#11 ++ bit fsan ++ bit fcls ++ bit false ++ 0#2).extractLsb' 5 11 = 0#11 ∧
        (0#11 ++ bit fsan ++ bit fcls ++ bit false ++ 0#2).extractLsb' 0 3 = 0#3 := by decide
  obtain ⟨hhigh, hlow⟩ := hflags fcls fsan
  obtain ⟨-, -, -, hfcls, hfsan⟩ := okResponse_bit { cls := c, fcls := fcls, fsan := fsan }
  exact ⟨(low (by decide)).trans hhigh, (low (by decide)).trans hlow, hfcls, hfsan⟩

/-! ### CALW -/

theorem exec_calw_of_no_freq {ch : Chan} {s : State} (hch : isChannel s.cfg ch = true) :
    exec (.calw ch none) s = .next (raiseErr .badFreq s) := by
  simp [exec, execCalw, hch]

theorem isChannel_of_bounds {cfg : Cfg} {ch : Chan} (h1 : 1 ≤ ch.toNat) (h2 : ch.toNat ≤ cfg.nCh) :
    isChannel cfg ch = true := by
  rw [isChannel_iff]
  omega

/-- Settles O27: the two errors, else the response over the written table. -/
theorem calwWritesOneEntry : Obligations.CalwWritesOneEntry := by
  refine fun ch f s hsize => ⟨fun hch => exec_bad_channel (.inl ⟨.inl rfl, hch⟩), ?_, ?_⟩
  · rintro h1 h2 rfl
    exact exec_calw_of_no_freq (isChannel_of_bounds h1 h2)
  · rintro h1 h2 w rfl
    refine ⟨_, exec_calw_of_isChannel (isChannel_of_bounds h1 h2) w, calEntry_writeCal h1 (hsize ▸ h2), ?_, by simp⟩
    rw [respond_acc]
    rfl

/-! ### CALT -/

theorem exec_calt_of_no_freq {ch : Chan} {s : State} (hch : isChannel s.cfg ch = true) :
    exec (.calt ch none) s = .next (raiseErr .badFreq s) := by
  simp [exec, execCalt, hch]

section
variable {ch : Chan} {s : State} {w : Word}

theorem exec_calt_accepted (hch : isChannel s.cfg ch = true)
    (hok : classify s (some w) true = ch ∧ saneTraining s.cfg ch w = true) :
    exec (.calt ch (some w)) s = .next (respond { acc := true, cls := ch } (writeCal ch w s)) := by
  simp [exec, execCalt, hch, hok]

theorem exec_calt_rejected (hch : isChannel s.cfg ch = true)
    (hrej : ¬(classify s (some w) true = ch ∧ saneTraining s.cfg ch w = true)) :
    exec (.calt ch (some w)) s = .next (respond {
      cls := classify s (some w) true, fcls := !(classify s (some w) true == ch),
      fsan := !saneTraining s.cfg ch w } s) := by
  simp [exec, execCalt, hch, hrej]

end

theorem saneTraining_iff (cfg : Cfg) (ch : Chan) (w : Word) : saneTraining cfg ch w = true ↔
    1000 * Int.natAbs ((w.toNat : Int) - nom cfg ch.toNat) ≤ cfg.sanityPermille * nom cfg ch.toNat := by
  rw [saneTraining, decide_eq_true_iff, absDiff_eq]

theorem exec_clsf_eq (no : Bool) (f : Option Word) (s : State) : exec (.clsf no f) s =
    .next { s with resp := some ⟨0#8 ++ classify s f no ++ 0#16, 0#32, 0#32⟩ } := by
  rw [← respond_cls]
  rfl

/-- Settles O28: the errors of CALW, else the two checks decide between `exec_calt_accepted` and
`exec_calt_rejected`; the class in either response is that of CLSF under Nominal. -/
theorem caltAcceptsOrRejects : Obligations.CaltAcceptsOrRejects := by
  refine fun ch f s hsize => ⟨fun hch => exec_bad_channel (.inl ⟨.inr rfl, hch⟩), ?_, ?_⟩
  · rintro h1 h2 rfl
    exact exec_calt_of_no_freq (isChannel_of_bounds h1 h2)
  · rintro h1 h2 w rfl
    have hch := isChannel_of_bounds h1 h2
    simp only [exec_clsf_eq, ← saneTraining_iff]
    by_cases hok : classify s (some w) true = ch ∧ saneTraining s.cfg ch w = true
    · refine ⟨_, _, exec_calt_accepted hch hok, rfl, rfl, rfl, by rw [respCls_ok, hok.1], ?_⟩
      rw [respCls_ok]
      exact ⟨fun _ => ⟨congrArg Response.r0 (okResponse_of_cls ch false false true), calEntry_writeCal h1 (hsize ▸ h2), rfl,
          by simp⟩, fun hrej => absurd ⟨rfl, hok.2⟩ hrej⟩
    · refine ⟨_, _, exec_calt_rejected hch hok, rfl, rfl, rfl, by rw [respCls_ok], ?_⟩
      rw [respCls_ok]
      obtain ⟨hhigh, hlow, hfcls, hfsan⟩ := okResponse_verdict (classify s (some w) true)
        (!(classify s (some w) true == ch)) (!saneTraining s.cfg ch w)
      exact ⟨fun h => absurd h hok, fun _ => ⟨rfl, respErr_ok _, hhigh, hlow,
        by rw [hfcls]; simp, by rw [hfsan]; simp⟩⟩

/-- Settles O29: every case of CALT is decided by the operands and the build, and so is what it answers there. -/
theorem caltVerdictIsTheSameInEveryState : Obligations.CaltVerdictIsTheSameInEveryState := by
  intro ch f s s' hcfg
  by_cases hch : isChannel s.cfg ch = true
  · have hch' : isChannel s'.cfg ch = true := hcfg ▸ hch
    cases f with
    | none => exact ⟨_, _, exec_calt_of_no_freq hch, exec_calt_of_no_freq hch', rfl⟩
    | some w =>
      have hcls := classify_nominal_congr hcfg (some w)
      by_cases hok : classify s (some w) true = ch ∧ saneTraining s.cfg ch w = true
      · exact ⟨_, _, exec_calt_accepted hch hok, exec_calt_accepted hch' (hcls ▸ hcfg ▸ hok), rfl⟩
      · refine ⟨_, _, exec_calt_rejected hch hok, exec_calt_rejected hch' (hcls ▸ hcfg ▸ hok), ?_⟩
        simp only [respond_resp, hcls, hcfg]
  · have hbad := not_not.mp (mt (isChannel_iff _ _).mpr hch)
    exact ⟨_, _, exec_bad_channel (.inl ⟨.inr rfl, hbad⟩), exec_bad_channel (.inl ⟨.inr rfl, hcfg ▸ hbad⟩), rfl⟩

/-! ### CDONE and CCLR -/

/-- Settles O30: CDONE reads `calFull`, which is that every entry is valid. -/
theorem cdoneMarksAFullTable : Obligations.CdoneMarksAFullTable := by
  refine ⟨rfl, fun s => ⟨fun hall => ?_, fun hmissing => ?_⟩⟩
  · have hfull := (calFull_iff s).mpr hall
    simp only [exec, execCdone, hfull, if_true, respond_acc]
  · have hfull := (calFull_eq_false_iff s).mpr hmissing
    simp [exec, execCdone, hfull, respond_empty]

/-- Settles O31: every entry is empty after CCLR, so entry 1 is missing and the lookups are Nominal. -/
theorem cclrEmptiesTheTable : Obligations.CclrEmptiesTheTable := by
  refine ⟨rfl, fun s hn => ?_⟩
  have hempty := calEntry_replicate (s := respond {} (clearCal s)) (n := s.cfg.nCh) rfl
  have hfull : calFull (respond {} (clearCal s)) = false :=
    (calFull_eq_false_iff _).mpr ⟨1, le_rfl, hn, by rw [hempty]⟩
  refine ⟨_, rfl, hempty, by simp, ?_, lookup_of_not_calFull hfull⟩
  rw [respond_empty]
  rfl

end Sys2Proof.Machine
end

section
/-! CALCOUNT along the commands (41_calibration.md R109). -/

namespace Sys2Proof.Machine

/-- The channels with a valid entry, each as its index in the table. -/
def validIndices (s : State) : Finset Nat := {i ∈ Finset.range s.cfg.nCh | (calEntry s (i + 1)).valid = true}

theorem calCount_eq_card (s : State) : calCount s = (validIndices s).card := by
  rw [calCount, List.countP_eq_length_filter]
  simp [validIndices, Finset.card_def, Multiset.range]

theorem mem_validIndices {s : State} {i : Nat} :
    i ∈ validIndices s ↔ i < s.cfg.nCh ∧ (calEntry s (i + 1)).valid = true := by
  simp [validIndices]

theorem calCount_of_empty {s : State} (h : s.cal = List.replicate s.cfg.nCh CalEntry.empty) : calCount s = 0 := by
  rw [calCount_eq_card, Finset.card_eq_zero, Finset.eq_empty_iff_forall_notMem]
  simp [mem_validIndices, calEntry_replicate h]

section
variable {s : State} {ch : Chan} {w : Word}

theorem validIndices_writeCal (h1 : 1 ≤ ch.toNat) (h2 : ch.toNat ≤ s.cfg.nCh) (hsize : s.cal.length = s.cfg.nCh) :
    validIndices (writeCal ch w s) = insert (ch.toNat - 1) (validIndices s) := by
  ext i
  rw [Finset.mem_insert, mem_validIndices, mem_validIndices, calEntry_writeCal h1 (hsize ▸ h2), writeCal_cfg]
  by_cases hi : i + 1 = ch.toNat
  · simp only [if_pos hi, and_true]
    omega
  · simp only [if_neg hi, show i ≠ ch.toNat - 1 by omega, false_or]

/-- A write of a valid entry keeps CALCOUNT, and of an invalid one counts it. -/
theorem calCount_writeCal (h1 : 1 ≤ ch.toNat) (h2 : ch.toNat ≤ s.cfg.nCh) (hsize : s.cal.length = s.cfg.nCh) :
    calCount (writeCal ch w s) = calCount s + if (calEntry s ch.toNat).valid then 0 else 1 := by
  have hmem : ch.toNat - 1 ∈ validIndices s ↔ (calEntry s ch.toNat).valid = true := by
    rw [mem_validIndices, Nat.sub_add_cancel h1, and_iff_right (by omega)]
  rw [calCount_eq_card, calCount_eq_card, validIndices_writeCal h1 h2 hsize, Finset.card_insert_eq_ite]
  simp only [hmem]
  split_ifs <;> rfl

/-- What a write does to CALCOUNT, as R109 (a) puts it. -/
theorem calCount_writeCal_cases (hch : isChannel s.cfg ch = true) (hsize : s.cal.length = s.cfg.nCh) :
    calCount (writeCal ch w s) = calCount s ∨
      calCount (writeCal ch w s) = calCount s + 1 ∧ (calEntry s ch.toNat).valid = false ∧
        (calEntry (writeCal ch w s) ch.toNat).valid = true := by
  rw [isChannel_iff] at hch
  have h1 : 1 ≤ ch.toNat := by omega
  have h2 : ch.toNat ≤ s.cfg.nCh := by omega
  rw [calCount_writeCal h1 h2 hsize, calEntry_writeCal h1 (hsize ▸ h2), if_pos rfl]
  cases hv : (calEntry s ch.toNat).valid with
  | true => exact .inl rfl
  | false => exact .inr ⟨rfl, rfl, rfl⟩

end

theorem effect_calCount {i : Instr} {s u : State} (hsize : s.cal.length = s.cfg.nCh) (h : Effect i s u) :
    calCount u = calCount s ∨ calCount u = 0 ∧ (i = .cclr ∨ i = .frst) ∨
      calCount u = calCount s + 1 ∧ ∃ ch f, (i = .calw ch f ∨ i = .calt ch f) ∧
        (calEntry s ch.toNat).valid = false ∧ (calEntry u ch.toNat).valid = true := by
  by_cases hempty : i = .cclr ∨ i = .frst
  · refine .inr (.inl ⟨?_, hempty⟩)
    obtain rfl | rfl := hempty <;> obtain rfl := h <;> exact calCount_of_empty rfl
  by_cases hwrite : ∃ ch f, i = .calw ch f ∨ i = .calt ch f
  · obtain ⟨ch, f, hi⟩ := hwrite
    have hu : u = s ∨ ∃ w, isChannel s.cfg ch = true ∧ u = writeCal ch w s := by
      obtain rfl | rfl := hi
      · obtain ⟨w, -, hch, hu⟩ := h
        exact .inr ⟨w, hch, hu⟩
      · obtain hu | ⟨w, -, hch, hu⟩ := h
        · exact .inl hu
        · exact .inr ⟨w, hch, hu⟩
    obtain rfl | ⟨w, hch, rfl⟩ := hu
    · exact .inl rfl
    · exact (calCount_writeCal_cases hch hsize).imp_right fun ⟨hcount, hold, hnew⟩ =>
        .inr ⟨hcount, ch, f, hi, hold, hnew⟩
  · obtain ⟨hcal, -⟩ := effect_leaves h
    obtain ⟨hcfg, -⟩ := effect_frame h
    refine .inl (calCount_congr (hcal ?_ ?_ ?_) hcfg)
    · exact fun ch f => ⟨fun hi => hwrite ⟨ch, f, .inl hi⟩, fun hi => hwrite ⟨ch, f, .inr hi⟩⟩
    · exact fun hi => hempty (.inl hi)
    · exact fun hi => hempty (.inr hi)

/-- Settles O32: an error keeps the table, and a performed command does to it what its effect does. -/
theorem calcountChangesOnlyByOneOrToZero : Obligations.CalcountChangesOnlyByOneOrToZero := by
  intro i s t hsize ht
  obtain ⟨t', ht', hcases⟩ := exec_cases i s
  obtain rfl := Host.Outcome.next.inj (ht'.symm.trans ht)
  obtain ⟨e, rfl⟩ | ⟨F, u, rfl, -, -, heff⟩ := hcases
  · exact .inl (calCount_congr rfl rfl)
  · simp only [calCount_congr (respond_cal ..) (respond_cfg ..), calEntry_congr (respond_cal ..)]
    exact effect_calCount hsize heff

end Sys2Proof.Machine
end

section
/-! The Channel Classifier (42_classifier.md R121 to R124): the nearest channel of a table, and what CLSF answers. -/

namespace Sys2Proof.Machine

/-! ### The nearest channel of a table -/

/-- Channel `c` of the entries 1..n has the least distance from `f`, and is the lowest that has (R121, R123). -/
structure IsNearest (T : Nat → Nat) (f n c : Nat) : Prop where
  one_le : 1 ≤ c
  le : c ≤ n
  least : ∀ e, 1 ≤ e → e ≤ n → absDiff f (T c) ≤ absDiff f (T e)
  lowest : ∀ e, 1 ≤ e → e < c → absDiff f (T c) < absDiff f (T e)

section
variable {T : Nat → Nat} {f n c c' : Nat}

theorem isNearest_scanTable (h : 1 ≤ n) : IsNearest T f n (scanTable T f (n - 1)).1 := by
  obtain ⟨hone, hle, hdist, hleast, hlowest⟩ := scanTable_spec T f (n - 1)
  rw [Nat.sub_add_cancel h] at hle hleast
  rw [hdist] at hleast hlowest
  exact ⟨hone, hle, hleast, hlowest⟩

theorem isNearest_unique (h : IsNearest T f n c) (h' : IsNearest T f n c') : c = c' := by
  rcases lt_trichotomy c c' with hlt | heq | hgt
  · exact absurd (h'.lowest c h.one_le hlt) (h.least c' h'.one_le h'.le).not_gt
  · exact heq
  · exact absurd (h.lowest c' h'.one_le hgt) (h'.least c h.one_le h.le).not_gt

theorem absDiff_self (a : Nat) : absDiff a a = 0 := by simp [absDiff]

theorem absDiff_pos {a b : Nat} (h : b ≠ a) : 0 < absDiff a b := by
  unfold absDiff
  omega

/-- The lowest channel with the centre `f` is at distance 0 (R124). -/
theorem isNearest_of_centre (h1 : 1 ≤ c) (hn : c ≤ n) (hlow : ∀ e, 1 ≤ e → e < c → T e ≠ T c) :
    IsNearest T (T c) n c := by
  refine ⟨h1, hn, fun e _ _ => ?_, fun e he hlt => ?_⟩ <;> rw [absDiff_self]
  · exact Nat.zero_le _
  · exact absDiff_pos (hlow e he hlt)

end

/-! ### CLASSIFY and CLSF -/

section
variable {s : State} {no : Bool} {w : Word} {c : Nat}

theorem exists_isNearest (hwf : s.cfg.wf = true) (T : Nat → Nat) (f : Nat) : ∃ c, IsNearest T f s.cfg.nCh c := by
  obtain ⟨⟨hn4, -⟩, -⟩ := of_decide_eq_true hwf
  exact ⟨_, isNearest_scanTable (by omega)⟩

/-- CLASSIFY answers the nearest channel of the selected table if that is strictly within TOL (R121). -/
theorem classify_of_isNearest (h : IsNearest (lookup s no) w.toNat s.cfg.nCh c) :
    classify s (some w) no = if absDiff w.toNat (lookup s no c) < s.cfg.tol then BitVec.ofNat 8 c else 0#8 := by
  obtain rfl := isNearest_unique h (isNearest_scanTable (h.one_le.trans h.le))
  obtain ⟨-, -, hdist, -⟩ := scanTable_spec (lookup s no) w.toNat (s.cfg.nCh - 1)
  rw [← hdist]
  rfl

/-- A channel of the build fits its 8-bit field. -/
theorem toNat_ofNat_channel (hwf : s.cfg.wf = true) (hc : c ≤ s.cfg.nCh) : (BitVec.ofNat 8 c).toNat = c := by
  obtain ⟨⟨-, hn31⟩, -⟩ := of_decide_eq_true hwf
  exact Nat.mod_eq_of_lt (by omega)

end

/-- Settles O24: the table has a nearest channel, and its distance is or is not strictly below TOL. -/
theorem clsfFindsTheNearestChannel : Obligations.ClsfFindsTheNearestChannel := by
  refine fun no f s hwf => ⟨_, exec_clsf_eq no f s, by rintro rfl; rfl, ?_⟩
  rintro w rfl
  simp only [← absDiff_eq]
  obtain ⟨c, hc⟩ := exists_isNearest hwf (lookup s no) w.toNat
  have hval := toNat_ofNat_channel hwf hc.le
  rw [classify_of_isNearest hc]
  split_ifs with htol
  · have hne : BitVec.ofNat 8 c ≠ 0#8 := fun h0 => by
      have hone := hc.one_le
      rw [← hval, h0] at hone
      exact absurd hone (by decide)
    rw [hval]
    exact ⟨fun _ => ⟨hc.le, htol, hc.least, hc.lowest⟩,
      fun h0 => absurd h0 hne, fun hfar => absurd htol (hfar c hc.one_le hc.le).not_gt⟩
  · exact ⟨fun h0 => absurd rfl h0, fun _ e h1 h2 => (not_lt.mp htol).trans (hc.least e h1 h2), fun _ => rfl⟩

theorem exec_clsf_centre {s : State} {no : Bool} {w : Word} {c : Nat} (htol : 0 < s.cfg.tol) (h1 : 1 ≤ c)
    (hn : c ≤ s.cfg.nCh) (hw : w.toNat = lookup s no c)
    (hlow : ∀ e, 1 ≤ e → e < c → lookup s no e ≠ lookup s no c) :
    exec (.clsf no (some w)) s =
      .next { s with resp := some ⟨0#8 ++ BitVec.ofNat 8 c ++ 0#16, 0#32, 0#32⟩ } := by
  have hnear : IsNearest (lookup s no) w.toNat s.cfg.nCh c := hw ▸ isNearest_of_centre h1 hn hlow
  rw [exec_clsf_eq, classify_of_isNearest hnear, hw, absDiff_self, if_pos htol]

/-- The centres of the Nominal table are pairwise different. -/
theorem nom_lt_nom {cfg : Cfg} (hwf : cfg.wf = true) {e c : Nat} (he : 1 ≤ e) (hlt : e < c) : nom cfg e < nom cfg c := by
  induction c, hlt using Nat.le_induction with
  | base => exact nom_lt_nom_succ hwf he
  | succ c hec ih => exact ih.trans (nom_lt_nom_succ hwf (he.trans (Nat.le_of_lt hec)))

/-- Settles O25: the lowest channel with the centre is nearest; Nominal centres grow, and Calibrated ones are given. -/
theorem centreClassifiesToItsChannel : Obligations.CentreClassifiesToItsChannel := by
  intro s c hwf htol h1 hn
  refine ⟨?_, fun hall hlow c' _ _ hc' => ?_⟩
  · exact exec_clsf_centre htol h1 hn (Nat.mod_eq_of_lt (nom_lt hwf hn))
      fun e he hlt => (nom_lt_nom hwf he hlt).ne
  · have htable := lookup_of_calFull ((calFull_iff s).mpr hall)
    rw [hc']
    refine exec_clsf_centre htol h1 hn (htable c).symm fun e he hlt => ?_
    rw [htable, htable, Ne, BitVec.toNat_inj]
    exact hlow e he hlt

end Sys2Proof.Machine
end

section
/-! The vote (43_debouncer.md R133) and the history it reads (R132). -/

namespace Sys2Proof.Machine

/-- At least two of the three slots hold `v`. -/
def HoldsTwo (d : Debouncer) (v : Chan) : Prop :=
  (d.hist0 = v ∧ d.hist1 = v) ∨ (d.hist0 = v ∧ d.hist2 = v) ∨ (d.hist1 = v ∧ d.hist2 = v)

theorem two_le_count_iff_holdsTwo (d : Debouncer) (v : Chan) :
    2 ≤ [d.hist0, d.hist1, d.hist2].count v ↔ HoldsTwo d v := by
  simp only [List.count_cons, List.count_nil, beq_iff_eq, HoldsTwo]
  by_cases h0 : d.hist0 = v <;> by_cases h1 : d.hist1 = v <;> by_cases h2 : d.hist2 = v <;> simp [h0, h1, h2]

/-- Two slots of one value decide the vote, for none as for a channel. -/
theorem stable_of_holdsTwo {d : Debouncer} {v : Chan} (h : HoldsTwo d v) : stable d = v := by
  unfold stable
  obtain ⟨h0, h1⟩ | ⟨h0, h2⟩ | ⟨h1, h2⟩ := h
  · by_cases hv : v = 0#8 <;> simp [h0, h1, hv]
  · by_cases hv : v = 0#8 <;> simp [h0, h2, hv]
  · rw [h1, h2]
    split_ifs with h0 hv
    · exact or_self_iff.mp h0.2
    · rfl
    · exact (not_not.mp fun hne => hv ⟨hne, rfl⟩).symm

/-- A channel is voted for by two slots only. -/
theorem holdsTwo_stable {d : Debouncer} (h : stable d ≠ 0#8) : HoldsTwo d (stable d) := by
  unfold stable at h ⊢
  split_ifs at h ⊢ with h01 h12
  · obtain ⟨-, h01 | h02⟩ := h01
    · exact .inl ⟨rfl, h01.symm⟩
    · exact .inr (.inl ⟨rfl, h02.symm⟩)
  · exact .inr (.inr ⟨rfl, h12.2.symm⟩)
  · exact absurd rfl h

theorem stable_eq_iff_holdsTwo {d : Debouncer} {v : Chan} (hv : v ≠ 0#8) : stable d = v ↔ HoldsTwo d v :=
  ⟨fun h => h ▸ holdsTwo_stable (h ▸ hv), stable_of_holdsTwo⟩

/-- Settles O35: `stable_eq_iff_holdsTwo`; none is the vote when the voted channel would need two slots. -/
theorem voteIsTwoOfThree : Obligations.VoteIsTwoOfThree := by
  intro d
  simp only [← Nat.not_le, two_le_count_iff_holdsTwo]
  refine ⟨fun v hv => stable_eq_iff_holdsTwo hv, fun h v hv htwo => ?_, fun h => ?_⟩
  · exact hv ((stable_of_holdsTwo htwo).symm.trans h)
  · by_contra hne
    exact h _ hne (holdsTwo_stable hne)

/-- The two newest classifications of a history of at least two. -/
def lastTwo (d : Debouncer) : Chan × Chan := if d.histFill = 3#2 then (d.hist1, d.hist2) else (d.hist0, d.hist1)

/-- The third classification joins two, and every later one drops the oldest of three. -/
theorem pushHist_of_two_le {d : Debouncer} (h : 2 ≤ d.histFill.toNat) (c : Chan) :
    pushHist c d = { d with hist0 := (lastTwo d).1, hist1 := (lastTwo d).2, hist2 := c, histFill := 3#2 } := by
  have hfill : ∀ n : BitVec 2, 2 ≤ n.toNat → n = 2#2 ∨ n = 3#2 := by decide
  obtain ⟨h0, h1, h2, fill, cand, len, sum, cnt, rep⟩ := d
  obtain rfl | rfl := hfill fill h <;> rfl

end Sys2Proof.Machine
end

section
/-! A DSTEP on a history that it leaves full (43_debouncer.md R131): steps 1 to 4 on the debouncer, then the event. -/

namespace Sys2Proof.Machine

/-- Steps 1 to 4: the classification is appended and the run voted on. -/
def stepRun (c : Chan) (f : Option Word) (d : Debouncer) : Debouncer := voteRun f (pushHist c d)

/-- The condition of step 5 (43_debouncer.md R136). -/
def eventDue (cfg : Cfg) (d : Debouncer) : Bool :=
  d.runCand != 0#8 && !d.runRep && decide (threshold cfg d.runCand ≤ d.runLen.toNat)

theorem eventDue_iff {cfg : Cfg} {d : Debouncer} :
    eventDue cfg d = true ↔ d.runCand ≠ 0#8 ∧ d.runRep = false ∧ threshold cfg d.runCand ≤ d.runLen.toNat := by
  simp [eventDue, and_assoc]

/-- Step 5: a due event is given and marked as reported. -/
theorem emit_of_due {s : State} (h : eventDue s.cfg s.deb = true) :
    emit s = ({ s with deb := { s.deb with runRep := true } }, some (s.deb.runCand, toneFreq s)) := by
  obtain ⟨hcand, hrep, hlen⟩ := eventDue_iff.mp h
  simp [emit, hcand, hrep, hlen]

theorem emit_of_not_due {s : State} (h : ¬eventDue s.cfg s.deb = true) : emit s = (s, none) := by
  unfold emit
  split_ifs with hskip hshort
  · rfl
  · rfl
  · push Not at hskip
    exact absurd (eventDue_iff.mpr ⟨hskip.1, eq_false_of_ne_true hskip.2, not_lt.mp hshort⟩) h

/-! ### The state after a DSTEP -/

@[simp] theorem after_cfg (i : Instr) (s : State) : (after i s).cfg = s.cfg := by
  obtain ⟨e, he⟩ | ⟨F, u, he, -, -, heff⟩ := after_cases i s <;> rw [he]
  · rfl
  · exact (effect_frame heff).1

section
variable {s : State} {c : Chan} (f : Option Word)

theorem after_dstep (hc : c.toNat ≤ s.cfg.nCh) :
    after (.dstep c f) s = respond (toneFields (debounce c f s).2 {}) (debounce c f s).1 := by
  simp only [after, exec_dstep f hc]

/-- A DSTEP touches the debouncer and the response only. -/
theorem after_dstep_frame (hc : c.toNat ≤ s.cfg.nCh) :
    after (.dstep c f) s = { s with
      deb := (after (.dstep c f) s).deb, resp := some (okResponse (toneFields (debounce c f s).2 {})) } := by
  rw [after_dstep f hc, debounce_state]
  rfl

@[simp] theorem after_dstep_cal : (after (.dstep c f) s).cal = s.cal := by
  obtain ⟨e, he⟩ | ⟨F, u, he, -, -, -, hu⟩ := after_cases (.dstep c f) s <;> rw [he]
  · rfl
  · rw [respond_cal, hu, debounce_cal]

/-- While the history fills: no run, no event (43_debouncer.md R132). -/
theorem after_dstep_filling (hc : c.toNat ≤ s.cfg.nCh) (h : s.deb.histFill.toNat < 2) :
    after (.dstep c f) s = respond {} { s with deb := pushHist c s.deb } := by
  rw [after_dstep f hc, debounce_filling h, toneFields]

theorem after_dstep_of_due (hc : c.toNat ≤ s.cfg.nCh) (h : 2 ≤ s.deb.histFill.toNat)
    (hdue : eventDue s.cfg (stepRun c f s.deb) = true) :
    after (.dstep c f) s =
      respond { ev := true, evch := (stepRun c f s.deb).runCand, r2 := toneFreq { s with deb := stepRun c f s.deb } }
        { s with deb := { stepRun c f s.deb with runRep := true } } := by
  rw [after_dstep f hc, debounce_full h]
  exact congrArg (fun r : State × Option Tone => respond (toneFields r.2 {}) r.1)
    (emit_of_due (s := { s with deb := stepRun c f s.deb }) hdue)

theorem after_dstep_of_not_due (hc : c.toNat ≤ s.cfg.nCh) (h : 2 ≤ s.deb.histFill.toNat)
    (hdue : ¬eventDue s.cfg (stepRun c f s.deb) = true) :
    after (.dstep c f) s = respond {} { s with deb := stepRun c f s.deb } := by
  rw [after_dstep f hc, debounce_full h]
  exact congrArg (fun r : State × Option Tone => respond (toneFields r.2 {}) r.1)
    (emit_of_not_due (s := { s with deb := stepRun c f s.deb }) hdue)

/-- The event on the response port. -/
theorem toneOut_after_dstep (hc : c.toNat ≤ s.cfg.nCh) (h : 2 ≤ s.deb.histFill.toNat) :
    toneOut (after (.dstep c f) s) = if eventDue s.cfg (stepRun c f s.deb) then
      some ((stepRun c f s.deb).runCand, toneFreq { s with deb := stepRun c f s.deb }) else none := by
  split_ifs with hdue
  · rw [after_dstep_of_due f hc h hdue]
    exact toneOut_respond (base := {}) rfl (some (_, _)) _
  · rw [after_dstep_of_not_due f hc h hdue]
    exact toneOut_respond (base := {}) rfl none _

theorem after_dstep_runRep (hc : c.toNat ≤ s.cfg.nCh) (h : 2 ≤ s.deb.histFill.toNat) :
    (after (.dstep c f) s).deb.runRep = ((stepRun c f s.deb).runRep || eventDue s.cfg (stepRun c f s.deb)) := by
  by_cases hdue : eventDue s.cfg (stepRun c f s.deb) = true
  · rw [after_dstep_of_due f hc h hdue, hdue, Bool.or_true]; rfl
  · rw [after_dstep_of_not_due f hc h hdue, eq_false_of_ne_true hdue, Bool.or_false]; rfl

/-- Step 5 changes RUN_REP only. -/
theorem after_dstep_deb (hc : c.toNat ≤ s.cfg.nCh) (h : 2 ≤ s.deb.histFill.toNat) :
    (after (.dstep c f) s).deb = { stepRun c f s.deb with runRep := (after (.dstep c f) s).deb.runRep } := by
  by_cases hdue : eventDue s.cfg (stepRun c f s.deb) = true
  · rw [after_dstep_of_due f hc h hdue]; rfl
  · rw [after_dstep_of_not_due f hc h hdue]; rfl

/-- The history that steps 2 to 5 leave. -/
theorem after_dstep_hist (hc : c.toNat ≤ s.cfg.nCh) (h : 2 ≤ s.deb.histFill.toNat) :
    (after (.dstep c f) s).deb.hist0 = (lastTwo s.deb).1 ∧ (after (.dstep c f) s).deb.hist1 = (lastTwo s.deb).2 ∧
      (after (.dstep c f) s).deb.hist2 = c ∧ (after (.dstep c f) s).deb.histFill = 3#2 := by
  rw [after_dstep f hc]
  have hist := debounce_hist c f s
  rwa [pushHist_of_two_le h] at hist

theorem stable_after_dstep (hc : c.toNat ≤ s.cfg.nCh) :
    stable (after (.dstep c f) s).deb = stable (pushHist c s.deb) := by
  rw [after_dstep f hc]
  exact debounce_stable c f s

theorem runCand_after_dstep (hc : c.toNat ≤ s.cfg.nCh) (h : 2 ≤ s.deb.histFill.toNat) :
    (after (.dstep c f) s).deb.runCand = stable (after (.dstep c f) s).deb := by
  rw [stable_after_dstep f hc, after_dstep_deb f hc h]
  exact voteRun_cand f _

end

end Sys2Proof.Machine
end

section
/-! Steps 3 to 5 as a DSTEP performs them (43_debouncer.md R134 to R138), and DCLR (R141). -/

namespace Sys2Proof.Machine

/-! ### A run that goes on -/

theorem extendRun_run (f : Option Word) (d : Debouncer) :
    (extendRun f d).runCand = d.runCand ∧ (extendRun f d).runLen.toNat = min (d.runLen.toNat + 1) 65535 ∧
      (extendRun f d).runRep = d.runRep := by
  rw [extendRun_eq]
  exact ⟨rfl, satSucc_toNat _, rfl⟩

/-- A sample below the 65535th is counted, and the sum of so few samples fits its register. -/
theorem extendRun_counted {w : Word} {d : Debouncer} (hcnt : d.runCnt.toNat < 65535)
    (hsum : d.runSum.toNat ≤ d.runCnt.toNat * (2 ^ 32 - 1)) :
    (extendRun (some w) d).runSum.toNat = d.runSum.toNat + w.toNat ∧
      (extendRun (some w) d).runCnt.toNat = d.runCnt.toNat + 1 := by
  have := w.isLt
  simp only [extendRun, if_pos hcnt, BitVec.toNat_ofNat]
  omega

theorem extendRun_uncounted {f : Option Word} {d : Debouncer} (h : f = none ∨ d.runCnt.toNat = 65535) :
    (extendRun f d).runSum = d.runSum ∧ (extendRun f d).runCnt = d.runCnt := by
  cases f with
  | none => exact ⟨rfl, rfl⟩
  | some w =>
    have hfull : d.runCnt.toNat = 65535 := h.resolve_left (by simp)
    simp [extendRun, hfull]

/-! ### A new run -/

theorem startRun_run (v : Chan) (f : Option Word) (d : Debouncer) :
    (startRun v f d).runCand = v ∧ (startRun v f d).runLen = (if v = 0#8 then 0#16 else 1#16) ∧
      (startRun v f d).runRep = false := by
  rw [startRun_eq]
  exact ⟨rfl, rfl, rfl⟩

theorem startRun_counted {v : Chan} (hv : v ≠ 0#8) (w : Word) (d : Debouncer) :
    (startRun v (some w) d).runSum.toNat = w.toNat ∧ (startRun v (some w) d).runCnt = 1#16 := by
  have := w.isLt
  simp only [startRun, if_pos hv, BitVec.toNat_setWidth, and_true]
  omega

theorem startRun_uncounted {v : Chan} {f : Option Word} (h : f = none ∨ v = 0#8) (d : Debouncer) :
    (startRun v f d).runSum = 0#48 ∧ (startRun v f d).runCnt = 0#16 := by
  cases f with
  | none => exact ⟨rfl, rfl⟩
  | some w =>
    have hv : v = 0#8 := h.resolve_left (by simp)
    simp [startRun, hv]

/-! ### The commands -/

theorem stepRun_of_same_vote {c : Chan} {f : Option Word} {d : Debouncer} (h : stable (pushHist c d) = d.runCand) :
    stepRun c f d = extendRun f (pushHist c d) := by
  rw [stepRun, voteRun, (pushHist_run c d).1, if_pos h]

theorem stepRun_of_new_vote {c : Chan} {f : Option Word} {d : Debouncer} (h : stable (pushHist c d) ≠ d.runCand) :
    stepRun c f d = startRun (stable (pushHist c d)) f (pushHist c d) := by
  rw [stepRun, voteRun, (pushHist_run c d).1, if_neg h]

/-- Settles O38: the empty debouncer and the empty response, written out. -/
theorem dclrEmptiesTheDebouncer : Obligations.DclrEmptiesTheDebouncer :=
  fun s => congrArg Host.Outcome.next (respond_empty (clearDeb s))

theorem okResponse_empty : okResponse {} = ⟨0#32, 0#32, 0#32⟩ := rfl

/-- Settles O34: the first two steps only fill; from the third on steps 2 to 5 leave the pushed history. -/
theorem dstepAppendsToTheHistory : Obligations.DstepAppendsToTheHistory := by
  intro c f s hc
  refine ⟨_, _, exec_eq_next_after _ _, after_dstep_frame f hc, fun h => ?_, fun h => ?_, fun h => ?_, fun h => ?_⟩
  · rw [after_dstep_filling f hc (by simp [h]), debounce_filling (by simp [h])]
    exact ⟨by simp [pushHist, h], okResponse_empty⟩
  · rw [after_dstep_filling f hc (by simp [h]), debounce_filling (by simp [h])]
    exact ⟨by simp [pushHist, h], okResponse_empty⟩
  · simpa [lastTwo, h] using after_dstep_hist f hc (by simp [h])
  · simpa [lastTwo, h] using after_dstep_hist f hc (by simp [h])

/-- Settles O36: `extendRun` and `startRun` on the pushed history, which step 5 leaves but for RUN_REP. -/
theorem runIsExtendedOrStarted : Obligations.RunIsExtendedOrStarted := by
  intro c f s hc hfill
  obtain ⟨hcand, hlen, hsum, hcnt, -⟩ := pushHist_run c s.deb
  refine ⟨_, exec_eq_next_after _ _, ?_, ?_⟩ <;> rw [stable_after_dstep f hc, after_dstep_deb f hc hfill]
  · intro hsame
    rw [stepRun_of_same_vote hsame]
    obtain ⟨hcand', hlen', -⟩ := extendRun_run f (pushHist c s.deb)
    rw [hcand] at hcand'
    rw [hlen] at hlen'
    refine ⟨hcand', hlen', fun w hw hlt hle => ?_, fun hskip => ?_⟩
    · subst hw
      rw [← hcnt] at hlt hle ⊢
      rw [← hsum] at hle ⊢
      exact extendRun_counted hlt hle
    · rw [← hcnt] at hskip ⊢
      rw [← hsum]
      exact extendRun_uncounted hskip
  · intro hnew
    rw [stepRun_of_new_vote hnew]
    obtain ⟨hcand', hlen', -⟩ := startRun_run (stable (pushHist c s.deb)) f (pushHist c s.deb)
    refine ⟨hcand', ?_, fun w hw hv => hw ▸ startRun_counted hv w _, fun hskip => startRun_uncounted hskip _⟩
    simp only [hlen']
    split_ifs <;> rfl

/-- A response with an event holds its channel, EV = 1 and its frequency (30_encoding.md R69). -/
theorem okResponse_event (c : Chan) (w : Word) :
    okResponse { ev := true, evch := c, r2 := w } = ⟨0#16 ++ c ++ 1#8, 0#32, w⟩ := by
  refine congrArg (Response.mk · 0#32 w) (BitVec.eq_of_toNat_eq ?_)
  have htrue : (bit true).toNat = 1 := rfl
  have hfalse : (bit false).toNat = 0 := rfl
  simp only [toNat_append_eq_add, BitVec.toNat_ofNat, htrue, hfalse]
  ring

/-- The frequency of an event, with the table of any state of the same build and table. -/
theorem toneFreq_of_deb (s : State) (d : Debouncer) :
    toneFreq { s with deb := d } = if 0 < d.runCnt.toNat then BitVec.ofNat 32 (d.runSum.toNat / d.runCnt.toNat)
      else BitVec.ofNat 32 (lookup s false d.runCand.toNat) := by
  rw [toneFreq, lookup_congr (s := { s with deb := d }) (t := s) rfl rfl]

/-- Steps 2 to 4 leave the history, and so the vote. -/
theorem stable_stepRun (c : Chan) (f : Option Word) (d : Debouncer) :
    stable (stepRun c f d) = stable (pushHist c d) := by
  obtain ⟨h0, h1, h2, -⟩ := voteRun_hist f (pushHist c d)
  exact stable_congr h0 h1 h2

/-- Before step 5 a run is reported if it was and goes on. -/
theorem stepRun_runRep (c : Chan) (f : Option Word) (d : Debouncer) :
    (stepRun c f d).runRep = true ↔ d.runRep = true ∧ stable (stepRun c f d) = d.runCand := by
  rw [stable_stepRun]
  by_cases h : stable (pushHist c d) = d.runCand
  · rw [stepRun_of_same_vote h, (extendRun_run _ _).2.2, (pushHist_run c d).2.2.2.2, and_iff_left h]
  · rw [stepRun_of_new_vote h, (startRun_run _ _ _).2.2]
    simp [h]

/-- Settles O37: the event is due exactly when it fires, and step 5 leaves all but RUN_REP as steps 1 to 4 do. -/
theorem eventAtTheThreshold : Obligations.EventAtTheThreshold := by
  intro c f s hc hfill
  have hrep := stepRun_runRep c f s.deb
  have hfires := eventDue_iff (cfg := s.cfg) (d := stepRun c f s.deb)
  rw [← Bool.not_eq_true, hrep] at hfires
  have answers {t : State} (ht : after (.dstep c f) s = t) : exec (.dstep c f) s = .next t :=
    ht ▸ exec_eq_next_after _ _
  by_cases hdue : eventDue s.cfg (stepRun c f s.deb) = true
  · refine ⟨_, _, answers (after_dstep_of_due f hc hfill hdue), rfl, fun _ => ⟨rfl, ?_⟩, fun h => ?_⟩
    · rw [okResponse_event, toneFreq_of_deb]
      rfl
    · exact absurd (hfires.mp hdue) h
  · refine ⟨_, _, answers (after_dstep_of_not_due f hc hfill hdue), rfl, fun h => ?_, fun _ => ⟨rfl, hrep⟩⟩
    exact absurd (hfires.mpr h) hdue

end Sys2Proof.Machine
end

section
/-! A run of one channel over many DSTEPs (43_debouncer.md R143). -/

namespace Sys2Proof.Machine

/-! ### The samples of a list of steps -/

theorem samplesOf_append_none (l : List (Chan × Option Word)) (c : Chan) :
    samplesOf (l ++ [(c, none)]) = samplesOf l := by
  simp [samplesOf]

theorem samplesOf_append_some (l : List (Chan × Option Word)) (c : Chan) (w : Word) :
    samplesOf (l ++ [(c, some w)]) = samplesOf l ++ [w.toNat] := by
  simp [samplesOf]

theorem length_samplesOf_le (l : List (Chan × Option Word)) : (samplesOf l).length ≤ l.length :=
  List.length_filterMap_le _ l

theorem sum_samplesOf_le (l : List (Chan × Option Word)) :
    (samplesOf l).sum ≤ (samplesOf l).length * (2 ^ 32 - 1) := by
  refine List.sum_le_card_nsmul _ _ fun n hn => ?_
  obtain ⟨p, -, hp⟩ := List.mem_filterMap.mp hn
  obtain ⟨w, -, rfl⟩ := Option.map_eq_some_iff.mp hp
  exact Nat.le_pred_of_lt w.isLt

/-! ### The run that a list of steps makes -/

/-- The registers hold the run of `v` that the steps `l` make. As long as RUN_LEN counts the steps, RUN_CNT counts
their samples. -/
structure IsRunOf (v : Chan) (l : List (Chan × Option Word)) (d : Debouncer) : Prop where
  cand : d.runCand = v
  len : d.runLen.toNat = min l.length 65535
  samples : l.length ≤ 65535 → d.runCnt.toNat = (samplesOf l).length ∧ d.runSum.toNat = (samplesOf l).sum

theorem isRunOf_startRun {v : Chan} (hv : v ≠ 0#8) (c : Chan) (f : Option Word) (d : Debouncer) :
    IsRunOf v [(c, f)] (startRun v f d) := by
  obtain ⟨hcand, hlen, -⟩ := startRun_run v f d
  refine ⟨hcand, by rw [hlen, if_neg hv]; rfl, fun _ => ?_⟩
  cases f with
  | none =>
    obtain ⟨hsum, hcnt⟩ := startRun_uncounted (v := v) (.inl rfl) d
    exact ⟨congrArg BitVec.toNat hcnt, congrArg BitVec.toNat hsum⟩
  | some w =>
    obtain ⟨hsum, hcnt⟩ := startRun_counted hv w d
    exact ⟨congrArg BitVec.toNat hcnt, hsum⟩

theorem isRunOf_extendRun {v : Chan} {l : List (Chan × Option Word)} {d : Debouncer} (h : IsRunOf v l d) (c : Chan)
    (f : Option Word) : IsRunOf v (l ++ [(c, f)]) (extendRun f d) := by
  obtain ⟨hcand, hlen, -⟩ := extendRun_run f d
  refine ⟨hcand.trans h.cand, ?_, fun hle => ?_⟩
  · rw [hlen, h.len, List.length_append, List.length_singleton]
    omega
  · rw [List.length_append, List.length_singleton] at hle
    obtain ⟨hcnt, hsum⟩ := h.samples (by omega)
    cases f with
    | none =>
      obtain ⟨hsum', hcnt'⟩ := extendRun_uncounted (d := d) (.inl rfl)
      rw [samplesOf_append_none, hsum', hcnt']
      exact ⟨hcnt, hsum⟩
    | some w =>
      have hlength := length_samplesOf_le l
      obtain ⟨hsum', hcnt'⟩ := extendRun_counted (w := w) (d := d) (by omega)
        (by rw [hcnt, hsum]; exact sum_samplesOf_le l)
      rw [samplesOf_append_some, hsum', hcnt', hcnt, hsum]
      simp

theorem isRunOf_congr {v : Chan} {l : List (Chan × Option Word)} {d e : Debouncer} (h : IsRunOf v l d)
    (hcand : e.runCand = d.runCand) (hlen : e.runLen = d.runLen) (hsum : e.runSum = d.runSum)
    (hcnt : e.runCnt = d.runCnt) : IsRunOf v l e := by
  obtain ⟨h1, h2, h3⟩ := h
  exact ⟨by rw [hcand, h1], by rw [hlen, h2], by rw [hsum, hcnt]; exact h3⟩

/-- The invariant of steps that all vote `v`: before the first of them there is no run of `v`, and then a run of
exactly these steps, reported from the threshold on. -/
def InRun (cfg : Cfg) (v : Chan) (l : List (Chan × Option Word)) (d : Debouncer) : Prop :=
  if l = [] then d.runCand ≠ v else IsRunOf v l d ∧ (d.runRep = true ↔ threshold cfg v ≤ l.length)

/-- The frequency that a run of `v` over the steps `l` reports (43_debouncer.md R136, R138). -/
def runFreq (s : State) (v : Chan) (l : List (Chan × Option Word)) : Word :=
  BitVec.ofNat 32 (if samplesOf l = [] then lookup s false v.toNat else (samplesOf l).sum / (samplesOf l).length)

theorem toneFreq_of_isRunOf {v : Chan} {l : List (Chan × Option Word)} {d : Debouncer} (h : IsRunOf v l d)
    (hle : l.length ≤ 65535) (s : State) : toneFreq { s with deb := d } = runFreq s v l := by
  obtain ⟨hcnt, hsum⟩ := h.samples hle
  rw [toneFreq_of_deb, hcnt, hsum, h.cand, runFreq]
  simp only [List.length_pos_iff, ite_not, apply_ite (BitVec.ofNat 32)]

/-- R5 bounds a threshold by the width of RUN_LEN. -/
theorem threshold_bounds {cfg : Cfg} (h : cfg.wf = true) (c : Chan) :
    1 ≤ threshold cfg c ∧ threshold cfg c ≤ 65535 := by
  obtain ⟨-, -, -, -, -, hlong, hshort, -⟩ := of_decide_eq_true h
  unfold threshold
  split_ifs
  · exact hlong
  · exact hshort

section
variable {s : State} {c v : Chan} {f : Option Word} {l : List (Chan × Option Word)}

/-- Steps 1 to 4 of a step that votes `v` add it to the run, and report nothing that was not reported. -/
theorem isRunOf_stepRun (hv : v ≠ 0#8) (hvote : stable (pushHist c s.deb) = v) (h : InRun s.cfg v l s.deb) :
    IsRunOf v (l ++ [(c, f)]) (stepRun c f s.deb) ∧
      ((stepRun c f s.deb).runRep = true ↔ l ≠ [] ∧ threshold s.cfg v ≤ l.length) := by
  obtain ⟨hcand, hlen, hsum, hcnt, hrep⟩ := pushHist_run c s.deb
  rw [InRun] at h
  split_ifs at h with hl
  · have hnew : stable (pushHist c s.deb) ≠ s.deb.runCand := hvote ▸ h.symm
    rw [stepRun_of_new_vote hnew, hvote, hl, (startRun_run ..).2.2]
    exact ⟨isRunOf_startRun hv c f _, by simp⟩
  · obtain ⟨hrun, hreported⟩ := h
    rw [stepRun_of_same_vote (hvote.trans hrun.cand.symm), (extendRun_run ..).2.2, hrep, hreported]
    exact ⟨isRunOf_extendRun (isRunOf_congr hrun hcand hlen hsum hcnt) c f, by simp [hl]⟩

/-- One step of a run: the event is given at the step whose number in the run is the threshold, and at no other. -/
theorem inRun_after_dstep (hwf : s.cfg.wf = true) (hv : v ≠ 0#8) (hc : c.toNat ≤ s.cfg.nCh)
    (hfill : 2 ≤ s.deb.histFill.toNat) (hvote : stable (after (.dstep c f) s).deb = v) (h : InRun s.cfg v l s.deb) :
    InRun s.cfg v (l ++ [(c, f)]) (after (.dstep c f) s).deb ∧
      toneOut (after (.dstep c f) s) =
        if l.length + 1 = threshold s.cfg v then some (v, runFreq s v (l ++ [(c, f)])) else none := by
  rw [stable_after_dstep f hc] at hvote
  obtain ⟨hrun, hrep⟩ := isRunOf_stepRun (f := f) hv hvote h
  obtain ⟨hpos, hmax⟩ := threshold_bounds hwf v
  have hlen := hrun.len
  rw [List.length_append, List.length_singleton] at hlen
  have hrep' : (stepRun c f s.deb).runRep = true ↔ threshold s.cfg v ≤ l.length :=
    hrep.trans ⟨And.right, fun hle => ⟨fun hl => by simp [hl] at hle; omega, hle⟩⟩
  have hdue : eventDue s.cfg (stepRun c f s.deb) = true ↔ l.length + 1 = threshold s.cfg v := by
    rw [eventDue_iff, ← Bool.not_eq_true, hrep', hrun.cand, hlen]
    constructor
    · omega
    · exact fun heq => ⟨hv, by omega, by omega⟩
  constructor
  · rw [InRun, if_neg (by simp), after_dstep_runRep f hc hfill, Bool.or_eq_true, hrep', hdue]
    constructor
    · rw [after_dstep_deb f hc hfill]
      exact isRunOf_congr hrun rfl rfl rfl rfl
    · rw [List.length_append, List.length_singleton]
      omega
  · rw [toneOut_after_dstep f hc hfill, hrun.cand]
    simp only [hdue]
    split_ifs with heq
    · rw [toneFreq_of_isRunOf hrun (by rw [List.length_append, List.length_singleton]; omega)]
    · rfl

end

theorem runFreq_after_dstep (s : State) (c : Chan) (f : Option Word) (v : Chan) (l : List (Chan × Option Word)) :
    runFreq (after (.dstep c f) s) v l = runFreq s v l := by
  rw [runFreq, runFreq, lookup_congr (after_dstep_cal f) (after_cfg _ s)]

theorem two_le_histFill_after_dstep {s : State} {c : Chan} {f : Option Word} (hc : c.toNat ≤ s.cfg.nCh)
    (h : 2 ≤ s.deb.histFill.toNat) : 2 ≤ (after (.dstep c f) s).deb.histFill.toNat := by
  rw [(after_dstep_hist f hc h).2.2.2]
  decide

/-- The steps of a run, by induction over them: `pre` are those already made. -/
theorem inRun_statesOf {v : Chan} (hv : v ≠ 0#8) (l : List (Chan × Option Word)) :
    ∀ (pre : List (Chan × Option Word)) (s : State), s.cfg.wf = true → (∀ p ∈ l, p.1.toNat ≤ s.cfg.nCh) →
      2 ≤ s.deb.histFill.toNat → (∀ t ∈ statesOf (dsteps l) s, stable t.deb = v) → InRun s.cfg v pre s.deb →
      ∀ (j : Nat) (t : State), (statesOf (dsteps l) s)[j]? = some t →
        InRun s.cfg v (pre ++ l.take (j + 1)) t.deb ∧
          toneOut t = if pre.length + j + 1 = threshold s.cfg v then some (v, runFreq s v (pre ++ l.take (j + 1)))
            else none := by
  induction l with
  | nil => simp [dsteps, statesOf]
  | cons p l ih =>
    obtain ⟨c, f⟩ := p
    intro pre s hwf hch hfill hvote h j t ht
    obtain ⟨hc, hch⟩ := List.forall_mem_cons.mp hch
    obtain ⟨hvote₀, hvote⟩ := List.forall_mem_cons.mp hvote
    obtain ⟨hrun, hout⟩ := inRun_after_dstep hwf hv hc hfill hvote₀ h
    cases j with
    | zero =>
      obtain rfl : after (.dstep c f) s = t := by simpa [dsteps, statesOf] using ht
      simpa using And.intro hrun hout
    | succ j =>
      have hnext := ih (pre ++ [(c, f)]) (after (.dstep c f) s)
      simp only [after_cfg, runFreq_after_dstep, List.append_assoc, List.length_append, List.length_singleton] at hnext
      have := hnext hwf hch (two_le_histFill_after_dstep hc hfill) hvote hrun j t ht
      rwa [Nat.add_right_comm pre.length 1 j] at this

/-- The steps of a run from its first on. -/
theorem run_statesOf {s : State} {v : Chan} {l : List (Chan × Option Word)} (hwf : s.cfg.wf = true) (hv : v ≠ 0#8)
    (hch : ∀ p ∈ l, p.1.toNat ≤ s.cfg.nCh) (hfill : 2 ≤ s.deb.histFill.toNat) (hcand : s.deb.runCand ≠ v)
    (hvote : ∀ t ∈ statesOf (dsteps l) s, stable t.deb = v) {j : Nat} {t : State}
    (ht : (statesOf (dsteps l) s)[j]? = some t) :
    InRun s.cfg v (l.take (j + 1)) t.deb ∧
      toneOut t = if j + 1 = threshold s.cfg v then some (v, runFreq s v (l.take (j + 1))) else none := by
  simpa using inRun_statesOf hv l [] s hwf hch hfill hvote hcand j t ht

theorem length_statesOf (is : List Instr) : ∀ s : State, (statesOf is s).length = is.length := by
  induction is with
  | nil => exact fun _ => rfl
  | cons i is ih => exact fun s => congrArg (· + 1) (ih _)

/-- A step that there is. -/
theorem lt_length_of_statesOf {l : List (Chan × Option Word)} {s t : State} {j : Nat}
    (h : (statesOf (dsteps l) s)[j]? = some t) : j < l.length := by
  obtain ⟨hj, -⟩ := List.getElem?_eq_some_iff.mp h
  rwa [length_statesOf, dsteps, List.length_map] at hj

/-- Settles O40: `run_statesOf`, by the invariant `InRun` over the steps. -/
theorem exactlyOneEventPerRun : Obligations.ExactlyOneEventPerRun := by
  refine ⟨fun d v _ h => stable_of_holdsTwo ((two_le_count_iff_holdsTwo d v).mp h), ?_⟩
  intro s l v hwf hv hch hfill hcand hvote j t ht
  obtain ⟨hrun, hout⟩ := run_statesOf hwf hv hch hfill hcand hvote ht
  have hlength : (l.take (j + 1)).length = j + 1 := List.length_take_of_le (lt_length_of_statesOf ht)
  rw [InRun, if_neg (List.ne_nil_of_length_eq_add_one hlength)] at hrun
  obtain ⟨hrun, -⟩ := hrun
  refine ⟨hrun.cand, fun h0 => BitVec.eq_of_toNat_eq ?_, ?_⟩
  · rw [hrun.len, hlength, h0]
    rfl
  · change ((∃ F, _) ↔ j + 1 = threshold s.cfg v) ∧ (_ ↔ j + 1 ≠ threshold s.cfg v)
    rw [hout]
    split_ifs with heq <;> simp [heq]

/-- Settles O41: the event stands at the last step, so the run is all of the steps, and their mean fits a word. -/
theorem eventFrequencyIsTheMeanOfTheRun : Obligations.EventFrequencyIsTheMeanOfTheRun := by
  intro s l v t F hwf hv hch hfill hcand hvote hlast hev
  rw [List.getLast?_eq_getElem?, length_statesOf, dsteps, List.length_map] at hlast
  obtain ⟨-, hout⟩ := run_statesOf hwf hv hch hfill hcand hvote hlast
  have hpos := lt_length_of_statesOf hlast
  rw [hev, Nat.sub_add_cancel (by omega), List.take_length] at hout
  split_ifs at hout
  obtain rfl : F = runFreq s v l := by simpa using hout
  rw [runFreq, BitVec.toNat_ofNat]
  split_ifs with hnone
  · rfl
  · refine Nat.mod_eq_of_lt (Nat.div_lt_of_lt_mul ?_)
    have := sum_samplesOf_le l
    have := List.length_pos_iff.mpr hnone
    omega

end Sys2Proof.Machine
end

section
/-! From the empty debouncer: a constant and an alternating sequence (43_debouncer.md R144 to R146). -/

namespace Sys2Proof.Machine

/-- The first two steps fill the history and give no event (43_debouncer.md R132). -/
theorem two_dsteps_from_empty {s : State} {p q : Chan} (f g : Option Word) (h : s.deb = Debouncer.empty)
    (hp : p.toNat ≤ s.cfg.nCh) (hq : q.toNat ≤ s.cfg.nCh) :
    toneOut (after (.dstep p f) s) = none ∧ toneOut (after (.dstep q g) (after (.dstep p f) s)) = none ∧
      (after (.dstep q g) (after (.dstep p f) s)).deb =
        { Debouncer.empty with hist0 := p, hist1 := q, histFill := 2#2 } := by
  have hfirst := after_dstep_filling f hp (by rw [h]; decide)
  have hfill : (after (.dstep p f) s).deb = { Debouncer.empty with hist0 := p, histFill := 1#2 } := by
    rw [hfirst, respond_deb, h]
    rfl
  have hsecond := after_dstep_filling (s := after (.dstep p f) s) g (by rwa [after_cfg]) (by rw [hfill]; exact one_lt_two)
  refine ⟨?_, ?_, ?_⟩
  · rw [hfirst]
    exact toneOut_respond (base := {}) rfl none _
  · rw [hsecond]
    exact toneOut_respond (base := {}) rfl none _
  · rw [hsecond, respond_deb, hfill]
    rfl

section
variable {s : State} {c v : Chan} {f : Option Word}

/-- The history that the next step sees. -/
theorem lastTwo_after_dstep (hc : c.toNat ≤ s.cfg.nCh) (h : 2 ≤ s.deb.histFill.toNat) :
    lastTwo (after (.dstep c f) s).deb = ((lastTwo s.deb).2, c) := by
  obtain ⟨-, h1, h2, hfill⟩ := after_dstep_hist f hc h
  rw [lastTwo, if_pos hfill, h1, h2]

/-- The vote of a step, from the two newest classifications before it and its own. -/
theorem stable_pushHist_of_lastTwo {d : Debouncer} (h : 2 ≤ d.histFill.toNat)
    (htwo : ((lastTwo d).1 = v ∧ (lastTwo d).2 = v) ∨ ((lastTwo d).1 = v ∧ c = v) ∨ ((lastTwo d).2 = v ∧ c = v)) :
    stable (pushHist c d) = v := by
  rw [pushHist_of_two_le h]
  exact stable_of_holdsTwo htwo

end

/-! ### A constant sequence -/

/-- Two slots of `v` before a step of `v` are two slots of `v` after it, and the vote stays `v`. -/
theorem stable_of_constant {v : Chan} (fs : List (Option Word)) :
    ∀ s : State, v.toNat ≤ s.cfg.nCh → 2 ≤ s.deb.histFill.toNat → lastTwo s.deb = (v, v) →
      ∀ t ∈ statesOf (fs.map fun f => .dstep v f) s, stable t.deb = v := by
  induction fs with
  | nil => exact fun _ _ _ _ _ ht => absurd ht List.not_mem_nil
  | cons f fs ih =>
    intro s hc hfill hlast
    refine List.forall_mem_cons.mpr ⟨?_, ?_⟩
    · rw [stable_after_dstep f hc]
      exact stable_pushHist_of_lastTwo hfill (.inl ⟨by rw [hlast], by rw [hlast]⟩)
    · exact ih _ (by rwa [after_cfg]) (two_le_histFill_after_dstep hc hfill)
        (by rw [lastTwo_after_dstep hc hfill, hlast])

/-- Settles O43: two steps fill the history, and from the third on the steps are a run of `v`. -/
theorem toneIsReportedAfterThresholdPlusTwo : Obligations.ToneIsReportedAfterThresholdPlusTwo := by
  intro s v fs hwf hv hc hempty j t ht
  have hpos := (threshold_bounds hwf v).1
  match fs, j with
  | [], j => simp [statesOf] at ht
  | f :: fs, 0 =>
    obtain rfl : after (.dstep v f) s = t := by simpa [statesOf] using ht
    obtain ⟨hout, -⟩ := two_dsteps_from_empty f none hempty hc hc
    rw [hout]
    simp
  | [_], j + 1 => simp [statesOf] at ht
  | f :: g :: fs, 1 =>
    obtain rfl : after (.dstep v g) (after (.dstep v f) s) = t := by simpa [statesOf] using ht
    obtain ⟨-, hout, -⟩ := two_dsteps_from_empty f g hempty hc hc
    rw [hout]
    simp
    omega
  | f :: g :: fs, j + 2 =>
    obtain ⟨-, -, hdeb⟩ := two_dsteps_from_empty f g hempty hc hc
    have hcfg : (after (.dstep v g) (after (.dstep v f) s)).cfg = s.cfg := by rw [after_cfg, after_cfg]
    have hsteps : dsteps (fs.map fun f => (v, f)) = fs.map fun f => .dstep v f := by simp [dsteps]
    have hfill : 2 ≤ (after (.dstep v g) (after (.dstep v f) s)).deb.histFill.toNat := by rw [hdeb]; exact le_rfl
    have hvote := stable_of_constant fs _ (by rwa [hcfg]) hfill (by rw [hdeb]; rfl)
    rw [← hsteps] at hvote
    obtain ⟨-, hout⟩ := run_statesOf (l := fs.map fun f => (v, f)) (j := j) (t := t) (by rwa [hcfg]) hv
      (by simpa [hcfg] using fun _ _ => hc) hfill (by rw [hdeb]; exact hv.symm) hvote (by rw [hsteps]; exact ht)
    have hsome : (toneOut t).isSome = true ↔ j + 1 = threshold s.cfg v := by
      rw [hout, hcfg]
      split_ifs with heq <;> simp [heq]
    rw [hsome]
    omega

/-- Settles O44: one disagreeing slot of three leaves the vote, two turn it. -/
theorem twoDisagreeingBlocksEndARun : Obligations.TwoDisagreeingBlocksEndARun := by
  intro s v u f g hv huv hu h0 h1 h2 hfull hcand
  have hfill : 2 ≤ s.deb.histFill.toNat := by rw [hfull]; decide
  have hlast : lastTwo s.deb = (v, v) := by rw [lastTwo, if_pos hfull, h1, h2]
  have hu' : u.toNat ≤ (after (.dstep u f) s).cfg.nCh := by rwa [after_cfg]
  have hfill' := two_le_histFill_after_dstep (f := f) hu hfill
  have hvote : stable (pushHist u s.deb) = v :=
    stable_pushHist_of_lastTwo hfill (.inl ⟨by rw [hlast], by rw [hlast]⟩)
  have hvote' : stable (pushHist u (after (.dstep u f) s).deb) = u :=
    stable_pushHist_of_lastTwo hfill' (.inr (.inr ⟨by rw [lastTwo_after_dstep hu hfill], rfl⟩))
  have hcand' : (after (.dstep u f) s).deb.runCand = v := by
    rw [runCand_after_dstep f hu hfill, stable_after_dstep f hu, hvote]
  refine ⟨_, _, exec_eq_next_after _ _, exec_eq_next_after _ _, hcand', ?_, ?_⟩
  · rw [runCand_after_dstep g hu' hfill', stable_after_dstep g hu', hvote']
  · rw [after_dstep_deb g hu' hfill', stepRun_of_new_vote (by rw [hvote', hcand']; exact huv), hvote']
    simp only [(startRun_run u g _).2.1]
    split_ifs <;> rfl

/-! ### An alternating sequence -/

/-- The sequence alternates between `a` and `b`, and the next classification is `a`. A run of `a` can stand only where
`a` is none: the run that the debouncer is empty with. -/
structure Alternating (a b : Chan) (d : Debouncer) : Prop where
  fill : 2 ≤ d.histFill.toNat
  last : lastTwo d = (a, b)
  cand : d.runCand = a → a = 0#8

/-- A step of an alternating sequence turns the vote, so its run is of length 1 if it is one of a channel. -/
theorem alternating_after_dstep {s : State} {a b : Chan} (f : Option Word) (hab : a ≠ b) (ha : a.toNat ≤ s.cfg.nCh)
    (h : Alternating a b s.deb) :
    Alternating b a (after (.dstep a f) s).deb ∧
      (toneOut (after (.dstep a f) s) = none ↔ (a ≠ 0#8 → 2 ≤ threshold s.cfg a)) := by
  obtain ⟨hfill, hlast, hcand⟩ := h
  have hvote : stable (pushHist a s.deb) = a := stable_pushHist_of_lastTwo hfill (.inr (.inl ⟨by rw [hlast], rfl⟩))
  constructor
  · refine ⟨two_le_histFill_after_dstep ha hfill, by rw [lastTwo_after_dstep ha hfill, hlast], fun hb => ?_⟩
    rw [runCand_after_dstep f ha hfill, stable_after_dstep f ha, hvote] at hb
    exact absurd hb hab
  · have hdue : eventDue s.cfg (stepRun a f s.deb) = true ↔ a ≠ 0#8 ∧ threshold s.cfg a ≤ 1 := by
      have hc : (stepRun a f s.deb).runCand = a := (voteRun_cand f _).trans hvote
      rw [eventDue_iff, hc]
      refine and_congr_right fun hne => ?_
      have hnew : stable (pushHist a s.deb) ≠ s.deb.runCand := fun heq => hne (hcand (heq.symm.trans hvote))
      obtain ⟨-, hlen, hrep⟩ := startRun_run a f (pushHist a s.deb)
      rw [stepRun_of_new_vote hnew, hvote, hlen, hrep, if_neg hne]
      simp
    rw [toneOut_after_dstep f ha hfill]
    simp only [hdue]
    split_ifs with hevent
    · obtain ⟨hne, hle⟩ := hevent
      exact iff_of_false (by simp) fun h => by have := h hne; omega
    · exact iff_of_true rfl fun hne => not_le.mp fun hle => hevent ⟨hne, hle⟩

/-- The classifications of the steps are `a`, `b`, `a`, `b` and so on. -/
def AlternatesFrom (a b : Chan) (l : List (Chan × Option Word)) : Prop :=
  ∀ (j : Nat) (e : Chan × Option Word), l[j]? = some e → e.1 = if j % 2 = 0 then a else b

theorem alternatesFrom_nil (a b : Chan) : AlternatesFrom a b [] := by simp [AlternatesFrom]

theorem alternatesFrom_cons {a b : Chan} {e : Chan × Option Word} {l : List (Chan × Option Word)} :
    AlternatesFrom a b (e :: l) ↔ e.1 = a ∧ AlternatesFrom b a l := by
  have hparity (j : Nat) : (if (j + 1) % 2 = 0 then a else b) = if j % 2 = 0 then b else a := by
    rcases Nat.mod_two_eq_zero_or_one j with h | h <;> simp [Nat.add_mod, h]
  constructor
  · exact fun h => ⟨h 0 e rfl, fun j e' he' => (h (j + 1) e' he').trans (hparity j)⟩
  · rintro ⟨he, h⟩ (_ | j) e' he'
    · exact Option.some.inj he' ▸ he
    · exact (h j e' he').trans (hparity j).symm

theorem statesOf_alternating (l : List (Chan × Option Word)) :
    ∀ (a b : Chan) (s : State), a ≠ b → a.toNat ≤ s.cfg.nCh → b.toNat ≤ s.cfg.nCh → Alternating a b s.deb →
      AlternatesFrom a b l → (a ≠ 0#8 → 2 ≤ threshold s.cfg a) → (b ≠ 0#8 → 2 ≤ threshold s.cfg b) →
      ∀ t ∈ statesOf (dsteps l) s, toneOut t = none := by
  induction l with
  | nil => exact fun _ _ _ _ _ _ _ _ _ _ _ ht => absurd ht List.not_mem_nil
  | cons e l ih =>
    intro a b s hab ha hb h halt hta htb
    obtain ⟨c, f⟩ := e
    obtain ⟨rfl, halt'⟩ := alternatesFrom_cons.mp halt
    obtain ⟨hnext, hout⟩ := alternating_after_dstep f hab ha h
    refine List.forall_mem_cons.mpr ⟨hout.mpr hta, ?_⟩
    exact ih b c _ hab.symm (by rwa [after_cfg]) (by rwa [after_cfg]) hnext halt' (by rwa [after_cfg])
      (by rwa [after_cfg])

/-- Settles O42: from the third step on every step turns the vote; the third and the fourth step show both channels
that a threshold of 1 would report. -/
theorem alternationGivesNoEvent : Obligations.AlternationGivesNoEvent := by
  intro s p q hwf hp hq hpq hempty
  have halternating (f g : Option Word) : Alternating p q (after (.dstep q g) (after (.dstep p f) s)).deb := by
    obtain ⟨-, -, hdeb⟩ := two_dsteps_from_empty f g hempty hp hq
    rw [hdeb]
    exact ⟨le_rfl, rfl, Eq.symm⟩
  have hcfg (f g : Option Word) : (after (.dstep q g) (after (.dstep p f) s)).cfg = s.cfg := by
    rw [after_cfg, after_cfg]
  constructor
  · intro hnone
    have hfour : AlternatesFrom p q [(p, none), (q, none), (p, none), (q, none)] := by
      simp only [alternatesFrom_cons, alternatesFrom_nil, and_self]
    have hsilent := hnone _ hfour
    obtain ⟨hnext, hout⟩ := alternating_after_dstep none hpq (by rwa [hcfg]) (halternating none none)
    obtain ⟨-, hout'⟩ := alternating_after_dstep none hpq.symm (by rwa [after_cfg, hcfg]) hnext
    rw [hcfg] at hout
    rw [after_cfg, hcfg] at hout'
    exact ⟨hout.mp (hsilent _ (by simp [dsteps, statesOf])), hout'.mp (hsilent _ (by simp [dsteps, statesOf]))⟩
  · rintro ⟨htp, htq⟩ l halt
    match l with
    | [] => exact fun _ ht => absurd ht List.not_mem_nil
    | [(c, f)] =>
      obtain ⟨rfl, -⟩ := alternatesFrom_cons.mp halt
      obtain ⟨hfirst, -⟩ := two_dsteps_from_empty f none hempty hp hq
      exact List.forall_mem_singleton.mpr hfirst
    | (c, f) :: (c', g) :: l =>
      obtain ⟨rfl, halt'⟩ := alternatesFrom_cons.mp halt
      obtain ⟨rfl, halt''⟩ := alternatesFrom_cons.mp halt'
      obtain ⟨hfirst, hsecond, -⟩ := two_dsteps_from_empty f g hempty hp hq
      refine List.forall_mem_cons.mpr ⟨hfirst, List.forall_mem_cons.mpr ⟨hsecond, ?_⟩⟩
      exact statesOf_alternating l c c' _ hpq (by rwa [hcfg]) (by rwa [hcfg]) (halternating f g) halt'' (by rwa [hcfg])
        (by rwa [hcfg])

end Sys2Proof.Machine
end

section
/-! BLK (44_pipeline_system.md R151 to R153): the analyzer, the classifier and the debouncer in one command. -/

namespace Sys2Proof.Machine

/-- On states that agree in what a DEBOUNCE reads, it leaves the same debouncer and gives the same event. -/
theorem debounce_of_agree {s t : State} (hcfg : t.cfg = s.cfg) (hcal : t.cal = s.cal) (hdeb : t.deb = s.deb) (c : Chan)
    (f : Option Word) : debounce c f t = ({ t with deb := (debounce c f s).1.deb }, (debounce c f s).2) := by
  obtain ⟨hnext, hevent⟩ := debounce_congr hcfg hcal hdeb c f
  exact Prod.ext ((debounce_state c f t).trans (by rw [hnext])) hevent

/-- BLK on a block of N_S samples. None of the three parts reads OVFCNT, so counting OVF may be written last. -/
theorem exec_blk_of_length {block : List Sample} {s : State} {f : Option Word} {c : Chan} {no : Bool}
    (hlen : block.length = s.cfg.nS) (hf : analyze s.cfg block = f) (hc : classify s f no = c) (ovf : Bool) :
    exec (.blk no ovf block) s = .next { s with
      deb := (debounce c f s).1.deb, ovfCnt := if ovf then satSucc s.ovfCnt else s.ovfCnt,
      resp := some (okResponse (toneFields (debounce c f s).2 { freqFields f with cls := c })) } := by
  have hclass : classify (countOverflow ovf s) f no = c :=
    (classify_congr (countOverflow_cal ovf s) (countOverflow_cfg ovf s) f no).trans hc
  have hdebounce := debounce_of_agree (countOverflow_cfg ovf s) (countOverflow_cal ovf s) (countOverflow_deb ovf s) c f
  simp only [exec, execBlk, hlen, ne_eq, not_true, if_false, countOverflow_cfg, hf, hclass, hdebounce]
  cases ovf <;> rfl

/-- The responses of ANLZ, CLSF and DSTEP fill separate fields, so BLK's is their bitwise or (R151). -/
theorem okResponse_blk (f : Option Word) (c : Chan) (e : Option Tone) :
    okResponse (toneFields e { freqFields f with cls := c }) =
      ⟨(okResponse (freqFields f)).r0 ||| (okResponse { cls := c }).r0 ||| (okResponse (toneFields e {})).r0,
        (okResponse (freqFields f)).r1, (okResponse (toneFields e {})).r2⟩ := by
  rw [okResponse_or, okResponse_or]
  cases f <;> cases e <;> simp [okResponse, freqFields, toneFields]

theorem exec_clsf_of_classify {s : State} {f : Option Word} {c : Chan} {no : Bool} (h : classify s f no = c) :
    exec (.clsf no f) s = .next (respond { cls := c } s) :=
  h ▸ rfl

/-- DSTEP on a state that agrees with `s` in what a DEBOUNCE reads. -/
theorem exec_dstep_of_agree {s t : State} {c : Chan} (f : Option Word) (hc : c.toNat ≤ t.cfg.nCh)
    (hcfg : t.cfg = s.cfg) (hcal : t.cal = s.cal) (hdeb : t.deb = s.deb) :
    exec (.dstep c f) t = .next { t with
      deb := (debounce c f s).1.deb, resp := some (okResponse (toneFields (debounce c f s).2 {})) } := by
  rw [exec_dstep f hc, debounce_of_agree hcfg hcal hdeb]
  rfl

/-- Settles O45: each command of the sequence writes the response and, as the last, the debouncer; so the next one
reads the build, the table and the debouncer of `s`, and its operands from the responses before it. -/
theorem blkIsAnlzThenClsfThenDstep : Obligations.BlkIsAnlzThenClsfThenDstep := by
  refine fun no ovf block s hwf => ⟨fun hlen => if_pos hlen, fun hlen => ?_⟩
  obtain ⟨hn4, hn31⟩ := nCh_bounds hwf
  obtain ⟨f, hf⟩ : ∃ f, analyze s.cfg block = f := ⟨_, rfl⟩
  obtain ⟨c, hc⟩ : ∃ c, classify s f no = c := ⟨_, rfl⟩
  have hle : c.toNat ≤ s.cfg.nCh := hc ▸ classify_le s f no (by omega) (by omega)
  have hfreq := respFreq_freqFields f
  have hclsf := exec_clsf_of_classify (s := respond (freqFields f) s) ((classify_congr rfl rfl f no).trans hc)
  have hdstep := exec_dstep_of_agree (s := s) (t := respond { cls := c } (respond (freqFields f) s)) f hle rfl rfl rfl
  refine ⟨_, _, _, _, _, _, hf ▸ exec_anlz_of_length hlen, rfl, hfreq.symm ▸ hclsf, rfl,
    (congrArg₂ (fun c f => exec (.dstep c f) _) (respCls_ok _) hfreq).trans hdstep, rfl, respErr_toneFields _ _, ?_⟩
  rw [exec_blk_of_length hlen hf hc ovf, okResponse_blk]
  rfl

/-- Settles O46: `exec_blk_of_length` with the flag 0 and 1. -/
theorem overflowFlagOnlyCounts : Obligations.OverflowFlagOnlyCounts :=
  fun _ _ _ hlen => ⟨_, exec_blk_of_length hlen rfl rfl false, rfl, exec_blk_of_length hlen rfl rfl true⟩

end Sys2Proof.Machine
end

section
/-! The system commands FRST, NOP and RDREG (44_pipeline_system.md R154, R155, R157). -/

namespace Sys2Proof

/-- A command word without operands that misses its row's match has a reserved bit set (30_encoding.md R73). -/
theorem decode_reservedBit {w : Word} {o : Op} (hop : fieldOp w = opCode o) (hcount : operandCount w = 0)
    (hm : w &&& opMask o ≠ opMatch o) : decode [w] = .error .reservedBit := by
  simp [decode, decodeCommand, hcount, opOf_of_code hop, hm]

end Sys2Proof

namespace Sys2Proof.Machine

/-- Settles O47: FRST clears the table and the debouncer, which CCLR and DCLR clear one after the other. -/
theorem frstClearsTheSession : Obligations.FrstClearsTheSession := by
  refine ⟨rfl, fun s => ⟨_, rfl, calEntry_replicate rfl, List.length_replicate, ?_, _, rfl, rfl⟩⟩
  rw [respond_empty]
  rfl

/-- Settles O48: the mask of NOP covers the whole word. -/
theorem nopOnlyAnswers : Obligations.NopOnlyAnswers := by
  refine ⟨rfl, fun s => congrArg Host.Outcome.next (respond_empty s), fun w hop hw => ?_⟩
  refine decode_reservedBit (o := .nop) hop (operandCount_of_code (o := .nop) hop) fun hm => hw ?_
  exact BitVec.and_allOnes.symm.trans hm

theorem okResponse_r1 (v : Word) : okResponse { r1 := v } = ⟨0#32, v, 0#32⟩ :=
  congrArg (Response.mk · v 0#32) (congrArg Response.r0 okResponse_empty)

/-- Settles O49: the encoding of RDREG has 0 in its reserved bits, and the register read decides the answer. -/
theorem rdregReadsARegister : Obligations.RdregReadsARegister := by
  refine fun idx s =>
    ⟨decodeOfEncodeIsTheCommand (.rdreg idx) [] rfl, fun low hlow => ?_, fun v hv => ?_, fun hnone => ?_⟩
  · have hop : fieldOp (0x60#8 ++ idx ++ low) = opCode .rdreg := (extract_above _ _ 8 8).trans (extract_high ..)
    refine decode_reservedBit hop (operandCount_of_code hop) fun hm => hlow ?_
    obtain ⟨-, -, hlow0⟩ := eq_wordR_iff.mp (match_rdreg_iff.mp hm)
    exact (extract_low ..).symm.trans hlow0
  · simp only [exec, execRdreg, hv, respond, okResponse_r1]
  · simp only [exec, execRdreg, hnone]
    rfl

end Sys2Proof.Machine
end

section
/-! What a command answers (60_exceptions.md R165 to R170): the error it ends in, and the channels in its response. -/

namespace Sys2Proof.Machine

/-- Settles O14: of the two cases of `exec_cases`, an error is `raiseErr`, whose code is never 0, and a performed
command answers ERR = 0 and keeps the record by `effect_frame`. -/
theorem errorsAreRecordedAndPrecise : Obligations.ErrorsAreRecordedAndPrecise := by
  intro i s t r h hr
  obtain ⟨t', ht', hcases⟩ := exec_cases i s
  obtain rfl := Host.Outcome.next.inj (ht'.symm.trans h)
  obtain ⟨e, rfl⟩ | ⟨F, u, rfl, -, -, heff⟩ := hcases <;> obtain rfl := Option.some.inj hr
  · rw [respErr_err]
    exact ⟨fun _ => ⟨rfl, errCode_range e⟩, fun h0 => absurd h0 (errCode_ne_zero e)⟩
  · obtain ⟨-, -, hlast, hcount⟩ := effect_frame heff
    exact ⟨fun hne => absurd (respErr_ok _) hne, fun _ => ⟨hlast, hcount⟩⟩

/-! ### The error and the class of a response -/

/-- CLS of a response to a command in `s` is none or a result of CLASSIFY. -/
def ClassIsClassified (s : State) (c : Chan) : Prop := c = 0#8 ∨ ∃ f no, c = classify s f no

/-- The command answers ERR = `code`, and a class that CLASSIFY can give. -/
def Answers (i : Instr) (s : State) (code : BitVec 8) : Prop :=
  ∃ t r, exec i s = .next t ∧ t.resp = some r ∧ respErr r = code ∧ ClassIsClassified s (respCls r)

@[simp] theorem toneFields_cls (e : Option Tone) (F : Fields) : (toneFields e F).cls = F.cls := by cases e <;> rfl

section
variable {i : Instr} {s : State}

theorem answers_of_raiseErr {e : Err} (h : exec i s = .next (raiseErr e s)) : Answers i s (errCode e) :=
  ⟨_, _, h, rfl, respErr_err e, .inl (respCls_err e)⟩

theorem answers_of_ok {t : State} {F : Fields} (h : exec i s = .next t) (hr : t.resp = some (okResponse F))
    (hcls : ClassIsClassified s F.cls) : Answers i s 0#8 :=
  ⟨t, _, h, hr, respErr_ok F, (respCls_ok F).symm ▸ hcls⟩

/-- The commands on a block: BAD_LENGTH for a wrong COUNT. -/
theorem answers_block {block : List Sample} (hi : i = .anlz block ∨ ∃ no ovf, i = .blk no ovf block) :
    Answers i s (if block.length ≠ s.cfg.nS then 2#8 else 0#8) := by
  split_ifs with hlen
  · refine answers_of_raiseErr (e := .badLength) ?_
    obtain rfl | ⟨no, ovf, rfl⟩ := hi <;> exact if_pos hlen
  · replace hlen := not_not.mp hlen
    obtain rfl | ⟨no, ovf, rfl⟩ := hi
    · refine answers_of_ok (exec_anlz_of_length hlen) rfl (.inl ?_)
      cases analyze s.cfg block <;> rfl
    · refine answers_of_ok (exec_blk_of_length hlen rfl rfl ovf) rfl (.inr ⟨analyze s.cfg block, no, ?_⟩)
      rw [toneFields_cls]

/-- A CALT with both operands right answers the class of the training frequency, accepted or not. -/
theorem answers_calt {ch : Chan} (hch : isChannel s.cfg ch = true) (w : Word) :
    Answers (.calt ch (some w)) s 0#8 := by
  by_cases hok : classify s (some w) true = ch ∧ saneTraining s.cfg ch w = true
  · exact answers_of_ok (exec_calt_accepted hch hok) rfl (.inr ⟨some w, true, hok.1.symm⟩)
  · exact answers_of_ok (exec_calt_rejected hch hok) rfl (.inr ⟨some w, true, rfl⟩)

/-- CALW and CALT check the channel before the frequency (R169). -/
theorem answers_calibration {ch : Chan} {f : Option Word} (hi : i = .calw ch f ∨ i = .calt ch f) :
    Answers i s (if ch.toNat = 0 ∨ s.cfg.nCh < ch.toNat then 3#8 else if f = none then 4#8 else 0#8) := by
  split_ifs with hbad hf
  · exact answers_of_raiseErr (e := .badChannel) (exec_bad_channel (.inl ⟨hi, hbad⟩))
  · have hch := (isChannel_iff _ _).mpr hbad
    subst hf
    refine answers_of_raiseErr (e := .badFreq) ?_
    obtain rfl | rfl := hi
    · exact exec_calw_of_no_freq hch
    · exact exec_calt_of_no_freq hch
  · have hch := (isChannel_iff _ _).mpr hbad
    obtain ⟨w, rfl⟩ := Option.ne_none_iff_exists'.mp hf
    obtain rfl | rfl := hi
    · exact answers_of_ok (exec_calw_of_isChannel hch w) rfl (.inl rfl)
    · exact answers_calt hch w

theorem answers_dstep (ch : Chan) (f : Option Word) :
    Answers (.dstep ch f) s (if s.cfg.nCh < ch.toNat then 3#8 else 0#8) := by
  split_ifs with hbad
  · exact answers_of_raiseErr (e := .badChannel) (exec_dstep_error f hbad)
  · exact answers_of_ok (exec_dstep f (not_lt.mp hbad)) rfl (.inl (toneFields_cls ..))

theorem answers_rdreg (idx : BitVec 8) : Answers (.rdreg idx) s (if regRead s idx = none then 5#8 else 0#8) := by
  cases hv : regRead s idx with
  | none => exact answers_of_raiseErr (e := .badReg) (by simp only [exec, execRdreg, hv])
  | some v => exact answers_of_ok (t := respond { r1 := v } s) (by simp only [exec, execRdreg, hv]) rfl (.inl rfl)

theorem answers_cdone : Answers .cdone s 0#8 := by
  by_cases hfull : calFull s = true
  · exact answers_of_ok (if_pos hfull) rfl (.inl rfl)
  · exact answers_of_ok (if_neg hfull) rfl (.inl rfl)

end

/-- The code of the error that a command ends in, 0 for none (R165, R169, R170). -/
def errorOf (i : Instr) (s : State) : BitVec 8 :=
  match i with
  | .anlz block => if block.length ≠ s.cfg.nS then 2#8 else 0#8
  | .blk _ _ block => if block.length ≠ s.cfg.nS then 2#8 else 0#8
  | .calw ch f => if ch.toNat = 0 ∨ s.cfg.nCh < ch.toNat then 3#8 else if f = none then 4#8 else 0#8
  | .calt ch f => if ch.toNat = 0 ∨ s.cfg.nCh < ch.toNat then 3#8 else if f = none then 4#8 else 0#8
  | .dstep ch _ => if s.cfg.nCh < ch.toNat then 3#8 else 0#8
  | .rdreg idx => if regRead s idx = none then 5#8 else 0#8
  | _ => 0#8

theorem exec_answers (i : Instr) (s : State) : Answers i s (errorOf i s) := by
  cases i with
  | nop | cclr | dclr | frst => exact answers_of_ok rfl rfl (.inl rfl)
  | anlz block => exact answers_block (.inl rfl)
  | blk no ovf block => exact answers_block (.inr ⟨no, ovf, rfl⟩)
  | clsf no f => exact answers_of_ok rfl rfl (.inr ⟨f, no, rfl⟩)
  | calw ch f => exact answers_calibration (.inl rfl)
  | calt ch f => exact answers_calibration (.inr rfl)
  | cdone => exact answers_cdone
  | dstep ch f => exact answers_dstep ch f
  | rdreg idx => exact answers_rdreg idx

/-- Settles O15: `exec_answers`. -/
theorem errorCauses : Obligations.ErrorCauses := fun i s =>
  let ⟨t, r, ht, hr, herr, _⟩ := exec_answers i s
  ⟨t, r, ht, hr, herr⟩

/-! ### The channels of a response -/

theorem respCls_le {i : Instr} {s t : State} {r : Response} (hwf : s.cfg.wf = true) (h : exec i s = .next t)
    (hr : t.resp = some r) : (respCls r).toNat ≤ s.cfg.nCh := by
  obtain ⟨t', r', ht', hr', -, hcls⟩ := exec_answers i s
  obtain rfl := Host.Outcome.next.inj (ht'.symm.trans h)
  obtain rfl := Option.some.inj (hr'.symm.trans hr)
  obtain ⟨hn4, hn31⟩ := nCh_bounds hwf
  obtain hnone | ⟨f, no, hclass⟩ := hcls
  · simp [hnone]
  · exact hclass ▸ classify_le s f no (by omega) (by omega)

/-- An event is on the channel of the run (43_debouncer.md R136). -/
theorem emit_event_channel {s : State} {e : Tone} (h : (emit s).2 = some e) : e.1 = (emit s).1.deb.runCand := by
  unfold emit at h ⊢
  split_ifs at h ⊢
  obtain rfl := Option.some.inj h
  rfl

theorem debounce_event_channel {c : Chan} {f : Option Word} {s : State} {e : Tone}
    (h : (debounce c f s).2 = some e) : e.1 = (debounce c f s).1.deb.runCand := by
  rcases Nat.lt_or_ge s.deb.histFill.toNat 2 with hfill | hfill
  · rw [debounce_filling hfill] at h
    cases h
  · rw [debounce_full hfill] at h ⊢
    exact emit_event_channel h

/-- The event of a performed command is on the channel of the run that it leaves. -/
theorem eventOf_channel {i : Instr} {s u : State} {e : Tone} (heff : Effect i s u) (h : eventOf i s = some e) :
    e.1 = u.deb.runCand := by
  cases hi : isBlockStep i with
  | false => rw [event_none hi] at h; cases h
  | true =>
    cases i <;> simp only [isBlockStep, Bool.false_eq_true] at hi
    case blk =>
      obtain rfl := heff
      exact debounce_event_channel h
    case dstep =>
      obtain ⟨-, rfl⟩ := heff
      exact debounce_event_channel h

/-- Settles O54: CLS by `respCls_le`; EVCH is 0 without an event, and with one it is RUN_CAND of a state that meets
the invariants again. -/
theorem responsesHoldChannels : Obligations.ResponsesHoldChannels := by
  intro i s t r hwf hinv h hr
  refine ⟨respCls_le hwf h hr, ?_⟩
  obtain ⟨t', ht', hcases⟩ := exec_cases i s
  obtain rfl := Host.Outcome.next.inj (ht'.symm.trans h)
  obtain ⟨e, rfl⟩ | ⟨F, u, rfl, -, hevch, heff⟩ := hcases <;> obtain rfl := Option.some.inj hr
  · simp
  · rw [respEvch_ok]
    cases hevent : eventOf i s with
    | none => simp [toneFields, hevch]
    | some e =>
      obtain ⟨hcfg, -⟩ := effect_frame heff
      obtain ⟨-, -, -, hcand⟩ := (effect_keeps_inv hwf hinv heff).channels
      rw [toneFields, eventOf_channel heff hevent, ← hcfg]
      exact hcand

end Sys2Proof.Machine
end

section
/-! Waiting and RST in the middle of a command (70_reset_and_hazards.md R190, R197). -/

namespace Sys2Proof.Machine

/-- While the words of a command are incomplete the hardware waits for the rest (R197). -/
theorem fetch_incomplete {ws : List Word} (h : decode ws = .error .incomplete) :
    fetch (ws.map PortEvent.word) = .wait := by
  cases ws with
  | nil => rfl
  | cons w ws => simp only [List.map_cons, fetch, takeWords_short ((decode_incomplete_iff w ws).mp h)]

/-- RST takes with it the words of an incomplete command (R190). -/
theorem fetch_incomplete_rst {ws : List Word} (h : decode ws = .error .incomplete) (inp : List PortEvent) :
    fetch (ws.map PortEvent.word ++ .rst :: inp) = .reset inp := by
  cases ws with
  | nil => rfl
  | cons w ws =>
    simp only [List.map_cons, List.cons_append, fetch, takeWords_rst ((decode_incomplete_iff w ws).mp h)]

/-- Settles O9: `fetch` waits, and then the step leaves the state. -/
theorem incompleteCommandWaits : Obligations.IncompleteCommandWaits := by
  intro s ws hwf h hin
  have hfetch : fetch s.input = .wait := hin ▸ fetch_incomplete h
  simp only [step, hwf, if_true, hfetch]

/-- Settles O10: `fetch` finds the RST behind the incomplete command, and the step is `hardReset`. -/
theorem resetPutsEveryStateBack : Obligations.ResetPutsEveryStateBack := by
  intro s ws inp hwf h hin
  have hfetch : fetch s.input = .reset inp := hin ▸ fetch_incomplete_rst h inp
  have hentry (c : Nat) : calEntry (hardReset s inp) c = ⟨false, 0#32⟩ := calEntry_replicate (hardReset_cal s inp) c
  refine ⟨hardReset s inp, by simp only [step, hwf, if_true, hfetch], fun c => ?_, ?_⟩
  · rw [hentry]
    exact ⟨rfl, rfl⟩
  · simp [Debouncer.empty]

end Sys2Proof.Machine
end

section
/-! The first two block steps after a clear (70_reset_and_hazards.md R194): a command adds at most one classification
to the history, and there is no event before the third. -/

namespace Sys2Proof.Machine

/-- BLK and DSTEP are one DEBOUNCE, on the debouncer as it stands (43_debouncer.md R131, 44_pipeline_system.md
R151). -/
theorem effect_blockStep {i : Instr} {s u : State} (hi : isBlockStep i = true) (h : Effect i s u) :
    ∃ c f s', s'.deb = s.deb ∧ u = (debounce c f s').1 ∧ eventOf i s = (debounce c f s').2 := by
  cases i <;> simp only [isBlockStep, Bool.false_eq_true] at hi
  case blk no ovf block => exact ⟨_, _, countOverflow ovf s, countOverflow_deb .., h, rfl⟩
  case dstep ch f =>
    obtain ⟨-, hu⟩ := h
    exact ⟨ch, f, s, rfl, hu, rfl⟩

/-- Between the block steps the debouncer is kept or emptied. -/
theorem effect_deb_of_not_blockStep {i : Instr} {s u : State} (hi : isBlockStep i = false) (h : Effect i s u) :
    u.deb = s.deb ∨ u.deb = Debouncer.empty := by
  by_cases hclear : i = .dclr ∨ i = .frst
  · obtain rfl | rfl := hclear <;> obtain rfl := h <;> exact .inr rfl
  · push Not at hclear
    obtain ⟨-, -, hdeb, -⟩ := effect_leaves h
    exact .inl (hdeb hi hclear.1 hclear.2)

theorem effect_histFill_le {i : Instr} {s u : State} (h : Effect i s u) :
    u.deb.histFill.toNat ≤ s.deb.histFill.toNat + if isBlockStep i then 1 else 0 := by
  cases hi : isBlockStep i with
  | false =>
    obtain hdeb | hdeb := effect_deb_of_not_blockStep hi h <;> rw [hdeb]
    · exact Nat.le_add_right ..
    · exact Nat.zero_le _
  | true =>
    obtain ⟨c, f, s', hdeb, rfl, -⟩ := effect_blockStep hi h
    obtain ⟨-, -, -, hfill⟩ := debounce_hist c f s'
    rw [hfill, pushHist_fill, hdeb]
    exact min_le_left ..

theorem histFill_after_le (i : Instr) (s : State) :
    (after i s).deb.histFill.toNat ≤ s.deb.histFill.toNat + if isBlockStep i then 1 else 0 := by
  obtain ⟨e, he⟩ | ⟨F, u, he, -, -, heff⟩ := after_cases i s <;> rw [he]
  · exact Nat.le_add_right ..
  · rw [respond_deb]
    exact effect_histFill_le heff

/-- A block step that does not fill the history gives no event. -/
theorem toneOut_after_filling {i : Instr} {s : State} (hi : isBlockStep i = true) (hfill : s.deb.histFill.toNat < 2) :
    toneOut (after i s) = none := by
  obtain ⟨e, he⟩ | ⟨F, u, he, hF, -, heff⟩ := after_cases i s <;> rw [he]
  · exact toneOut_raise e s
  · obtain ⟨c, f, s', hdeb, -, hevent⟩ := effect_blockStep hi heff
    rw [toneOut_respond hF, hevent, debounce_filling (hdeb ▸ hfill)]

/-- No event while the history and the block steps to come make at most two classifications. -/
theorem no_event_while_filling (is : List Instr) {s : State}
    (h : s.deb.histFill.toNat + is.countP isBlockStep ≤ 2) : ∀ t ∈ statesOf is s, toneOut t = none := by
  induction is generalizing s with
  | nil => exact fun _ ht => nomatch ht
  | cons i is ih =>
    rw [List.countP_cons] at h
    refine List.forall_mem_cons.mpr ⟨?_, ih ?_⟩
    · cases hi : isBlockStep i with
      | false => exact toneOut_after hi s
      | true =>
        rw [if_pos hi] at h
        exact toneOut_after_filling hi (by omega)
    · have := histFill_after_le i s
      omega

/-- Settles O39: DCLR, FRST and RST empty the history, and `no_event_while_filling` counts from there. -/
theorem noEventInTheFirstTwoSteps : Obligations.NoEventInTheFirstTwoSteps := by
  intro s is hcount
  have silent {u : State} (hempty : u.deb = Debouncer.empty) : ∀ t ∈ statesOf is u, toneOut t = none :=
    no_event_while_filling is (by rw [hempty]; exact (Nat.zero_add _).trans_le hcount)
  exact ⟨silent rfl, silent rfl, fun inp => silent (hardReset_deb s inp)⟩

end Sys2Proof.Machine
end
